-- ==== Sys2Proof/Word.lean ====
section
/-!
DEFINITION. The words of the machine: a general register, a memory word, an instruction and an address are all
32 bits (00_scope.md R5, XLEN and ALEN); the accumulator and the execute result are 64 bits (ACCLEN).
-/

namespace Sys2Proof

/-- A 32-bit word: register content, memory word, instruction, word address (R5, R21, R50, R80). -/
abbrev Word := BitVec 32

/-- A 64-bit value: the accumulator and the execute result (R5, R25). -/
abbrev DWord := BitVec 64

/-- A register number, the width of a register field (R21, R81). -/
abbrev RegIdx := BitVec 5

end Sys2Proof
end

