-- ==== Sys2Proof/Config.lean ====
section
/-!
DEFINITION. The configuration of 00_scope.md R5: what is fixed when the core is constructed. The OPEN parameters and the
parameters that 92_eei_decisions.md section 7 advises to keep as arguments are fields of `Config`; the others are constants.
A state carries the configuration it was constructed with (`State.cfg`), so a statement about every state is a statement
about every configuration. The free value of the model stands here as an opaque constant.
-/

namespace Sys2Proof

/-- The main-memory variant MEM_KIND (20_memory.md R52, R53). `sparse n` wraps a fresh flat unit of `n` words. -/
inductive MemKind where
  | flat
  | sparse (wrappedSize : Nat)
  deriving DecidableEq, Repr

/-- PC_INC_PHASE: where in the cycle the pc is incremented (R127, D7). -/
inductive PcIncPhase where
  | beforePass
  | afterPass
  deriving DecidableEq, Repr

/-- BRANCH_IMM_EXT: how a 16-bit branch target becomes an address (R197, D8). -/
inductive ImmExt where
  | zext
  | sext
  deriving DecidableEq, Repr

/-- R0_POLICY: whether a write to register 0 lands (R22, D10). -/
inductive R0Policy where
  | initialisedOnly
  | hardwired
  deriving DecidableEq, Repr

/-- SW_DATA_INDEX: which loaded register value `sw` stores, the first (index 0) or the second (index 1) (R191, D11). -/
inductive SwDataIndex where
  | index0
  | index1
  deriving DecidableEq, Repr

/-- JALR_LINK_DEST: the register that receives the return address of `jalr` (R196, D13, U7). -/
inductive JalrLinkDest where
  | rd
  | linkReg
  | none
  deriving DecidableEq, Repr

/-- A bit slice [start, stop) of an instruction word (R6). -/
structure BitSlice where
  start : Nat
  stop : Nat
  deriving DecidableEq, Repr

/-- The configuration a core is constructed with (R5). -/
structure Config where
  /-- MEM_SIZE in words; OPEN, 1 to 2^32. -/
  memSize : Nat
  memKind : MemKind
  pcIncPhase : PcIncPhase
  branchImmExt : ImmExt
  r0Policy : R0Policy
  swDataIndex : SwDataIndex
  linkReg : RegIdx
  jalrLinkDest : JalrLinkDest
  wbImmDestSlice : BitSlice
  deriving DecidableEq, Repr

/-- The default configuration: the values of R5. MEM_SIZE is OPEN there; DESIGN CHOICE (entry 5): the largest size R5
allows, so that every 32-bit word address exists. -/
def Config.default : Config where
  memSize := 2 ^ 32
  memKind := .flat
  pcIncPhase := .beforePass
  branchImmExt := .zext
  r0Policy := .initialisedOnly
  swDataIndex := .index0
  linkReg := 31
  jalrLinkDest := .rd
  wbImmDestSlice := ⟨16, 21⟩

/-- ACC_RESET, which is "unspecified" (R5): the accumulator a program reads before any `mult`, `multu`, `div` or `divu` has
committed. The spec gives it no value (R25, R33, N12), so it is a FREE VALUE with no body, and a statement holds whatever it is.
DESIGN CHOICE (entry 7) between the two treatments of R226 (c) and D15: the one under which the instruction runs. -/
opaque Config.accAtReset : DWord

/-- PC_RESET (R5, D5). -/
def Config.pcReset : Word := 0

/-- PC_STEP (R5, D6). -/
def Config.pcStep : Word := 1

/-- LINK_OFFSET (R5, R203). -/
def Config.linkOffset : Word := 2

/-- JUMP_BITS and JUMP_SHIFT (R5, R201). -/
def Config.jumpBits : Nat := 28

def Config.jumpShift : Nat := 2

/-- LAT: the latency `accept` sets, the same for all five stages (R5, R112). -/
def Config.stageLatency : Nat := 1

/-- TICK: what a cycle subtracts from every latency counter (R5, R113, D4). -/
def Config.tickAmount : Nat := 1

end Sys2Proof
end

