-- ==== Sys2Proof/Syntax.lean ====
section
/-!
DEFINITION. The instructions: one constructor per row of spec/opcode_table.json (30_encoding.md R83, R84), with the operands
of the assembler syntax in its order (R90). A constructor holds exactly the fields the instruction uses; the fields it ignores
(R86) stay in the instruction word, which every latch carries.
-/

namespace Sys2Proof

/-- The 40 instructions. Register operands are register numbers, `imm` is `imm16`, `field` is `tgt26` (R81). -/
inductive Instr where
  -- shifts by a constant: `op $d, $t, sh`
  | sll (rd rt : RegIdx) (shamt : BitVec 5)
  | srl (rd rt : RegIdx) (shamt : BitVec 5)
  | sra (rd rt : RegIdx) (shamt : BitVec 5)
  -- shifts by a register: `op $d, $t, $s`
  | sllv (rd rt rs : RegIdx)
  | srlv (rd rt rs : RegIdx)
  | srav (rd rt rs : RegIdx)
  -- indirect jumps and the system instruction
  | jr (rs : RegIdx)
  | jalr (rd rs : RegIdx)
  | syscall
  -- accumulator
  | mfhi (rd : RegIdx)
  | mflo (rd : RegIdx)
  | mult (rs rt : RegIdx)
  | multu (rs rt : RegIdx)
  | div (rs rt : RegIdx)
  | divu (rs rt : RegIdx)
  -- register-register arithmetic, logic, comparison: `op $d, $s, $t`
  | add (rd rs rt : RegIdx)
  | addu (rd rs rt : RegIdx)
  | sub (rd rs rt : RegIdx)
  | subu (rd rs rt : RegIdx)
  | and (rd rs rt : RegIdx)
  | or (rd rs rt : RegIdx)
  | xor (rd rs rt : RegIdx)
  | nor (rd rs rt : RegIdx)
  | slt (rd rs rt : RegIdx)
  | sltu (rd rs rt : RegIdx)
  -- conditional branches
  | bltz (rs : RegIdx) (imm : BitVec 16)
  | beq (rs rt : RegIdx) (imm : BitVec 16)
  | bne (rs rt : RegIdx) (imm : BitVec 16)
  -- arithmetic and logic with an immediate: `op $t, $s, imm`
  | addi (rt rs : RegIdx) (imm : BitVec 16)
  | addiu (rt rs : RegIdx) (imm : BitVec 16)
  | slti (rt rs : RegIdx) (imm : BitVec 16)
  | sltiu (rt rs : RegIdx) (imm : BitVec 16)
  | andi (rt rs : RegIdx) (imm : BitVec 16)
  | ori (rt rs : RegIdx) (imm : BitVec 16)
  | xori (rt rs : RegIdx) (imm : BitVec 16)
  | lui (rt : RegIdx) (imm : BitVec 16)
  -- load and store: `op $t, imm($s)`
  | lw (rt : RegIdx) (imm : BitVec 16) (rs : RegIdx)
  | sw (rt : RegIdx) (imm : BitVec 16) (rs : RegIdx)
  -- absolute jumps
  | j (field : BitVec 26)
  | jal (field : BitVec 26)
  deriving DecidableEq, Repr

/-- The three encoding shapes (R82). -/
inductive Format where
  | primary
  | immediate
  | jump
  deriving DecidableEq, Repr

/-- The labels of the two classification tables (R83, R84). -/
inductive Mnemonic where
  | sll | srl | sra | sllv | srlv | srav | jr | jalr | syscall | mfhi | mflo | mult | multu | div | divu
  | add | addu | sub | subu | and | or | xor | nor | slt | sltu
  | bltz | beq | bne | addi | addiu | slti | sltiu | andi | ori | xori | lui | lw | sw
  | j | jal
  deriving DecidableEq, Repr

/-- The format of a mnemonic: `j` and `jal` are jump format, the others of the opcode table immediate format, those of the
function-code table primary format (R82). -/
def Mnemonic.format : Mnemonic → Format
  | .sll | .srl | .sra | .sllv | .srlv | .srav | .jr | .jalr | .syscall | .mfhi | .mflo | .mult | .multu
  | .div | .divu | .add | .addu | .sub | .subu | .and | .or | .xor | .nor | .slt | .sltu => .primary
  | .bltz | .beq | .bne | .addi | .addiu | .slti | .sltiu | .andi | .ori | .xori | .lui | .lw | .sw => .immediate
  | .j | .jal => .jump

/-- The mnemonic of an instruction. -/
def Instr.mnemonic : Instr → Mnemonic
  | .sll .. => .sll | .srl .. => .srl | .sra .. => .sra
  | .sllv .. => .sllv | .srlv .. => .srlv | .srav .. => .srav
  | .jr .. => .jr | .jalr .. => .jalr | .syscall => .syscall
  | .mfhi .. => .mfhi | .mflo .. => .mflo
  | .mult .. => .mult | .multu .. => .multu | .div .. => .div | .divu .. => .divu
  | .add .. => .add | .addu .. => .addu | .sub .. => .sub | .subu .. => .subu
  | .and .. => .and | .or .. => .or | .xor .. => .xor | .nor .. => .nor
  | .slt .. => .slt | .sltu .. => .sltu
  | .bltz .. => .bltz | .beq .. => .beq | .bne .. => .bne
  | .addi .. => .addi | .addiu .. => .addiu | .slti .. => .slti | .sltiu .. => .sltiu
  | .andi .. => .andi | .ori .. => .ori | .xori .. => .xori | .lui .. => .lui
  | .lw .. => .lw | .sw .. => .sw | .j .. => .j | .jal .. => .jal

/-- The format of an instruction (R82). -/
def Instr.format (i : Instr) : Format := i.mnemonic.format

end Sys2Proof
end

