-- ==== Sys2Proof/Machine/State.lean ====
section
/-!
DEFINITION. The state of the machine (10_state.md R20 to R34) as plain data, its fatal errors, and the state after reset (R33).
-/

namespace Sys2Proof.Machine

/-! ## Stages -/

/-- The five stages in their fixed order (40_pipeline_orchestrator.md R110). -/
inductive Stage where
  | fetch
  | decode
  | execute
  | memoryAccess
  | writeBack
  deriving DecidableEq, Repr

/-- The index of a stage, 0 to 4 (R110). -/
def Stage.index : Stage → Nat
  | .fetch => 0
  | .decode => 1
  | .execute => 2
  | .memoryAccess => 3
  | .writeBack => 4

/-- The model's own: the stages in which an instruction is known and acts (R117 to R120); `exec` is asked for the part of an
instruction that belongs to one of them (entry 1). -/
inductive Phase where
  | decode
  | execute
  | memoryAccess
  | writeBack
  deriving DecidableEq, Repr

/-- One value for each stage. -/
structure PerStage (α : Type) where
  fetch : α
  decode : α
  execute : α
  memoryAccess : α
  writeBack : α
  deriving DecidableEq, Repr

/-! ## Faults and refusals -/

/-- The fatal error kinds and what each records (60_exceptions.md R221), but for the detecting stage, which `FatalError` adds.
A meaning or a stage that meets one answers `fault`: it is the `raise` of R6. The orchestrator turns it into a next state with
`error` and `halted` set (R129, R227), so `step` itself never ends in a fault. -/
inductive Fault where
  /-- Raised by fetch, by `lw` and by `sw` for an address at or above the unit's size (R51, R222). It records the offending
  address, or the slot number for a sparse memory (R53). Safe: the spec's own error. -/
  | outOfRange (address : Nat)
  /-- Raised by decode for a word in no classification table (R87, R223). Safe: the spec's own error. -/
  | unknownEncoding (addr instr : Word)
  /-- Raised by a meaning whose latch holds operands of another format (R118, R224). No run reaches it. Safe. -/
  | unimplementedOperation (addr instr : Word)
  /-- Raised by `accept` on a busy stage (R115, R225). No step reaches it. Safe. -/
  | stageContractViolation (stage : Stage)
  /-- Raised by `div` and `divu` in execute where the source defines no quotient (R226 (a), (b)); records both operands.
  Safe: the spec's own treatment, D17. -/
  | undefinedArithmetic (addr a b : Word)
  /-- Raised by no one: R226 (c) and D15 let a model draw the initial accumulator freely instead, and this one does (entry 7). The
  kind stands here because the table of R221 lists it. Safe. -/
  | unspecifiedValue (addr : Word)
  deriving DecidableEq, Repr

/-- A fatal error as `error` records it: its kind with its information, and the stage that detected it (R31, R221). -/
structure FatalError where
  kind : Fault
  stage : Stage
  deriving DecidableEq, Repr

/-- Refusals. No meaning of this model refuses. -/
inductive Refusal where
  /-- Answered by an arm of `exec` whose instruction has no meaning yet; no arm does. Safe. -/
  | notModelled (mnemonic : String)
  deriving DecidableEq, Repr

/-! ## Latches (R29) -/

/-- The ordered list of register values decode loads, by format: three, two or none (R117). -/
inductive Vals where
  | primary (rs rt rd : Word)
  | immediate (rs rt : Word)
  | jump
  deriving DecidableEq, Repr

/-- The loaded values in their order (R117). -/
def Vals.toList : Vals → List Word
  | .primary rs rt rd => [rs, rt, rd]
  | .immediate rs rt => [rs, rt]
  | .jump => []

/-- The format whose shape the loaded values have. -/
def Vals.format : Vals → Format
  | .primary .. => .primary
  | .immediate .. => .immediate
  | .jump => .jump

/-- `in[0]`, the fetch input: an address, the pc snapshot (R29). -/
structure FetchIn where
  addr : Word
  deriving DecidableEq, Repr

/-- `in[1]`, the decode input: fetch's output (R29). -/
structure DecodeIn extends FetchIn where
  instr : Word
  deriving DecidableEq, Repr

/-- `in[2]`, the execute input: decode's output, with the classification and the loaded values (R29). -/
structure ExecuteIn extends DecodeIn where
  insn : Instr
  vals : Vals
  deriving DecidableEq, Repr

/-- `in[3]`, the memory-access input: execute's output, with the result and, meaningful for `jalr` only, the link (R29). -/
structure MemoryIn extends ExecuteIn where
  result : DWord
  link : Word
  deriving DecidableEq, Repr

/-- `in[4]`, the write-back input: memory-access's output, with the loaded word, meaningful for `lw` only (R29). -/
structure WriteBackIn extends MemoryIn where
  loaded : Word
  deriving DecidableEq, Repr

/-- Write-back's output: the address and the termination flag (R29). -/
structure WriteBackOut where
  addr : Word
  quit : Bool
  deriving DecidableEq, Repr

/-- The five latched inputs; `none` is a bubble, which has no address (R29, D16). -/
structure Latches where
  fetch : Option FetchIn
  decode : Option DecodeIn
  execute : Option ExecuteIn
  memoryAccess : Option MemoryIn
  writeBack : Option WriteBackIn
  deriving DecidableEq, Repr

/-- All five latches hold bubbles. -/
def Latches.empty : Latches := ⟨none, none, none, none, none⟩

/-- The model's own: what each stage has produced in this cycle and the next has not yet accepted, the pc snapshot for fetch
among them. These are the `carry` and `out` of R124; `none` is a bubble. All are `none` between two cycles (entry 10). -/
structure Outputs where
  snapshot : Option FetchIn
  fetched : Option DecodeIn
  decoded : Option ExecuteIn
  executed : Option MemoryIn
  accessed : Option WriteBackIn
  retired : Option WriteBackOut
  deriving DecidableEq, Repr

/-- Nothing has been produced. -/
def Outputs.empty : Outputs := ⟨none, none, none, none, none, none⟩

/-! ## Memory and the state -/

/-- One word of a memory unit at an address: a memory unit is word-addressed and no smaller unit exists (20_memory.md R50, R57,
D22; entry 4). -/
abbrev Cell := Nat × Word

/-- The content of a memory unit: the words that differ from what an unlisted address reads as, by rising address. -/
abbrev Memory := List Cell

/-- The state of the core (R20). -/
structure State where
  /-- The configuration the core was constructed with; no step changes it (R5). -/
  cfg : Config
  /-- `x[0..31]` (R21). -/
  regs : Vector Word 32
  /-- The program counter, a word address (R24). -/
  pc : Word
  /-- The accumulator (R25). -/
  acc : DWord
  /-- The model's own: a multiply or divide has committed since reset (R226 (c)). -/
  accWritten : Bool
  /-- Main memory `M`, or the flat unit a sparse main memory wraps, by slot (R28, R53). -/
  mem : Memory
  /-- The sparse map: entry k is the address mapped to slot k, and the next slot is the length (R20, R53). Empty when flat. -/
  slots : List Word
  /-- `in[0..4]` (R29). -/
  latches : Latches
  /-- `lat[0..4]` (R30). -/
  lat : PerStage Nat
  /-- The run has ended (R31). -/
  halted : Bool
  /-- The fatal error that ended the run (R31). -/
  error : Option FatalError
  /-- The number of cycles begun (R32). -/
  cycle : Nat
  /-- The model's own: the stage whose part of an instruction `exec` is asked for. -/
  phase : Phase
  /-- The model's own: stage outputs on their way inside a cycle. -/
  outs : Outputs
  deriving DecidableEq, Repr

/-- The latency counters after construction: fetch "starts idle", the others are "created with an initial one-cycle bubble"
(R33, R250). -/
def latAfterReset : PerStage Nat := ⟨0, 1, 1, 1, 1⟩

/-- The core constructed with a configuration, before the host's set-up (R33, R250). The accumulator field holds 0, which
nothing reads: until a producer commits, a retrieval sees the free value (entry 7). -/
def State.construct (c : Config) : State where
  cfg := c
  regs := Vector.replicate 32 0
  pc := Config.pcReset
  acc := 0
  accWritten := false
  mem := []
  slots := []
  latches := .empty
  lat := latAfterReset
  halted := false
  error := none
  cycle := 0
  phase := .decode
  outs := .empty

/-- The machine right after reset, under the default configuration, with nothing supplied by the host (R33). -/
def State.reset : State := State.construct Config.default

end Sys2Proof.Machine
end

