-- ==== Sys2Proof/Machine/Ops.lean ====
section
/-!
DEFINITION. The named operations over memory, registers, pc, accumulator, latches and latency counters, and taking a fatal
error. A return from an exception does not exist in this machine (60_exceptions.md R231), so none stands beside it.
-/

namespace Sys2Proof.Machine

/-- The outcome of a meaning, of a stage and of a step. -/
abbrev Result := Host.Outcome State Fault Refusal

/-- Go on with the next state; a fault or a refusal stops. -/
def andThen (r : Result) (k : State → Result) : Result :=
  match r with
  | .next s => k s
  | .fault f => .fault f
  | .refused x => .refused x

/-! ## A memory unit (20_memory.md R50 to R53) -/

/-- What an address that is not listed reads as: a flat unit is "zero-initialized at construction" (R52). -/
def Memory.unlisted : Word := 0

/-- The word at an address (R50). -/
def Memory.read (m : Memory) (a : Nat) : Word :=
  match m with
  | [] => Memory.unlisted
  | (k, v) :: rest => if k = a then v else Memory.read rest a

/-- Put a cell in front, unless it holds what an unlisted address reads as. -/
def Memory.consCell (a : Nat) (v : Word) (rest : Memory) : Memory :=
  if v = Memory.unlisted then rest else (a, v) :: rest

/-- Replace the word at an address (R50), keeping the canonical form. -/
def Memory.write (m : Memory) (a : Nat) (v : Word) : Memory :=
  match m with
  | [] => Memory.consCell a v []
  | (k, w) :: rest =>
    if a < k then Memory.consCell a v ((k, w) :: rest)
    else if a = k then Memory.consCell a v rest
    else (k, w) :: Memory.write rest a v

/-- The canonical form: addresses strictly rising, and no cell equal to what an unlisted address reads as. -/
abbrev Memory.wf (m : Memory) : Prop :=
  m.Pairwise (fun c d => c.1 < d.1) ∧ ∀ c ∈ m, c.2 ≠ Memory.unlisted

/-- Where an address of main memory lies in the unit that holds it: the address itself in a flat memory; in a sparse one the slot
mapped to it, or for an unseen address the next unused slot (R53). -/
def State.slotOf (s : State) (a : Word) : Nat :=
  match s.cfg.memKind with
  | .flat => a.toNat
  | .sparse _ => s.slots.idxOf a

/-- The size the unit compares with: MEM_SIZE, or that of the unit a sparse memory wraps (R51, R53). -/
def State.unitSize (s : State) : Nat :=
  match s.cfg.memKind with
  | .flat => s.cfg.memSize
  | .sparse n => n

/-- An access to this address is in range: `address < size`, unsigned (R51). -/
def State.inRange (s : State) (a : Word) : Bool := decide (s.slotOf a < s.unitSize)

/-- The mapping a sparse memory creates on an access, a load as well as a store, to an unseen address (R53). -/
def State.touch (s : State) (a : Word) : State :=
  match s.cfg.memKind with
  | .flat => s
  | .sparse _ => if a ∈ s.slots then s else { s with slots := s.slots ++ [a] }

/-- The word main memory holds at an address; an address of a sparse memory that was never touched holds what the next slot of the
fresh unit holds (R50, R52, R53). It says nothing about whether the address is in range. -/
def State.wordAt (s : State) (a : Word) : Word := s.mem.read (s.slotOf a)

/-- `MemRead(addr)`: the word at a word address, or OutOfRange with the address or slot (R6, R51). A mapping that the wrapped unit
then refuses is not kept: the error is fatal, so this cannot be observed (R53). -/
def State.memRead (s : State) (a : Word) : Except Fault (State × Word) :=
  if s.inRange a then .ok (s.touch a, s.wordAt a) else .error (.outOfRange (s.slotOf a))

/-- The state after a word of main memory is replaced (R50). -/
def State.putWord (s : State) (a : Word) (v : Word) : State :=
  { s.touch a with mem := s.mem.write (s.slotOf a) v }

/-- `MemWrite(addr, v)`: replace the word at a word address, or OutOfRange (R6, R51). -/
def State.memWrite (s : State) (a : Word) (v : Word) : Except Fault State :=
  if s.inRange a then .ok (s.putWord a v) else .error (.outOfRange (s.slotOf a))

/-- Store a run of words, the first at address `addr`, the next at `addr + 1` and so on, each as by `store`. -/
def State.storeRun (s : State) (addr : Nat) : List Word → State × Option Fault
  | [] => (s, none)
  | w :: ws =>
    if addr < 2 ^ 32 then
      match s.memWrite (BitVec.ofNat 32 addr) w with
      | .ok t => t.storeRun (addr + 1) ws
      | .error f => (s, some f)
    else (s, some (.outOfRange addr))

/-- `store_block(addr, words)`: word i goes to `addr + i`, as by `store` (R54). It gives the state reached and, where a store
failed, its error; the words stored before stay stored. DEDUCED (entry 36): `addr + i` is the exact sum. Past 2^32 - 1 there is no
address in either variant, so a block that reaches there does not fit and OutOfRange records the sum (R222, R252 (b)). -/
def State.storeBlock (s : State) (addr : Word) (words : List Word) : State × Option Fault := s.storeRun addr.toNat words

/-! ## Registers (10_state.md R21, R22) -/

/-- Read general register `r`; under R0_POLICY = hardwired register 0 always reads 0 (R22). -/
def State.readReg (s : State) (r : RegIdx) : Word :=
  if s.cfg.r0Policy = .hardwired ∧ r = 0 then 0 else s.regs[r.toNat]'r.isLt

/-- The register file after a write; under R0_POLICY = hardwired a write to register 0 has no effect (R22). -/
def regsAfterWrite (c : Config) (regs : Vector Word 32) (r : RegIdx) (v : Word) : Vector Word 32 :=
  if c.r0Policy = .hardwired ∧ r = 0 then regs else regs.set r.toNat v r.isLt

/-- `x[r] <- v` (R22). -/
def State.writeReg (s : State) (r : RegIdx) (v : Word) : State :=
  { s with regs := regsAfterWrite s.cfg s.regs r v }

/-! ## Program counter (40_pipeline_orchestrator.md R121 to R123) -/

/-- `pc.set(addr)` (R121). -/
def State.pcSet (s : State) (a : Word) : State := { s with pc := a }

/-- `pc.increment(n)`, modulo 2^32 (R122). -/
def State.pcIncrement (s : State) (n : Word) : State := { s with pc := s.pc + n }

/-- The low `n` bits of an address replaced by those of `value` (R123). -/
def replaceLowBits (a value : Word) (n : Nat) : Word :=
  let mask : Word := BitVec.ofNat 32 (2 ^ n - 1)
  (a &&& ~~~mask) ||| (value &&& mask)

/-- `pc.set_low_bits(value, n)` (R123). -/
def State.pcSetLowBits (s : State) (value : Word) (n : Nat) : State := { s with pc := replaceLowBits s.pc value n }

/-! ## Accumulator (10_state.md R25) -/

/-- `acc <- v`, by a multiply or a divide (R170). -/
def State.writeAcc (s : State) (v : DWord) : State := { s with acc := v, accWritten := true }

/-- The accumulator as a retrieval sees it. Before a producer has committed it has no specified value (R175): a free draw of all
64 bits (R226 (c), D15, U3; entry 7). -/
def State.readAcc (s : State) : DWord := if s.accWritten then s.acc else Config.accAtReset

/-! ## Latency counters and the stage contract (R30, R110 to R115) -/

def PerStage.get {α : Type} (p : PerStage α) : Stage → α
  | .fetch => p.fetch
  | .decode => p.decode
  | .execute => p.execute
  | .memoryAccess => p.memoryAccess
  | .writeBack => p.writeBack

def PerStage.set {α : Type} (p : PerStage α) (st : Stage) (v : α) : PerStage α :=
  match st with
  | .fetch => { p with fetch := v }
  | .decode => { p with decode := v }
  | .execute => { p with execute := v }
  | .memoryAccess => { p with memoryAccess := v }
  | .writeBack => { p with writeBack := v }

/-- `tick(s, d)` on one counter: subtract, clamped at 0 (R113); natural subtraction is that. -/
def tickCounter (d lat : Nat) : Nat := lat - d

/-- Step 2 of R124: tick every stage. -/
def State.tickAll (s : State) : State :=
  { s with lat :=
      { fetch := tickCounter Config.tickAmount s.lat.fetch
        decode := tickCounter Config.tickAmount s.lat.decode
        execute := tickCounter Config.tickAmount s.lat.execute
        memoryAccess := tickCounter Config.tickAmount s.lat.memoryAccess
        writeBack := tickCounter Config.tickAmount s.lat.writeBack } }

/-- A stage reports busy exactly when its counter is above 0 (R111). -/
def State.busy (s : State) (st : Stage) : Bool := decide (0 < s.lat.get st)

/-- The index of the first stage that advances: one past the stall boundary, the busy stage closest to write-back, or 0 when
no stage is busy (R124 step 3, R125). -/
def State.firstAdvancing (s : State) : Nat :=
  if s.busy .writeBack then 5
  else if s.busy .memoryAccess then 4
  else if s.busy .execute then 3
  else if s.busy .decode then 2
  else if s.busy .fetch then 1
  else 0

/-- Latch what the stage before has produced, and take it off its way: an output is consumed exactly once (R112, R132). -/
def State.latchInput (s : State) (st : Stage) : State :=
  match st with
  | .fetch => { s with
      latches := { s.latches with fetch := s.outs.snapshot }, outs := { s.outs with snapshot := none } }
  | .decode => { s with
      latches := { s.latches with decode := s.outs.fetched }, outs := { s.outs with fetched := none } }
  | .execute => { s with
      latches := { s.latches with execute := s.outs.decoded }, outs := { s.outs with decoded := none } }
  | .memoryAccess => { s with
      latches := { s.latches with memoryAccess := s.outs.executed }, outs := { s.outs with executed := none } }
  | .writeBack => { s with
      latches := { s.latches with writeBack := s.outs.accessed }, outs := { s.outs with accessed := none } }

/-- `accept(s, input)`: latch the input, a bubble like any other, and set the latency; on a busy stage it is the contract
violation (R112, R115). -/
def State.accept (s : State) (st : Stage) : Result :=
  if s.busy st then .fault (.stageContractViolation st)
  else .next { s.latchInput st with lat := s.lat.set st Config.stageLatency }

/-- After `produce` the latch is spent (R114). -/
def State.spend (s : State) (st : Stage) : State :=
  match st with
  | .fetch => { s with latches := { s.latches with fetch := none } }
  | .decode => { s with latches := { s.latches with decode := none } }
  | .execute => { s with latches := { s.latches with execute := none } }
  | .memoryAccess => { s with latches := { s.latches with memoryAccess := none } }
  | .writeBack => { s with latches := { s.latches with writeBack := none } }

/-! ## What a stage emits (R29, R114) -/

def State.emitFetched (s : State) (o : Option DecodeIn) : State := { s with outs := { s.outs with fetched := o } }

def State.emitDecoded (s : State) (o : Option ExecuteIn) : State := { s with outs := { s.outs with decoded := o } }

def State.emitExecuted (s : State) (o : Option MemoryIn) : State := { s with outs := { s.outs with executed := o } }

def State.emitAccessed (s : State) (o : Option WriteBackIn) : State := { s with outs := { s.outs with accessed := o } }

def State.emitRetired (s : State) (o : Option WriteBackOut) : State := { s with outs := { s.outs with retired := o } }

/-- Ask for the part of an instruction that belongs to a stage. -/
def State.inPhase (s : State) (p : Phase) : State := { s with phase := p }

/-! ## Taking a fatal error, and the normal end -/

/-- `raise K(info)`: `error <- (kind, stage, info)` and `halted <- true`; nothing else changes, nothing is saved and the pc is not
redirected (R6, R129, R227). -/
def State.takeFatalError (s : State) (st : Stage) (f : Fault) : State :=
  { s with error := some ⟨f, st⟩, halted := true }

/-- The normal end of a run: `halted <- true` with no error (R128, R229). -/
def State.terminate (s : State) : State := { s with halted := true }

/-- The model's own fields between two cycles. -/
def State.atRest (s : State) : State := { s with phase := .decode, outs := .empty }

end Sys2Proof.Machine
end

