-- ==== Sys2Proof/Machine/Flags.lean ====
section
/-!
DEFINITION. There are no status flags, condition codes or predicate registers (10_state.md R26), so no flag is computed anywhere.
What stands here are the comparisons whose outcome is a number 0 or 1: the set-on-less-than results (R164, R165, R183, R184) and
the boolean-as-integer predicate of a branch, which lives in that branch's own result (R197).
-/

namespace Sys2Proof.Machine

/-- 1 if the condition holds, 0 if not. -/
def boolWord (b : Bool) : Word := if b then 1 else 0

/-- `signed(a) < signed(b)`: both cast to a signed 32-bit view, compared exactly (R164). -/
def lessSigned (a b : Word) : Bool := decide (a.toInt < b.toInt)

/-- `a < b` as unsigned 32-bit numbers (R165). -/
def lessUnsigned (a b : Word) : Bool := decide (a.toNat < b.toNat)

/-- `signed(a) < 0` (R200). -/
def lessThanZero (a : Word) : Bool := decide (a.toInt < 0)

end Sys2Proof.Machine
end

