-- ==== Sys2Proof/Decode.lean ====
section
/-!
DEFINITION. The instruction format classifier and the decoder (30_encoding.md R80 to R91), and after them an encoder written
from the same tables. All numbers of the two tables are the spec's decision D21 (entry 12).
-/

namespace Sys2Proof

/-- `slice(start, stop)`: the bits [start, stop) of a word as an unsigned number, given by its width (R6). -/
def slice (start width : Nat) (w : Word) : BitVec width := w.extractLsb' start width

/-! The fields of an instruction word (R81). -/

/-- slice(26, 32). -/
def opcodeOf (w : Word) : BitVec 6 := slice 26 6 w

/-- slice(21, 26). -/
def rsOf (w : Word) : RegIdx := slice 21 5 w

/-- slice(16, 21). -/
def rtOf (w : Word) : RegIdx := slice 16 5 w

/-- slice(11, 16). -/
def rdOf (w : Word) : RegIdx := slice 11 5 w

/-- slice(6, 11). -/
def shamtOf (w : Word) : BitVec 5 := slice 6 5 w

/-- slice(0, 6). -/
def functOf (w : Word) : BitVec 6 := slice 0 6 w

/-- slice(0, 16). -/
def imm16Of (w : Word) : BitVec 16 := slice 0 16 w

/-- slice(0, 26). -/
def tgt26Of (w : Word) : BitVec 26 := slice 0 26 w

/-- What the opcode table says of an opcode: the primary format, or a mnemonic of its own (R82, R83). -/
inductive OpClass where
  | primary
  | mnemonic (m : Mnemonic)
  deriving DecidableEq, Repr

/-- The opcode table (R83). -/
def opcodeTable : List (BitVec 6 × OpClass) :=
  [(0x00, .primary),
   (0x01, .mnemonic .bltz),
   (0x02, .mnemonic .j),
   (0x03, .mnemonic .jal),
   (0x04, .mnemonic .beq),
   (0x05, .mnemonic .bne),
   (0x08, .mnemonic .addi),
   (0x09, .mnemonic .addiu),
   (0x0A, .mnemonic .slti),
   (0x0B, .mnemonic .sltiu),
   (0x0C, .mnemonic .andi),
   (0x0D, .mnemonic .ori),
   (0x0E, .mnemonic .xori),
   (0x0F, .mnemonic .lui),
   (0x23, .mnemonic .lw),
   (0x2B, .mnemonic .sw)]

/-- The function-code table, for primary-format words only (R84). -/
def functTable : List (BitVec 6 × Mnemonic) :=
  [(0x00, .sll),
   (0x02, .srl),
   (0x03, .sra),
   (0x04, .sllv),
   (0x06, .srlv),
   (0x07, .srav),
   (0x08, .jr),
   (0x09, .jalr),
   (0x0C, .syscall),
   (0x10, .mfhi),
   (0x12, .mflo),
   (0x18, .mult),
   (0x19, .multu),
   (0x1A, .div),
   (0x1B, .divu),
   (0x20, .add),
   (0x21, .addu),
   (0x22, .sub),
   (0x23, .subu),
   (0x24, .and),
   (0x25, .or),
   (0x26, .xor),
   (0x27, .nor),
   (0x2A, .slt),
   (0x2B, .sltu)]

/-- Look a key up in a classification table; `none` where it is absent. -/
def tableLookup {α : Type} (key : BitVec 6) : List (BitVec 6 × α) → Option α
  | [] => none
  | (k, v) :: rest => if k = key then some v else tableLookup key rest

/-- `classify()`: the opcode bits looked up in the opcode table (R82). -/
def classify (w : Word) : Option OpClass := tableLookup (opcodeOf w) opcodeTable

/-- `function_mnemonic()`: the function-code bits looked up in the function-code table (R82). -/
def functionMnemonic (w : Word) : Option Mnemonic := tableLookup (functOf w) functTable

/-- The instruction a classified word is: the operands are the word's fields (R81, R85, R90). -/
def instrOf (m : Mnemonic) (w : Word) : Instr :=
  match m with
  | .sll => .sll (rdOf w) (rtOf w) (shamtOf w)
  | .srl => .srl (rdOf w) (rtOf w) (shamtOf w)
  | .sra => .sra (rdOf w) (rtOf w) (shamtOf w)
  | .sllv => .sllv (rdOf w) (rtOf w) (rsOf w)
  | .srlv => .srlv (rdOf w) (rtOf w) (rsOf w)
  | .srav => .srav (rdOf w) (rtOf w) (rsOf w)
  | .jr => .jr (rsOf w)
  | .jalr => .jalr (rdOf w) (rsOf w)
  | .syscall => .syscall
  | .mfhi => .mfhi (rdOf w)
  | .mflo => .mflo (rdOf w)
  | .mult => .mult (rsOf w) (rtOf w)
  | .multu => .multu (rsOf w) (rtOf w)
  | .div => .div (rsOf w) (rtOf w)
  | .divu => .divu (rsOf w) (rtOf w)
  | .add => .add (rdOf w) (rsOf w) (rtOf w)
  | .addu => .addu (rdOf w) (rsOf w) (rtOf w)
  | .sub => .sub (rdOf w) (rsOf w) (rtOf w)
  | .subu => .subu (rdOf w) (rsOf w) (rtOf w)
  | .and => .and (rdOf w) (rsOf w) (rtOf w)
  | .or => .or (rdOf w) (rsOf w) (rtOf w)
  | .xor => .xor (rdOf w) (rsOf w) (rtOf w)
  | .nor => .nor (rdOf w) (rsOf w) (rtOf w)
  | .slt => .slt (rdOf w) (rsOf w) (rtOf w)
  | .sltu => .sltu (rdOf w) (rsOf w) (rtOf w)
  | .bltz => .bltz (rsOf w) (imm16Of w)
  | .beq => .beq (rsOf w) (rtOf w) (imm16Of w)
  | .bne => .bne (rsOf w) (rtOf w) (imm16Of w)
  | .addi => .addi (rtOf w) (rsOf w) (imm16Of w)
  | .addiu => .addiu (rtOf w) (rsOf w) (imm16Of w)
  | .slti => .slti (rtOf w) (rsOf w) (imm16Of w)
  | .sltiu => .sltiu (rtOf w) (rsOf w) (imm16Of w)
  | .andi => .andi (rtOf w) (rsOf w) (imm16Of w)
  | .ori => .ori (rtOf w) (rsOf w) (imm16Of w)
  | .xori => .xori (rtOf w) (rsOf w) (imm16Of w)
  | .lui => .lui (rtOf w) (imm16Of w)
  | .lw => .lw (rtOf w) (imm16Of w) (rsOf w)
  | .sw => .sw (rtOf w) (imm16Of w) (rsOf w)
  | .j => .j (tgt26Of w)
  | .jal => .jal (tgt26Of w)

/-- Why a word has no meaning: its opcode, or for a primary-format word its function code, is in no table (R87). -/
inductive DecodeError where
  | unknownOpcode (opcode : BitVec 6)
  | unknownFunct (funct : BitVec 6)
  deriving DecidableEq, Repr

/-- The decoder: two table look-ups and nothing else (R82), total on every word (R87). -/
def decode (w : Word) : Except DecodeError Instr :=
  match classify w with
  | none => .error (.unknownOpcode (opcodeOf w))
  | some .primary =>
    match functionMnemonic w with
    | none => .error (.unknownFunct (functOf w))
    | some m => .ok (instrOf m w)
  | some (.mnemonic m) => .ok (instrOf m w)

/-- The instruction the decoder reads from a word whose bits are numbered as spec/opcode_table.json numbers them. An instruction
is one 32-bit word (R80), so the bits above `nbits` are 0 and the word is given to the decoder as it stands: the core has no byte
order (R57). -/
def decodeTableWord (nbits w : Nat) : Option Instr :=
  match decode (BitVec.ofNat 32 (w % 2 ^ nbits)) with
  | .ok i => some i
  | .error _ => none

/-! The encoder: a word is laid out by format (R82); ignored fields are 0 (R90). -/

/-- The primary format: opcode 0, rs, rt, rd, shamt, funct (R82). -/
def primaryWord (rs rt rd : RegIdx) (shamt : BitVec 5) (funct : BitVec 6) : Word :=
  (0 : BitVec 6) ++ rs ++ rt ++ rd ++ shamt ++ funct

/-- The immediate format: opcode, rs, rt, imm16 (R82). -/
def immediateWord (opcode : BitVec 6) (rs rt : RegIdx) (imm : BitVec 16) : Word :=
  opcode ++ rs ++ rt ++ imm

/-- The jump format: opcode, tgt26 (R82). -/
def jumpWord (opcode : BitVec 6) (field : BitVec 26) : Word := opcode ++ field

/-- The canonical word of an instruction (R83, R84, R90). -/
def encode : Instr → Word
  | .sll rd rt sh => primaryWord 0 rt rd sh 0x00
  | .srl rd rt sh => primaryWord 0 rt rd sh 0x02
  | .sra rd rt sh => primaryWord 0 rt rd sh 0x03
  | .sllv rd rt rs => primaryWord rs rt rd 0 0x04
  | .srlv rd rt rs => primaryWord rs rt rd 0 0x06
  | .srav rd rt rs => primaryWord rs rt rd 0 0x07
  | .jr rs => primaryWord rs 0 0 0 0x08
  | .jalr rd rs => primaryWord rs 0 rd 0 0x09
  | .syscall => primaryWord 0 0 0 0 0x0C
  | .mfhi rd => primaryWord 0 0 rd 0 0x10
  | .mflo rd => primaryWord 0 0 rd 0 0x12
  | .mult rs rt => primaryWord rs rt 0 0 0x18
  | .multu rs rt => primaryWord rs rt 0 0 0x19
  | .div rs rt => primaryWord rs rt 0 0 0x1A
  | .divu rs rt => primaryWord rs rt 0 0 0x1B
  | .add rd rs rt => primaryWord rs rt rd 0 0x20
  | .addu rd rs rt => primaryWord rs rt rd 0 0x21
  | .sub rd rs rt => primaryWord rs rt rd 0 0x22
  | .subu rd rs rt => primaryWord rs rt rd 0 0x23
  | .and rd rs rt => primaryWord rs rt rd 0 0x24
  | .or rd rs rt => primaryWord rs rt rd 0 0x25
  | .xor rd rs rt => primaryWord rs rt rd 0 0x26
  | .nor rd rs rt => primaryWord rs rt rd 0 0x27
  | .slt rd rs rt => primaryWord rs rt rd 0 0x2A
  | .sltu rd rs rt => primaryWord rs rt rd 0 0x2B
  | .bltz rs imm => immediateWord 0x01 rs 0 imm
  | .beq rs rt imm => immediateWord 0x04 rs rt imm
  | .bne rs rt imm => immediateWord 0x05 rs rt imm
  | .addi rt rs imm => immediateWord 0x08 rs rt imm
  | .addiu rt rs imm => immediateWord 0x09 rs rt imm
  | .slti rt rs imm => immediateWord 0x0A rs rt imm
  | .sltiu rt rs imm => immediateWord 0x0B rs rt imm
  | .andi rt rs imm => immediateWord 0x0C rs rt imm
  | .ori rt rs imm => immediateWord 0x0D rs rt imm
  | .xori rt rs imm => immediateWord 0x0E rs rt imm
  | .lui rt imm => immediateWord 0x0F 0 rt imm
  | .lw rt imm rs => immediateWord 0x23 rs rt imm
  | .sw rt imm rs => immediateWord 0x2B rs rt imm
  | .j field => jumpWord 0x02 field
  | .jal field => jumpWord 0x03 field

end Sys2Proof
end

