-- ==== Sys2Proof/Machine/Operands.lean ====
section
/-!
DEFINITION. Every operand form: what decode loads by format, how each immediate is assembled (30_encoding.md R85), the effective
address (44_load_store.md R192), the targets and the link (45_control_transfer.md R197, R201, R203), and the destinations.
-/

namespace Sys2Proof.Machine

/-- The operand registers decode loads, by format, from the word's fixed-offset fields: `x[rs], x[rt], x[rd]` for the primary
format, `x[rs], x[rt]` for the immediate format, none for the jump format (R117, R23). -/
def State.loadOperands (s : State) (fmt : Format) (instr : Word) : Vals :=
  match fmt with
  | .primary => .primary (s.readReg (rsOf instr)) (s.readReg (rtOf instr)) (s.readReg (rdOf instr))
  | .immediate => .immediate (s.readReg (rsOf instr)) (s.readReg (rtOf instr))
  | .jump => .jump

/-- `zext_64(v)` (R6). -/
def zext64 (v : Word) : DWord := v.setWidth 64

/-- `v[31:0]` of a 64-bit value (R6). -/
def lowWord (v : DWord) : Word := v.extractLsb' 0 32

/-- `v[63:32]` of a 64-bit value (R6). -/
def highWord (v : DWord) : Word := v.extractLsb' 32 32

/-- `sext_32(imm16)` (R85). -/
def sext32 (imm : BitVec 16) : Word := imm.signExtend 32

/-- `zext_32(imm16)` (R85). -/
def zext32 (imm : BitVec 16) : Word := imm.setWidth 32

/-- `imm16 ++ 0x0000`, the immediate in the high half-word (R85, R188). -/
def upperImmediate (imm : BitVec 16) : Word := imm ++ (0 : BitVec 16)

/-- A variable shift amount, masked to 5 bits: `a[4:0]` (R85). -/
def shiftAmount (a : Word) : BitVec 5 := a.extractLsb' 0 5

/-- The effective address: base plus sign-extended displacement modulo 2^32, in words (R192, D9). -/
def effectiveAddress (base : Word) (imm : BitVec 16) : Word := base + sext32 imm

/-- The value `sw` stores: the loaded value SW_DATA_INDEX picks (R191, D11). -/
def storeData (c : Config) (vRs vRt : Word) : Word :=
  match c.swDataIndex with
  | .index0 => vRs
  | .index1 => vRt

/-- A branch target: the immediate itself as an absolute word address, widened as BRANCH_IMM_EXT says (R197, D8). -/
def branchTarget (c : Config) (imm : BitVec 16) : Word :=
  match c.branchImmExt with
  | .zext => zext32 imm
  | .sext => sext32 imm

/-- `tgt26 << 2`, a 28-bit value in a word (R85, R201). -/
def jumpOffset (field : BitVec 26) : Word := field.setWidth 32 <<< Config.jumpShift

/-- The link address: the pc as it stands when execute runs, plus LINK_OFFSET, modulo 2^32 (R203). -/
def State.linkAddress (s : State) : Word := s.pc + Config.linkOffset

/-- The destination write-back takes for an immediate-format instruction: the slice WB_IMM_DEST_SLICE of the word, which is the
field `rt` or, in another configuration, a part of it (R180, R190, D14). -/
def immDest (c : Config) (rt : RegIdx) : RegIdx :=
  let field : Word := rt.setWidth 32 <<< 16
  let width := c.wbImmDestSlice.stop - c.wbImmDestSlice.start
  (field.extractLsb' c.wbImmDestSlice.start width).setWidth 5

/-- Write the link of `jalr` to the register JALR_LINK_DEST names (R196, D13, U7). -/
def State.writeJalrLink (s : State) (rd : RegIdx) (link : Word) : State :=
  match s.cfg.jalrLinkDest with
  | .rd => s.writeReg rd link
  | .linkReg => s.writeReg s.cfg.linkReg link
  | .none => s

end Sys2Proof.Machine
end

