-- ==== Sys2Proof/Machine/Stages.lean ====
section
/-!
DEFINITION. The parts of an instruction and how one of them runs. Every instruction rule of the spec gives three parts, `EX:`, `MEM:`
and `WB:` (00_scope.md R6), after the register reads decode makes by format (40_pipeline_orchestrator.md R117); the parts happen in
consecutive cycles (R130). A meaning collects them, and `Meaning.run` does the part the state's phase asks for, on the payload in
that stage's latch, leaving the stage's output in `outs` (R114).
-/

namespace Sys2Proof.Machine

/-- What execute computes: the 64-bit result, and the link, meaningful for `jalr` only (R29, R118). -/
structure ExecuteResult where
  result : DWord
  link : Word
  deriving DecidableEq, Repr

/-- A result without a link. DESIGN CHOICE (entry 20): the unused link field holds 0, which nothing reads. -/
def ExecuteResult.plain (r : DWord) : ExecuteResult := ⟨r, 0⟩

/-- The parts of one instruction. -/
structure Meaning where
  /-- The instruction, as decode's classification carries it (R29). -/
  insn : Instr
  /-- `EX:`. It reads the payload and the state (the pc, for the link) and writes no architectural state (R118). -/
  ex : ExecuteIn → State → Except Fault ExecuteResult
  /-- `MEM:`. The access, and the loaded word (R119). -/
  mem : MemoryIn → State → Except Fault (State × Word)
  /-- `WB:`. The commit (R120). -/
  wb : WriteBackIn → State → Except Fault State
  /-- The termination flag of write-back's output, true for `syscall` alone (R120 (g)). -/
  quit : Bool

/-- `MEM:` nothing: passthrough; the loaded word is not meaningful and set to 0 (R119). -/
def memNothing (_ : MemoryIn) (s : State) : Except Fault (State × Word) := .ok (s, 0)

/-- The decode part: load the operand registers by format and pass them on with the classification (R117 steps 3 and 4). -/
def Meaning.runDecode (m : Meaning) (s : State) : Result :=
  match s.latches.decode with
  | none => .next (s.emitDecoded none)
  | some d => .next (s.emitDecoded (some { toDecodeIn := d, insn := m.insn, vals := s.loadOperands m.insn.format d.instr }))

/-- The execute part (R118). -/
def Meaning.runExecute (m : Meaning) (s : State) : Result :=
  match s.latches.execute with
  | none => .next (s.emitExecuted none)
  | some e =>
    match m.ex e s with
    | .error f => .fault f
    | .ok r => .next (s.emitExecuted (some { toExecuteIn := e, result := r.result, link := r.link }))

/-- The memory-access part (R119). -/
def Meaning.runMemoryAccess (m : Meaning) (s : State) : Result :=
  match s.latches.memoryAccess with
  | none => .next (s.emitAccessed none)
  | some p =>
    match m.mem p s with
    | .error f => .fault f
    | .ok (t, loaded) => .next (t.emitAccessed (some { toMemoryIn := p, loaded := loaded }))

/-- The write-back part (R120). -/
def Meaning.runWriteBack (m : Meaning) (s : State) : Result :=
  match s.latches.writeBack with
  | none => .next (s.emitRetired none)
  | some w =>
    match m.wb w s with
    | .error f => .fault f
    | .ok t => .next (t.emitRetired (some { addr := w.addr, quit := m.quit }))

/-- Do the part of the instruction that the state's phase asks for. A stage whose latch holds a bubble does nothing and emits a
bubble (R114). -/
def Meaning.run (m : Meaning) (s : State) : Result :=
  match s.phase with
  | .decode => m.runDecode s
  | .execute => m.runExecute s
  | .memoryAccess => m.runMemoryAccess s
  | .writeBack => m.runWriteBack s

/-- A pair of format and mnemonic with no defined case: the payload's loaded values are of another format than the instruction
needs (R118, R224). No run reaches it (R224, D27). -/
def noCase {α : Type} (e : ExecuteIn) : Except Fault α := .error (.unimplementedOperation e.addr e.instr)

/-- `EX:` from the two first loaded values of a primary-format instruction, `x[rs]` and `x[rt]` (R166, R170). -/
def exPrimary (f : Word → Word → Except Fault DWord) (e : ExecuteIn) : Except Fault ExecuteResult :=
  match e.vals with
  | .primary a b _ =>
    match f a b with
    | .ok r => .ok (.plain r)
    | .error x => .error x
  | _ => noCase e

/-- `EX:` from the two loaded values of an immediate-format instruction, `x[rs]` and `x[rt]` (R180, R197). -/
def exImmediate (f : Word → Word → DWord) (e : ExecuteIn) : Except Fault ExecuteResult :=
  match e.vals with
  | .immediate a b => .ok (.plain (f a b))
  | _ => noCase e

/-- `EX: result <- 0`, for the operations whose result nothing reads (R170, R202, R210, D23). -/
def exZero (_ : ExecuteIn) (_ : State) : Except Fault ExecuteResult := .ok (.plain 0)

/-- `WB:` nothing. -/
def wbNothing (_ : WriteBackIn) (s : State) : Except Fault State := .ok s

/-- `WB: x[dest] <- result[31:0]` (R120 (a)). -/
def wbResult (dest : RegIdx) (w : WriteBackIn) (s : State) : Except Fault State :=
  .ok (s.writeReg dest (lowWord w.result))

/-- `WB: x[dest] <- result[31:0]` for an immediate-format instruction, whose destination is the configured slice (R180). -/
def wbImmResult (rt : RegIdx) (w : WriteBackIn) (s : State) : Except Fault State :=
  .ok (s.writeReg (immDest s.cfg rt) (lowWord w.result))

end Sys2Proof.Machine
end

