-- ==== Sys2Proof/Machine/AluImmediate.lean ====
section
/-!
DEFINITION. Arithmetic and logic with an immediate (43_alu_immediate.md R180 to R188). Each: `EX:` a 32-bit value of `a = x[rs]` and the
immediate, zero-extended to 64 bits; `MEM:` nothing; `WB:` `x[rt] <- result[31:0]`. No flags exist and none traps on overflow (R180).
-/

namespace Sys2Proof.Machine

/-- The meaning common to the family (R180): `r = f a`. -/
def aluImmediate (insn : Instr) (rt : RegIdx) (f : Word → Word) : Meaning where
  insn := insn
  ex := fun e _ => exImmediate (fun a _ => zext64 (f a)) e
  mem := memNothing
  wb := wbImmResult rt
  quit := false

/-- `addi $t, $s, imm`: `r = (a + sext_32(imm16)) mod 2^32`; no trap on overflow (R181). -/
def execAddi (rt rs : RegIdx) (imm : BitVec 16) (s : State) : Result :=
  (aluImmediate (.addi rt rs imm) rt fun a => a + sext32 imm).run s

/-- `addiu $t, $s, imm`: `r = (a + sext_32(imm16)) mod 2^32` (R182). -/
def execAddiu (rt rs : RegIdx) (imm : BitVec 16) (s : State) : Result :=
  (aluImmediate (.addiu rt rs imm) rt fun a => a + sext32 imm).run s

/-- `slti $t, $s, imm`: 1 if `signed(a) < signed(sext_32(imm16))` else 0 (R183). -/
def execSlti (rt rs : RegIdx) (imm : BitVec 16) (s : State) : Result :=
  (aluImmediate (.slti rt rs imm) rt fun a => boolWord (lessSigned a (sext32 imm))).run s

/-- `sltiu $t, $s, imm`: 1 if `a < sext_32(imm16)` unsigned else 0 (R184). -/
def execSltiu (rt rs : RegIdx) (imm : BitVec 16) (s : State) : Result :=
  (aluImmediate (.sltiu rt rs imm) rt fun a => boolWord (lessUnsigned a (sext32 imm))).run s

/-- `andi $t, $s, imm`: `r = a AND zext_32(imm16)` (R185). -/
def execAndi (rt rs : RegIdx) (imm : BitVec 16) (s : State) : Result :=
  (aluImmediate (.andi rt rs imm) rt fun a => a &&& zext32 imm).run s

/-- `ori $t, $s, imm`: `r = a OR zext_32(imm16)` (R186). -/
def execOri (rt rs : RegIdx) (imm : BitVec 16) (s : State) : Result :=
  (aluImmediate (.ori rt rs imm) rt fun a => a ||| zext32 imm).run s

/-- `xori $t, $s, imm`: `r = a XOR zext_32(imm16)` (R187). -/
def execXori (rt rs : RegIdx) (imm : BitVec 16) (s : State) : Result :=
  (aluImmediate (.xori rt rs imm) rt fun a => a ^^^ zext32 imm).run s

/-- `lui $t, imm`: `r = imm16 ++ 0x0000`; the old `x[rt]` and `x[rs]` play no part (R188). -/
def execLui (rt : RegIdx) (imm : BitVec 16) (s : State) : Result :=
  (aluImmediate (.lui rt imm) rt fun _ => upperImmediate imm).run s

end Sys2Proof.Machine
end

