-- ==== Sys2Proof/Machine/AluRegister.lean ====
section
/-!
DEFINITION. Register-register arithmetic, logic, shifts and comparisons (41_alu_register.md R150 to R166). Each: `EX:` a 32-bit value of
`a = x[rs]` and `b = x[rt]` as read in decode, zero-extended to 64 bits; `MEM:` nothing; `WB:` `x[rd] <- result[31:0]`. No flags exist
and none traps on overflow (R166).
-/

namespace Sys2Proof.Machine

/-- The meaning common to the family (R166): `r = f a b`. -/
def aluRegister (insn : Instr) (rd : RegIdx) (f : Word → Word → Word) : Meaning where
  insn := insn
  ex := fun e _ => exPrimary (fun a b => .ok (zext64 (f a b))) e
  mem := memNothing
  wb := wbResult rd
  quit := false

/-- `add $d, $s, $t`: `r = (a + b) mod 2^32`; no trap on signed overflow (R150). -/
def execAdd (rd rs rt : RegIdx) (s : State) : Result :=
  (aluRegister (.add rd rs rt) rd fun a b => a + b).run s

/-- `addu $d, $s, $t`: `r = (a + b) mod 2^32` (R151). -/
def execAddu (rd rs rt : RegIdx) (s : State) : Result :=
  (aluRegister (.addu rd rs rt) rd fun a b => a + b).run s

/-- `sub $d, $s, $t`: `r = (a - b) mod 2^32`; no trap on signed overflow (R152). -/
def execSub (rd rs rt : RegIdx) (s : State) : Result :=
  (aluRegister (.sub rd rs rt) rd fun a b => a - b).run s

/-- `subu $d, $s, $t`: `r = (a - b) mod 2^32` (R153). -/
def execSubu (rd rs rt : RegIdx) (s : State) : Result :=
  (aluRegister (.subu rd rs rt) rd fun a b => a - b).run s

/-- `and $d, $s, $t`: `r = a AND b`, bit by bit (R154). -/
def execAnd (rd rs rt : RegIdx) (s : State) : Result :=
  (aluRegister (.and rd rs rt) rd fun a b => a &&& b).run s

/-- `or $d, $s, $t`: `r = a OR b` (R155). -/
def execOr (rd rs rt : RegIdx) (s : State) : Result :=
  (aluRegister (.or rd rs rt) rd fun a b => a ||| b).run s

/-- `xor $d, $s, $t`: `r = a XOR b` (R156). -/
def execXor (rd rs rt : RegIdx) (s : State) : Result :=
  (aluRegister (.xor rd rs rt) rd fun a b => a ^^^ b).run s

/-- `nor $d, $s, $t`: `r = NOT (a OR b)` on 32 bits (R157). -/
def execNor (rd rs rt : RegIdx) (s : State) : Result :=
  (aluRegister (.nor rd rs rt) rd fun a b => ~~~(a ||| b)).run s

/-- `slt $d, $s, $t`: 1 if `signed(a) < signed(b)` else 0 (R164). -/
def execSlt (rd rs rt : RegIdx) (s : State) : Result :=
  (aluRegister (.slt rd rs rt) rd fun a b => boolWord (lessSigned a b)).run s

/-- `sltu $d, $s, $t`: 1 if `a < b` unsigned else 0 (R165). -/
def execSltu (rd rs rt : RegIdx) (s : State) : Result :=
  (aluRegister (.sltu rd rs rt) rd fun a b => boolWord (lessUnsigned a b)).run s

/-- `sll $d, $t, sh`: `r = (b << shamt) mod 2^32`, zeros entering at bit 0 (R158). -/
def execSll (rd rt : RegIdx) (shamt : BitVec 5) (s : State) : Result :=
  (aluRegister (.sll rd rt shamt) rd fun _ b => b <<< shamt.toNat).run s

/-- `srl $d, $t, sh`: `r = b >>u shamt`, zeros entering at bit 31 (R159). -/
def execSrl (rd rt : RegIdx) (shamt : BitVec 5) (s : State) : Result :=
  (aluRegister (.srl rd rt shamt) rd fun _ b => b >>> shamt.toNat).run s

/-- `sra $d, $t, sh`: `r = b >>s shamt`, copies of bit 31 entering (R160). -/
def execSra (rd rt : RegIdx) (shamt : BitVec 5) (s : State) : Result :=
  (aluRegister (.sra rd rt shamt) rd fun _ b => b.sshiftRight shamt.toNat).run s

/-- `sllv $d, $t, $s`: `r = (b << a[4:0]) mod 2^32` (R161). -/
def execSllv (rd rt rs : RegIdx) (s : State) : Result :=
  (aluRegister (.sllv rd rt rs) rd fun a b => b <<< (shiftAmount a).toNat).run s

/-- `srlv $d, $t, $s`: `r = b >>u a[4:0]` (R162). -/
def execSrlv (rd rt rs : RegIdx) (s : State) : Result :=
  (aluRegister (.srlv rd rt rs) rd fun a b => b >>> (shiftAmount a).toNat).run s

/-- `srav $d, $t, $s`: `r = b >>s a[4:0]` (R163). -/
def execSrav (rd rt rs : RegIdx) (s : State) : Result :=
  (aluRegister (.srav rd rt rs) rd fun a b => b.sshiftRight (shiftAmount a).toNat).run s

end Sys2Proof.Machine
end

