-- ==== Sys2Proof/Machine/Control.lean ====
section
/-!
DEFINITION. Control transfer (45_control_transfer.md R195 to R204). The pc is changed in write-back only, five places after the transfer, and
nothing is ever squashed, so the five delay slots follow from the cycle alone (R258). No target is checked at the transfer.
-/

namespace Sys2Proof.Machine

/-- `EX: result <- zext_64(x[rs])`, the pass-through of the indirect jumps (R195, R196). -/
def exSource (e : ExecuteIn) : Except Fault ExecuteResult := exPrimary (fun a _ => .ok (zext64 a)) e

/-- An indirect jump: `pc.set(result[31:0])` in write-back (R195). -/
def jumpRegister (rs : RegIdx) : Meaning where
  insn := .jr rs
  ex := fun e _ => exSource e
  mem := memNothing
  wb := fun w s => .ok (s.pcSet (lowWord w.result))
  quit := false

/-- The linking indirect jump: beside the target it carries the link and writes it in write-back (R196, C11). -/
def jumpLinkRegister (rd rs : RegIdx) : Meaning where
  insn := .jalr rd rs
  ex := fun e s =>
    match exSource e with
    | .error f => .error f
    | .ok r => .ok { r with link := s.linkAddress }
  mem := memNothing
  wb := fun w s => .ok ((s.pcSet (lowWord w.result)).writeJalrLink rd w.link)
  quit := false

/-- A conditional branch: `EX:` the predicate on the two loaded values; `WB:` `if result != 0 then pc.set(target)` (R197). -/
def branch (insn : Instr) (imm : BitVec 16) (cond : Word → Word → Bool) : Meaning where
  insn := insn
  ex := fun e _ => exImmediate (fun a b => zext64 (boolWord (cond a b))) e
  mem := memNothing
  wb := fun w s => .ok (if w.result ≠ 0 then s.pcSet (branchTarget s.cfg imm) else s)
  quit := false

/-- The target of an absolute jump: `pc.set_low_bits(tgt26 << 2, 28)` on the pc as it stands when write-back runs (R201). -/
def State.jumpAbsolute (s : State) (field : BitVec 26) : State :=
  s.pcSetLowBits (jumpOffset field) Config.jumpBits

/-- An absolute jump: `EX: result <- 0` (R202). -/
def jump (field : BitVec 26) : Meaning where
  insn := .j field
  ex := exZero
  mem := memNothing
  wb := fun _ s => .ok (s.jumpAbsolute field)
  quit := false

/-- The linking absolute jump: the result is the link, written to the link register in write-back (R204). -/
def jumpLink (field : BitVec 26) : Meaning where
  insn := .jal field
  ex := fun _ s => .ok (.plain (zext64 s.linkAddress))
  mem := memNothing
  wb := fun w s => .ok ((s.jumpAbsolute field).writeReg s.cfg.linkReg (lowWord w.result))
  quit := false

/-- `jr $s` (R195). -/
def execJr (rs : RegIdx) (s : State) : Result := (jumpRegister rs).run s

/-- `jalr $d, $s` (R196). -/
def execJalr (rd rs : RegIdx) (s : State) : Result := (jumpLinkRegister rd rs).run s

/-- `beq $s, $t, addr`: taken when `x[rs] == x[rt]` (R198). -/
def execBeq (rs rt : RegIdx) (imm : BitVec 16) (s : State) : Result :=
  (branch (.beq rs rt imm) imm fun a b => decide (a = b)).run s

/-- `bne $s, $t, addr`: taken when `x[rs] != x[rt]` (R199). -/
def execBne (rs rt : RegIdx) (imm : BitVec 16) (s : State) : Result :=
  (branch (.bne rs rt imm) imm fun a b => decide (a ≠ b)).run s

/-- `bltz $s, addr`: taken when `signed(x[rs]) < 0` (R200). -/
def execBltz (rs : RegIdx) (imm : BitVec 16) (s : State) : Result :=
  (branch (.bltz rs imm) imm fun a _ => lessThanZero a).run s

/-- `j field` (R202). -/
def execJ (field : BitVec 26) (s : State) : Result := (jump field).run s

/-- `jal field` (R204). -/
def execJal (field : BitVec 26) (s : State) : Result := (jumpLink field).run s

end Sys2Proof.Machine
end

