-- ==== Sys2Proof/Machine/LoadStore.lean ====
section
/-!
DEFINITION. Loads and stores (44_load_store.md R190 to R192): the only instructions that reach main memory as data. The effective address is
computed in execute, the access made in memory-access, one cycle later.
-/

namespace Sys2Proof.Machine

/-- `EX: result <- zext_64(ea)` (R192). -/
def exEffectiveAddress (imm : BitVec 16) (e : ExecuteIn) (_ : State) : Except Fault ExecuteResult :=
  exImmediate (fun base _ => zext64 (effectiveAddress base imm)) e

/-- `MEM: loaded <- MemRead(ea)` (R119, R190). -/
def memLoad (p : MemoryIn) (s : State) : Except Fault (State × Word) := s.memRead (lowWord p.result)

/-- `MEM: MemWrite(ea, vals[SW_DATA_INDEX])` (R119, R191). -/
def memStore (p : MemoryIn) (s : State) : Except Fault (State × Word) :=
  match p.vals with
  | .immediate a b =>
    match s.memWrite (lowWord p.result) (storeData s.cfg a b) with
    | .ok t => .ok (t, 0)
    | .error f => .error f
  | _ => noCase p.toExecuteIn

/-- `lw $t, imm($s)`: `WB: x[rt] <- loaded` (R190). -/
def loadWord (rt : RegIdx) (imm : BitVec 16) (rs : RegIdx) : Meaning where
  insn := .lw rt imm rs
  ex := exEffectiveAddress imm
  mem := memLoad
  wb := fun w s => .ok (s.writeReg (immDest s.cfg rt) w.loaded)
  quit := false

/-- `sw $t, imm($s)`: `WB:` nothing (R191). -/
def storeWord (rt : RegIdx) (imm : BitVec 16) (rs : RegIdx) : Meaning where
  insn := .sw rt imm rs
  ex := exEffectiveAddress imm
  mem := memStore
  wb := wbNothing
  quit := false

/-- `lw $t, imm($s)`; OutOfRange(ea) in memory-access (R190). -/
def execLw (rt : RegIdx) (imm : BitVec 16) (rs : RegIdx) (s : State) : Result := (loadWord rt imm rs).run s

/-- `sw $t, imm($s)`; OutOfRange(ea) in memory-access (R191). -/
def execSw (rt : RegIdx) (imm : BitVec 16) (rs : RegIdx) (s : State) : Result := (storeWord rt imm rs).run s

end Sys2Proof.Machine
end

