-- ==== Sys2Proof/Machine/MulDiv.lean ====
section
/-!
DEFINITION. Multiply, divide and the accumulator (42_muldiv_accumulator.md R170 to R176). A producer computes all 64 bits in execute and
commits them to `acc` in write-back; a retrieval reads `acc` in its own write-back, so no distance is needed between them (R170, R257).
-/

namespace Sys2Proof.Machine

/-- A producer (R170): `acc <- result` in write-back, no general register written. -/
def accProducer (insn : Instr) (f : ExecuteIn → Word → Word → Except Fault DWord) : Meaning where
  insn := insn
  ex := fun e _ => exPrimary (f e) e
  mem := memNothing
  wb := fun w s => .ok (s.writeAcc w.result)
  quit := false

/-- A retrieval (R170): one half of `acc`, as it stands in this write-back, into `x[rd]`. -/
def accRetrieval (insn : Instr) (rd : RegIdx) (half : DWord → Word) : Meaning where
  insn := insn
  ex := exZero
  mem := memNothing
  wb := fun _ s => .ok (s.writeReg rd (half s.readAcc))
  quit := false

/-- The full 64-bit signed product (R171). -/
def signedProduct (a b : Word) : DWord := BitVec.ofInt 64 (a.toInt * b.toInt)

/-- The full 64-bit unsigned product (R172). -/
def unsignedProduct (a b : Word) : DWord := zext64 a * zext64 b

/-- The divisions of `div` the source defines no result for: divisor 0, and -2^31 by -1 (R173, R226 (a), (b)). -/
def signedDivisionUndefined (a b : Word) : Bool :=
  b == 0 || (a == 0x80000000#32 && b == 0xFFFFFFFF#32)

/-- Remainder in bits 63:32, quotient in bits 31:0, each the 32-bit two's-complement pattern of its number (R173, C5). -/
def packDivision (rem quot : Int) : DWord := BitVec.ofInt 32 rem ++ BitVec.ofInt 32 quot

/-- Signed division: quotient rounded toward zero, remainder what is left of the dividend (R173). -/
def signedDivision (a b : Word) : DWord :=
  let q := a.toInt.tdiv b.toInt
  packDivision (a.toInt - q * b.toInt) q

/-- Unsigned division: `q = floor(a / b)`, `rem = a - q * b` (R174). -/
def unsignedDivision (a b : Word) : DWord :=
  let q := a.toNat / b.toNat
  packDivision (a.toNat - q * b.toNat : Nat) q

/-- `mult $s, $t` (R171). -/
def execMult (rs rt : RegIdx) (s : State) : Result :=
  (accProducer (.mult rs rt) fun _ a b => .ok (signedProduct a b)).run s

/-- `multu $s, $t` (R172). -/
def execMultu (rs rt : RegIdx) (s : State) : Result :=
  (accProducer (.multu rs rt) fun _ a b => .ok (unsignedProduct a b)).run s

/-- `div $s, $t`; UndefinedArithmetic in execute where the source defines no result (R173, R226). -/
def execDiv (rs rt : RegIdx) (s : State) : Result :=
  (accProducer (.div rs rt) fun e a b =>
    if signedDivisionUndefined a b then .error (.undefinedArithmetic e.addr a b) else .ok (signedDivision a b)).run s

/-- `divu $s, $t`; UndefinedArithmetic in execute for the divisor 0 (R174, R226). -/
def execDivu (rs rt : RegIdx) (s : State) : Result :=
  (accProducer (.divu rs rt) fun e a b =>
    if b == 0 then .error (.undefinedArithmetic e.addr a b) else .ok (unsignedDivision a b)).run s

/-- `mfhi $d`: `x[rd] <- acc[63:32]` (R175). -/
def execMfhi (rd : RegIdx) (s : State) : Result := (accRetrieval (.mfhi rd) rd highWord).run s

/-- `mflo $d`: `x[rd] <- acc[31:0]` (R176). -/
def execMflo (rd : RegIdx) (s : State) : Result := (accRetrieval (.mflo rd) rd lowWord).run s

end Sys2Proof.Machine
end

