-- ==== Sys2Proof/Machine/System.lean ====
section
/-!
DEFINITION. The system instruction (46_system.md R210, R211): `syscall` ends the run and does nothing else.
-/

namespace Sys2Proof.Machine

/-- `syscall`: no register, accumulator or pc write; write-back's output carries the termination flag (R210). -/
def systemCall : Meaning where
  insn := .syscall
  ex := exZero
  mem := memNothing
  wb := wbNothing
  quit := true

/-- `syscall` (R210). -/
def execSyscall (s : State) : Result := systemCall.run s

end Sys2Proof.Machine
end

