-- ==== Sys2Proof/Machine/Orchestrator.lean ====
section
/-!
DEFINITION. The orchestrator: the five stage functions and the cycle they make (40_pipeline_orchestrator.md R116 to R132).
-/

namespace Sys2Proof.Machine

/-- `produce(0)`: read the word at the latched address (R116). -/
def produceFetch (s : State) : Result :=
  match s.latches.fetch with
  | none => .next (s.emitFetched none)
  | some f =>
    match s.memRead f.addr with
    | .error x => .fault x
    | .ok (t, w) => .next (t.emitFetched (some { toFetchIn := f, instr := w }))

/-- `produce(1)`: classify the word, or raise UnknownEncoding before any register is read (R117, R223); then the decode part of the
instruction found. -/
def produceDecode (s : State) : Result :=
  match s.latches.decode with
  | none => .next (s.emitDecoded none)
  | some d =>
    match decode d.instr with
    | .error _ => .fault (.unknownEncoding d.addr d.instr)
    | .ok i => exec i (s.inPhase .decode)

/-- `produce(2)`: the execute part of the instruction in the latch (R118). -/
def produceExecute (s : State) : Result :=
  match s.latches.execute with
  | none => .next (s.emitExecuted none)
  | some e => exec e.insn (s.inPhase .execute)

/-- `produce(3)`: the memory-access part (R119). -/
def produceMemoryAccess (s : State) : Result :=
  match s.latches.memoryAccess with
  | none => .next (s.emitAccessed none)
  | some p => exec p.insn (s.inPhase .memoryAccess)

/-- `produce(4)`: the write-back part (R120). -/
def produceWriteBack (s : State) : Result :=
  match s.latches.writeBack with
  | none => .next (s.emitRetired none)
  | some w => exec w.insn (s.inPhase .writeBack)

/-- `produce(s)`: a bubble gives a bubble and does nothing at all; otherwise the stage's own function (R114). -/
def produce (st : Stage) (s : State) : Result :=
  match st with
  | .fetch => produceFetch s
  | .decode => produceDecode s
  | .execute => produceExecute s
  | .memoryAccess => produceMemoryAccess s
  | .writeBack => produceWriteBack s

/-- `produce(s)` and, the latch being spent, `accept(s, carry)` (step 6 of R124). -/
def produceAccept (st : Stage) (s : State) : Result :=
  andThen (produce st s) fun t => (t.spend st).accept st

/-- The turn of one stage in the pass. A stage at or before the stall boundary keeps its latch and does not advance (R125). A fatal
error stops the cycle at that point: all done before stays done, the stages after do not run (R129). -/
def turn (first : Nat) (st : Stage) (s : State) : Result :=
  if s.halted || decide (st.index < first) then .next s
  else match produceAccept st s with
    | .next t => .next t
    | .fault f => .next (s.takeFatalError st f)
    | .refused x => .refused x

/-- Step 6 of R124: the stages in increasing order. -/
def pass (first : Nat) (s : State) : Result :=
  andThen (turn first .fetch s) fun s =>
  andThen (turn first .decode s) fun s =>
  andThen (turn first .execute s) fun s =>
  andThen (turn first .memoryAccess s) fun s =>
  turn first .writeBack s

/-- Step 4 of R124: the snapshot for fetch, and the pc increment where it stands before the pass; neither when fetch is held
(R127, D24). -/
def takeSnapshot (first : Nat) (s : State) : State :=
  let snap : Option FetchIn := if first = 0 then some ⟨s.pc⟩ else none
  let t := { s with outs := { Outputs.empty with snapshot := snap } }
  if first = 0 ∧ s.cfg.pcIncPhase = .beforePass then t.pcIncrement Config.pcStep else t

/-- Step 7 of R124: the pc increment where it stands after the pass. -/
def incrementAfter (first : Nat) (s : State) : State :=
  if first = 0 ∧ s.cfg.pcIncPhase = .afterPass then s.pcIncrement Config.pcStep else s

/-- Write-back's output of this cycle carries a true termination flag (R10, R128). -/
def State.quitFlag (s : State) : Bool :=
  match s.outs.retired with
  | none => false
  | some o => o.quit

/-- Step 8 of R124: end the run on a true termination flag. -/
def retire (s : State) : State := if s.quitFlag then s.terminate else s

/-- Steps 7 and 8, which a fatal error in the pass leaves out (R129); then the fields of the pass are put to rest. -/
def finishCycle (first : Nat) (s : State) : State :=
  (if s.halted then s else retire (incrementAfter first s)).atRest

/-- Steps 1 and 2 of R124: count the cycle, tick every stage. -/
def beginCycle (s : State) : State := { s with cycle := s.cycle + 1 }.tickAll

/-- One `advance` (R124). On a halted core it changes nothing (step 0). -/
def advance (s : State) : Result :=
  if s.halted then .next s
  else
    let t := beginCycle s
    let first := t.firstAdvancing
    andThen (pass first (takeSnapshot first t)) fun u => .next (finishCycle first u)

/-- At most `n` cycles, stopping before the one in which an instruction first acts: stores, raises a fatal error or ends the run. -/
def fillPipeline : Nat → State → State
  | 0, s => s
  | n + 1, s =>
    match advance s with
    | .next t => if t.halted = true ∨ t.mem ≠ s.mem then s else fillPipeline n t
    | .fault _ => s
    | .refused _ => s

/-- Place an instruction word so that the next cycle fetches and runs it (entry 2). An instruction acts five cycles after the one that
accepts its address (R130), so one copy of it is not enough: a program of five copies is stored from the pc on, the pipeline is emptied,
and the cycles that fill it again are run, up to the one in which the first copy acts. That is the next one: the copies then stand in
the stages from fetch on, fetch reads the word, decode, execute and memory-access do their part of it, and write-back commits it (a `sw`
makes its store, an instruction that raises a fatal error raises it). A word at an address the memory does not have cannot be placed. -/
def placeAtFetch (s : State) (w : Word) : State :=
  fillPipeline 5 ({ s with latches := .empty }.storeBlock s.pc (List.replicate 5 w)).1

/-- The word an opcode-table number stands for: one word, so the bits above `nbits` are 0 (R80). -/
def tableWord (nbits w : Nat) : Word := BitVec.ofNat 32 (w % 2 ^ nbits)

end Sys2Proof.Machine
end

