-- ==== Sys2Proof/Machine/Step.lean ====
section
/-!
DEFINITION. The step of the machine: one step is one `advance`, one cycle (00_scope.md R7, 40_pipeline_orchestrator.md R124). And
the placing of one instruction where the next step fetches and runs it.
-/

namespace Sys2Proof.Machine

/-- One cycle. -/
def step (s : State) : Host.Outcome State Fault Refusal := advance s

/-- The state with an instruction, given as spec/opcode_table.json numbers its bits, where the next step fetches
and runs it (entry 2). -/
def State.withFetchWord (s : State) (nbits w : Nat) : State := placeAtFetch s (tableWord nbits w)

end Sys2Proof.Machine
end

