-- ==== Sys2Proof/Machine/HostSide.lean ====
section
/-!
DEFINITION. What the host does to the core before the first cycle and reads from it after the last (00_scope.md R8 to R10,
70_reset_and_hazards.md R250, R251), and the trace of a cycle (40_pipeline_orchestrator.md R131). None of it is part of a step.
-/

namespace Sys2Proof.Machine

/-- The initial register contents (R8, R251 step 4). Register 0 is left at 0, which the host must see to (R252 (a)). -/
def State.presetRegs (s : State) : List (RegIdx × Word) → State
  | [] => s
  | (r, v) :: rest => (if r = 0 then s else s.writeReg r v).presetRegs rest

/-- A `syscall` word: opcode 0 and function code 12, whatever the other bits (R251 step 3). -/
def isSyscallWord (w : Word) : Bool := opcodeOf w == 0 && functOf w == 12

/-- The loaded image: a terminating `syscall` word is appended "if the image doesn't end in one" (R8, R251 step 3). -/
def loadedImage (image : List Word) : List Word :=
  match image.getLast? with
  | some w => if isSyscallWord w then image else image ++ [0x0000000C#32]
  | none => [0x0000000C#32]

/-- The standard loader: the image at address 0, the initial registers, and the return-address register pre-set to the address of the
terminating instruction (R8, R251). The return-address register is LINK_REG (D12). -/
def State.standardLoad (s : State) (image : List Word) (regs : List (RegIdx × Word)) : State × Option Fault :=
  let words := loadedImage image
  let r := s.storeBlock 0 words
  ((r.1.presetRegs regs).presetRegs [(s.cfg.linkReg, BitVec.ofNat 32 (words.length - 1))], r.2)

/-- What the host learns from the core after a cycle (R7, R10, R31). -/
inductive RunStatus where
  | running
  | terminated
  | faulted (e : FatalError)
  deriving DecidableEq, Repr

/-- `halted` with no error is terminated, with an error faulted (R31). -/
def State.runStatus (s : State) : RunStatus :=
  match s.error with
  | some e => .faulted e
  | none => if s.halted then .terminated else .running

/-- The host reads a general register: only after termination (R9). -/
def State.hostReadReg (s : State) (r : RegIdx) : Option Word :=
  if s.runStatus = .terminated then some (s.readReg r) else none

/-- The host reads a main-memory word: only after termination (R9), and only where there is one, at an address a load would find in
range (R28, R51, R60). DESIGN CHOICE (entry 37): it is no load: it raises no OutOfRange and creates no mapping in a sparse memory. -/
def State.hostReadMem (s : State) (a : Word) : Option Word :=
  if s.runStatus = .terminated ∧ s.inRange a = true then some (s.wordAt a) else none

/-- One triple of the trace: cycle number, stage, and the address the stage works on, none for a bubble (R10, R131). -/
structure TraceTriple where
  cycle : Nat
  stage : Stage
  addr : Option Word
  deriving DecidableEq, Repr

/-- The triples the cycle that begins in this state emits: one for each stage, in stage order, with the latched address; none on a
halted core (R131, D18, D25). -/
def State.traceOf (s : State) : List TraceTriple :=
  if s.halted then []
  else
    let n := s.cycle + 1
    [⟨n, .fetch, s.latches.fetch.map (·.addr)⟩,
     ⟨n, .decode, s.latches.decode.map (·.addr)⟩,
     ⟨n, .execute, s.latches.execute.map (·.addr)⟩,
     ⟨n, .memoryAccess, s.latches.memoryAccess.map (·.addr)⟩,
     ⟨n, .writeBack, s.latches.writeBack.map (·.addr)⟩]

end Sys2Proof.Machine
end

