-- ==== Sys2Proof/WellFormed.lean ====
section
/-!
DEFINITION. Well-formedness. An instruction term is well formed by its type: every operand has exactly the width of its field
(30_encoding.md R81) and every value of a field is admitted (R86). What needs a check is a configuration (00_scope.md R5).
-/

namespace Sys2Proof

/-- Every term of `Instr` is an instruction of the machine: the widths are in the types (R81), a register number cannot be
out of range (R21), and R86 admits every value of every field. There is no check to fail. -/
def Instr.wf (_ : Instr) : Bool := true

/-- MEM_SIZE: 1 <= MEM_SIZE <= 2^32 (R5). -/
def Config.memSizeOk (c : Config) : Bool := decide (1 ≤ c.memSize) && decide (c.memSize ≤ 2 ^ 32)

/-- A wrapped unit is a memory unit, so its size obeys the bound of a memory unit's size (R5, R53). -/
def MemKind.ok : MemKind → Bool
  | .flat => true
  | .sparse n => decide (1 ≤ n) && decide (n ≤ 2 ^ 32)

/-- WB_IMM_DEST_SLICE is a non-empty part of the field [16, 21), which D14 says may be narrower than the whole field. -/
def BitSlice.withinImmDest (b : BitSlice) : Bool :=
  decide (16 ≤ b.start) && decide (b.start < b.stop) && decide (b.stop ≤ 21)

/-- The constraints R5 puts on a configuration. -/
def Config.wf (c : Config) : Bool :=
  c.memSizeOk && c.memKind.ok && c.wbImmDestSlice.withinImmDest

end Sys2Proof
end

