-- ==== Sys2Proof/Safety.lean ====
section
/-!
DEFINITION. The terms in which statements are made: an instruction in one stage, its passage through the four stages in which it
acts, the invariant of the machine, and what counts as a safe run (one that no fatal error has ended, 10_state.md R31).
-/

namespace Sys2Proof.Machine

/-! ## An instruction in a stage

The state `s` in the middle of a cycle, when the stage is about to work on a payload (40_pipeline_orchestrator.md R114). -/

/-- Decode is about to work on `d`. -/
def State.decoding (s : State) (d : DecodeIn) : State :=
  { s with phase := .decode, latches := { s.latches with decode := some d } }

/-- Execute is about to work on `e`. -/
def State.executing (s : State) (e : ExecuteIn) : State :=
  { s with phase := .execute, latches := { s.latches with execute := some e } }

/-- Memory-access is about to work on `p`. -/
def State.accessing (s : State) (p : MemoryIn) : State :=
  { s with phase := .memoryAccess, latches := { s.latches with memoryAccess := some p } }

/-- Write-back is about to work on `w`. -/
def State.committing (s : State) (w : WriteBackIn) : State :=
  { s with phase := .writeBack, latches := { s.latches with writeBack := some w } }

/-- The passage of instruction `i`, in latch `d`, through the stages in which it acts (R130). The four states are those in which
its four stages find the machine: they are arbitrary, since other instructions act between them. Decode and execute change nothing
but their own output; memory-access changes the state by `mem`, write-back by `wb`, and write-back's output carries `quit`. The payload
goes on unchanged, each stage adding its own fields. Nothing faults and nothing refuses. -/
def Passes (i : Instr) (d : DecodeIn) (sD sE sM sW : State) (mem wb : State → State) (quit : Bool) : Prop :=
  ∃ (e : ExecuteIn) (p : MemoryIn) (w : WriteBackIn),
    e.toDecodeIn = d ∧ e.insn = i ∧ p.toExecuteIn = e ∧ w.toMemoryIn = p ∧
    exec i (sD.decoding d) = .next ((sD.decoding d).emitDecoded (some e)) ∧
    exec i (sE.executing e) = .next ((sE.executing e).emitExecuted (some p)) ∧
    exec i (sM.accessing p) = .next ((mem (sM.accessing p)).emitAccessed (some w)) ∧
    exec i (sW.committing w) = .next ((wb (sW.committing w)).emitRetired (some ⟨d.addr, quit⟩))

/-- The passage up to memory-access, for an instruction whose access then raises `f`. -/
def AccessRaises (i : Instr) (d : DecodeIn) (sD sE sM : State) (f : Fault) : Prop :=
  ∃ (e : ExecuteIn) (p : MemoryIn),
    e.toDecodeIn = d ∧ e.insn = i ∧ p.toExecuteIn = e ∧
    exec i (sD.decoding d) = .next ((sD.decoding d).emitDecoded (some e)) ∧
    exec i (sE.executing e) = .next ((sE.executing e).emitExecuted (some p)) ∧
    exec i (sM.accessing p) = .fault f

/-- The passage up to execute, for an instruction whose execute part then raises `f`. -/
def ExecuteRaises (i : Instr) (d : DecodeIn) (sD sE : State) (f : Fault) : Prop :=
  ∃ e : ExecuteIn,
    e.toDecodeIn = d ∧ e.insn = i ∧
    exec i (sD.decoding d) = .next ((sD.decoding d).emitDecoded (some e)) ∧
    exec i (sE.executing e) = .fault f

/-! ## The invariant of the machine -/

/-- Main memory is in canonical form and lists nothing out of range. A flat memory has no map. In a sparse one no address is mapped
twice, the slots given out are slots of the wrapped unit, and only those hold anything (20_memory.md R51, R53). -/
abbrev State.MemoryOk (s : State) : Prop :=
  s.mem.wf ∧
  match s.cfg.memKind with
  | .flat => s.slots = [] ∧ ∀ c ∈ s.mem, c.1 < s.cfg.memSize
  | .sparse n => s.slots.Nodup ∧ s.slots.length ≤ n ∧ ∀ c ∈ s.mem, c.1 < s.slots.length

/-- The classification in a latch is what the tables say of its word, and the loaded values have the shape of that format
(10_state.md R29, R117). -/
abbrev ExecuteIn.Classified (e : ExecuteIn) : Prop :=
  decode e.instr = .ok e.insn ∧ e.vals.format = e.insn.format

/-- The three latches behind decode hold classified instructions or bubbles. -/
abbrev State.LatchesClassified (s : State) : Prop :=
  (∀ e ∈ s.latches.execute, e.Classified) ∧ (∀ p ∈ s.latches.memoryAccess, p.Classified) ∧
    ∀ w ∈ s.latches.writeBack, w.Classified

/-- No latency counter is above the latency a stage sets (R126). -/
abbrev State.LatencyOk (s : State) : Prop :=
  s.lat.fetch ≤ 1 ∧ s.lat.decode ≤ 1 ∧ s.lat.execute ≤ 1 ∧ s.lat.memoryAccess ≤ 1 ∧ s.lat.writeBack ≤ 1

/-- The fields of a pass are at rest, as they are between two cycles. -/
abbrev State.Resting (s : State) : Prop := s.phase = .decode ∧ s.outs = .empty

/-- A fatal error has ended the run (R31). -/
abbrev State.ErrorHalts (s : State) : Prop := s.error ≠ none → s.halted = true

/-- A memory unit's configuration and register 0 under the hard-wired reading: it holds the 0 it was set to (R22). -/
abbrev State.Register0Ok (s : State) : Prop := s.cfg.r0Policy = .hardwired → s.regs[0] = 0

/-- The invariant of the machine. -/
abbrev State.Inv (s : State) : Prop :=
  s.MemoryOk ∧ s.LatchesClassified ∧ s.LatencyOk ∧ s.Resting ∧ s.ErrorHalts ∧ s.Register0Ok

/-- A safe state: no fatal error has ended the run (R31). -/
abbrev State.Safe (s : State) : Prop := s.error = none

end Sys2Proof.Machine
end

