-- ==== Sys2Proof/Certificates/Slice0/Obligations.lean ====
section
/-!
DEFINITION. The statements for the provers. Each is about every state it names and every configuration a state can carry.
-/

namespace Sys2Proof.Claims

open Sys2Proof.Machine

/-! ## Words of the statements -/

/-- A primary-format word with a function code (30_encoding.md R82, R84). -/
abbrev IsPrimary (funct : BitVec 6) (w : Word) : Prop := opcodeOf w = 0 ∧ functOf w = funct

/-- A word with an opcode (R83). -/
abbrev IsOpcode (opcode : BitVec 6) (w : Word) : Prop := opcodeOf w = opcode

/-- Every word with this encoding is instruction `i`, and in latch `d` the instruction passes all its stages, faulting nowhere; memory-access
changes nothing, and write-back writes register `dest` with the value `val`, computed from the registers as they are in the
instruction's decode stage, and changes nothing else. -/
def RegisterOp (is : Word → Prop) (i : Word → Instr) (dest : State → Word → RegIdx) (val : State → Word → Word) : Prop :=
  ∀ (d : DecodeIn) (sD sE sM sW : State), is d.instr →
    decode d.instr = .ok (i d.instr) ∧
    Passes (i d.instr) d sD sE sM sW id (fun t => t.writeReg (dest t d.instr) (val sD d.instr)) false

/-- The destination of a primary-format instruction: the field `rd`. -/
def rdDest (_ : State) (w : Word) : RegIdx := rdOf w

/-- The destination of an immediate-format instruction: the field `rt`, through the slice WB_IMM_DEST_SLICE. -/
def rtDest (t : State) (w : Word) : RegIdx := immDest t.cfg (rtOf w)

/-- `x[rs]` and `x[rt]`. -/
def xRs (s : State) (w : Word) : Word := s.readReg (rsOf w)

def xRt (s : State) (w : Word) : Word := s.readReg (rtOf w)

/-- 1 if the proposition holds, 0 if not. -/
def oneIf (p : Prop) [Decidable p] : Word := if p then 1 else 0

/-- The exact sum, product or shift of numbers, taken modulo 2^32. -/
def mod32 (n : Int) : Word := BitVec.ofInt 32 n

/-- Every word with this encoding is instruction `i`, and in latch `d` it passes all its stages when the operands are admitted; write-back puts
`val` into the accumulator and changes nothing else. -/
def AccumulatorOp (is : Word → Prop) (i : Word → Instr) (admitted : Word → Word → Prop) (val : Word → Word → DWord) : Prop :=
  ∀ (d : DecodeIn) (sD sE sM sW : State), is d.instr →
    decode d.instr = .ok (i d.instr) ∧
    (admitted (xRs sD d.instr) (xRt sD d.instr) →
      Passes (i d.instr) d sD sE sM sW id (fun t => t.writeAcc (val (xRs sD d.instr) (xRt sD d.instr))) false)

/-- The effective address: `(x[rs] + sext_32(imm16)) mod 2^32`, as exact arithmetic (R192). -/
def ea (s : State) (w : Word) : Word := mod32 ((xRs s w).toNat + (imm16Of w).toInt)

/-- Every word with this encoding is the branch `i`; in latch `d` it passes all its stages, and write-back sets the pc to the immediate when the
condition holds on the registers as they are in its decode stage, and else changes nothing. -/
def BranchOp (is : Word → Prop) (i : Word → Instr) (taken : State → Word → Prop) : Prop :=
  ∀ (d : DecodeIn) (sD sE sM sW : State), is d.instr →
    decode d.instr = .ok (i d.instr) ∧
    (taken sD d.instr → Passes (i d.instr) d sD sE sM sW id
      (fun t => t.pcSet (match t.cfg.branchImmExt with
        | .zext => BitVec.ofNat 32 (imm16Of d.instr).toNat
        | .sext => BitVec.ofInt 32 (imm16Of d.instr).toInt)) false) ∧
    (¬ taken sD d.instr → Passes (i d.instr) d sD sE sM sW id id false)

/-- The fields no instruction changes in any stage. -/
def SameElsewhere (s t : State) : Prop :=
  t.cfg = s.cfg ∧ t.latches = s.latches ∧ t.lat = s.lat ∧ t.halted = s.halted ∧ t.error = s.error ∧ t.cycle = s.cycle ∧
    t.phase = s.phase

/-- The accumulator is unchanged. -/
abbrev SameAcc (s t : State) : Prop := t.acc = s.acc ∧ t.accWritten = s.accWritten

/-- Main memory and the sparse map are unchanged, so every address reads as before. -/
def SameMemory (s t : State) : Prop := t.mem = s.mem ∧ t.slots = s.slots ∧ ∀ a, t.wordAt a = s.wordAt a

/-- Every register but those in `dests` reads as before. -/
def SameRegsBut (dests : List RegIdx) (s t : State) : Prop := ∀ r, r ∉ dests → t.readReg r = s.readReg r

/-- The destination of the primary-format instructions that write a register and nothing else. -/
def primaryDest : Instr → Option RegIdx
  | .sll rd _ _ | .srl rd _ _ | .sra rd _ _ | .sllv rd _ _ | .srlv rd _ _ | .srav rd _ _ => some rd
  | .add rd _ _ | .addu rd _ _ | .sub rd _ _ | .subu rd _ _ | .and rd _ _ | .or rd _ _ | .xor rd _ _ | .nor rd _ _ => some rd
  | .slt rd _ _ | .sltu rd _ _ | .mfhi rd | .mflo rd => some rd
  | _ => none

/-- The `rt` field of the immediate-format instructions that write a register. -/
def immediateDest : Instr → Option RegIdx
  | .addi rt _ _ | .addiu rt _ _ | .slti rt _ _ | .sltiu rt _ _ | .andi rt _ _ | .ori rt _ _ | .xori rt _ _ => some rt
  | .lui rt _ | .lw rt _ _ => some rt
  | _ => none

/-- The producers of the accumulator. -/
def isProducer : Instr → Bool
  | .mult _ _ | .multu _ _ | .div _ _ | .divu _ _ => true
  | _ => false

/-- The instructions that write the pc and no register. -/
def isPlainTransfer : Instr → Bool
  | .jr _ | .beq _ _ _ | .bne _ _ _ | .bltz _ _ | .j _ => true
  | _ => false

/-- The control transfers, linking or not. -/
def isTransfer : Instr → Bool
  | .jr _ | .jalr _ _ | .beq _ _ _ | .bne _ _ _ | .bltz _ _ | .j _ | .jal _ => true
  | _ => false

/-- The word the tables look at: the bits that an instruction of this mnemonic uses, its opcode and function code among them. The others are the
ignored fields of R86. -/
def usedBits : Mnemonic → Word
  | .sll | .srl | .sra => 0xFC1FFFFF#32
  | .sllv | .srlv | .srav | .add | .addu | .sub | .subu | .and | .or | .xor | .nor | .slt | .sltu => 0xFFFFF83F#32
  | .mult | .multu | .div | .divu => 0xFFFF003F#32
  | .mfhi | .mflo => 0xFC00F83F#32
  | .jr => 0xFFE0003F#32
  | .jalr => 0xFFE0F83F#32
  | .syscall => 0xFC00003F#32
  | .bltz => 0xFFE0FFFF#32
  | .lui => 0xFC1FFFFF#32
  | .beq | .bne | .addi | .addiu | .slti | .sltiu | .andi | .ori | .xori | .lw | .sw | .j | .jal => 0xFFFFFFFF#32

/-- The opcodes in no table: 6, 7, 16 to 34, 36 to 42, 44 to 63 (R87). -/
abbrev absentOpcode (n : Nat) : Prop := n = 6 ∨ n = 7 ∨ (16 ≤ n ∧ n ≤ 34) ∨ (36 ≤ n ∧ n ≤ 42) ∨ (44 ≤ n ∧ n ≤ 63)

/-- The function codes in no table: 1, 5, 10, 11, 13, 14, 15, 17, 19 to 23, 28 to 31, 40, 41, 44 to 63 (R87). -/
abbrev absentFunct (n : Nat) : Prop :=
  n = 1 ∨ n = 5 ∨ n = 10 ∨ n = 11 ∨ n = 13 ∨ n = 14 ∨ n = 15 ∨ n = 17 ∨ (19 ≤ n ∧ n ≤ 23) ∨ (28 ≤ n ∧ n ≤ 31) ∨ n = 40 ∨ n = 41 ∨
    (44 ≤ n ∧ n ≤ 63)

/-- The word is in no classification table (R87). -/
abbrev Illegal (w : Word) : Prop :=
  absentOpcode (opcodeOf w).toNat ∨ (opcodeOf w = 0 ∧ absentFunct (functOf w).toNat)

/-- One cycle that ends with no fatal error, on a core that was running. -/
abbrev CleanStep (s t : State) : Prop := s.halted = false ∧ step s = .next t ∧ t.error = none

/-- The value a `sw` payload stores: the loaded value SW_DATA_INDEX picks, 0 for the first (`x[rs]`), 1 for the second (`x[rt]`) (R191). -/
def stored (c : Config) (v : Vals) : Word :=
  match v, c.swDataIndex with
  | .immediate a _, .index0 => a
  | .immediate _ b, .index1 => b
  | _, _ => 0

/-- The image ends in a `syscall` word, any word with opcode 0 and function code 12 (R251). -/
def EndsInSyscall (image : List Word) : Prop := ∃ w, image.getLast? = some w ∧ IsPrimary 0x0C w

/-- The divisions without a defined result, on the operands `x[rs]` and `x[rt]` (R226 (a), (b)). -/
def UndefinedDivision (i : Instr) (a b : Word) : Prop :=
  (∃ rs rt, i = .div rs rt ∧ (b.toInt = 0 ∨ (a.toInt = -2 ^ 31 ∧ b.toInt = -1))) ∨ ∃ rs rt, i = .divu rs rt ∧ b.toNat = 0

/-- `lw` and `sw`, the instructions that access memory. -/
def isAccess : Instr → Bool
  | .lw _ _ _ | .sw _ _ _ => true
  | _ => false

/-- Main memory as the cycle's fetch leaves it: a sparse map gains the fetched address (R53). -/
def fetchTouched (s : State) : State :=
  match s.latches.fetch with
  | none => s
  | some f => s.touch f.addr

/-- Fetch raises nothing in the next cycle (R222). -/
abbrev FetchFits (s : State) : Prop := ∀ f, s.latches.fetch = some f → s.slotOf f.addr < s.unitSize

/-- Decode raises nothing (R223). -/
abbrev DecodeFits (s : State) : Prop := ∀ d, s.latches.decode = some d → ¬ Illegal d.instr

/-- Execute raises nothing (R226). -/
abbrev ExecuteFits (s : State) : Prop :=
  ∀ e a b c, s.latches.execute = some e → e.vals = .primary a b c → ¬ UndefinedDivision e.insn a b

/-- Memory-access raises nothing (R222). -/
abbrev AccessFits (s : State) : Prop :=
  ∀ p, s.latches.memoryAccess = some p → isAccess p.insn = true →
    (fetchTouched s).slotOf (lowWord p.result) < s.unitSize

end Sys2Proof.Claims

open Sys2Proof Sys2Proof.Machine Sys2Proof.Claims

/-! ## Encoding -/

/-- The decoder gives every instruction back from its encoding, with every operand at every value (30_encoding.md sections 1 to 3). -/
def Obligations.DecodeOfEncodeIsIdentity : Prop := ∀ i : Instr, decode (encode i) = .ok i

/-- The fields an instruction does not use are ignored: every word with the same used bits is the same instruction. Which fields those are, R86
infers from R82. And the used bits are all of it: a word masked to them is the word the encoder writes, with 0 in every ignored field, which is decision D26
(R90). -/
def Obligations.IgnoredFieldsChangeNothing : Prop :=
  ∀ (w : Word) (i : Instr), decode w = .ok i →
    (∀ w' : Word, w &&& usedBits i.mnemonic = w' &&& usedBits i.mnemonic → decode w' = .ok i) ∧
    encode i = w &&& usedBits i.mnemonic

/-- R87 and R223: exactly the absent opcodes and function codes are illegal, and decode raises UnknownEncoding for them, with the
instruction's address and word, in every state. -/
def Obligations.IllegalWordsRaiseUnknownEncoding : Prop :=
  ∀ (w : Word), (Illegal w ↔ ∀ i, decode w ≠ .ok i) ∧
    ∀ (s : State) (f : FetchIn), s.latches.decode = some ⟨f, w⟩ → Illegal w →
      produce .decode s = .fault (.unknownEncoding f.addr w)

/-- The words of 95_test_vectors.md section 3, read by hand, decode as their listings say. -/
def Obligations.ListedWordsDecode : Prop :=
  decode 0x00221820#32 = .ok (.add 3 1 2) ∧ decode 0x8C010010#32 = .ok (.lw 1 16 0) ∧
  decode 0x00220018#32 = .ok (.mult 1 2) ∧ decode 0x00001812#32 = .ok (.mflo 3) ∧ decode 0x0000000C#32 = .ok .syscall ∧
  decode 0x2021FFFF#32 = .ok (.addi 1 1 0xFFFF) ∧ decode 0x14200005#32 = .ok (.bne 1 0 5) ∧
  decode 0xAC420020#32 = .ok (.sw 2 32 2) ∧ decode 0x0C000004#32 = .ok (.jal 4) ∧ decode 0x03E00008#32 = .ok (.jr 31) ∧
  decode 0x00021FC0#32 = .ok (.sll 3 2 31) ∧ decode 0x00000000#32 = .ok (.sll 0 0 0)

/-! ## What the instructions do -/

/-- R150 to R153. -/
def Obligations.AddAndSubtractWrap : Prop :=
  RegisterOp (IsPrimary 0x20) (fun w => .add (rdOf w) (rsOf w) (rtOf w)) rdDest
    (fun s w => mod32 ((xRs s w).toNat + (xRt s w).toNat)) ∧
  RegisterOp (IsPrimary 0x21) (fun w => .addu (rdOf w) (rsOf w) (rtOf w)) rdDest
    (fun s w => mod32 ((xRs s w).toNat + (xRt s w).toNat)) ∧
  RegisterOp (IsPrimary 0x22) (fun w => .sub (rdOf w) (rsOf w) (rtOf w)) rdDest
    (fun s w => mod32 ((xRs s w).toNat - (xRt s w).toNat)) ∧
  RegisterOp (IsPrimary 0x23) (fun w => .subu (rdOf w) (rsOf w) (rtOf w)) rdDest
    (fun s w => mod32 ((xRs s w).toNat - (xRt s w).toNat))

/-- R154 to R157. -/
def Obligations.LogicIsBitByBit : Prop :=
  RegisterOp (IsPrimary 0x24) (fun w => .and (rdOf w) (rsOf w) (rtOf w)) rdDest
    (fun s w => BitVec.ofFnLE fun k => (xRs s w)[k] && (xRt s w)[k]) ∧
  RegisterOp (IsPrimary 0x25) (fun w => .or (rdOf w) (rsOf w) (rtOf w)) rdDest
    (fun s w => BitVec.ofFnLE fun k => (xRs s w)[k] || (xRt s w)[k]) ∧
  RegisterOp (IsPrimary 0x26) (fun w => .xor (rdOf w) (rsOf w) (rtOf w)) rdDest
    (fun s w => BitVec.ofFnLE fun k => (xRs s w)[k] != (xRt s w)[k]) ∧
  RegisterOp (IsPrimary 0x27) (fun w => .nor (rdOf w) (rsOf w) (rtOf w)) rdDest
    (fun s w => BitVec.ofFnLE fun k => !((xRs s w)[k] || (xRt s w)[k]))

/-- R158 to R160: a left shift multiplies by a power of two modulo 2^32, a logical right shift divides the unsigned number, an
arithmetic right shift divides the signed number, rounding down. -/
def Obligations.ConstantShifts : Prop :=
  RegisterOp (IsPrimary 0x00) (fun w => .sll (rdOf w) (rtOf w) (shamtOf w)) rdDest
    (fun s w => mod32 ((xRt s w).toNat * 2 ^ (shamtOf w).toNat)) ∧
  RegisterOp (IsPrimary 0x02) (fun w => .srl (rdOf w) (rtOf w) (shamtOf w)) rdDest
    (fun s w => mod32 ((xRt s w).toNat / 2 ^ (shamtOf w).toNat : Nat)) ∧
  RegisterOp (IsPrimary 0x03) (fun w => .sra (rdOf w) (rtOf w) (shamtOf w)) rdDest
    (fun s w => mod32 ((xRt s w).toInt.fdiv (2 ^ (shamtOf w).toNat)))

/-- R161 to R163: the amount is `x[rs]` masked to 5 bits. -/
def Obligations.VariableShifts : Prop :=
  RegisterOp (IsPrimary 0x04) (fun w => .sllv (rdOf w) (rtOf w) (rsOf w)) rdDest
    (fun s w => mod32 ((xRt s w).toNat * 2 ^ ((xRs s w).toNat % 32))) ∧
  RegisterOp (IsPrimary 0x06) (fun w => .srlv (rdOf w) (rtOf w) (rsOf w)) rdDest
    (fun s w => mod32 ((xRt s w).toNat / 2 ^ ((xRs s w).toNat % 32) : Nat)) ∧
  RegisterOp (IsPrimary 0x07) (fun w => .srav (rdOf w) (rtOf w) (rsOf w)) rdDest
    (fun s w => mod32 ((xRt s w).toInt.fdiv (2 ^ ((xRs s w).toNat % 32))))

/-- R164, R165. -/
def Obligations.SetOnLessThan : Prop :=
  RegisterOp (IsPrimary 0x2A) (fun w => .slt (rdOf w) (rsOf w) (rtOf w)) rdDest
    (fun s w => oneIf ((xRs s w).toInt < (xRt s w).toInt)) ∧
  RegisterOp (IsPrimary 0x2B) (fun w => .sltu (rdOf w) (rsOf w) (rtOf w)) rdDest
    (fun s w => oneIf ((xRs s w).toNat < (xRt s w).toNat))

/-- R171, R172: the full product, so no information is lost. -/
def Obligations.MultiplyGivesFullProduct : Prop :=
  AccumulatorOp (IsPrimary 0x18) (fun w => .mult (rsOf w) (rtOf w)) (fun _ _ => True)
    (fun a b => BitVec.ofInt 64 (a.toInt * b.toInt)) ∧
  AccumulatorOp (IsPrimary 0x19) (fun w => .multu (rsOf w) (rtOf w)) (fun _ _ => True)
    (fun a b => BitVec.ofNat 64 (a.toNat * b.toNat)) ∧
  ∀ a b : Word, (BitVec.ofInt 64 (a.toInt * b.toInt)).toInt = a.toInt * b.toInt ∧
    (BitVec.ofNat 64 (a.toNat * b.toNat)).toNat = a.toNat * b.toNat

/-- R173, R174: quotient in the low half, remainder in the high half, where the source defines them; with the two properties of
the signed remainder. -/
def Obligations.DividePacksQuotientAndRemainder : Prop :=
  AccumulatorOp (IsPrimary 0x1A) (fun w => .div (rsOf w) (rtOf w))
    (fun a b => b.toInt ≠ 0 ∧ ¬ (a.toInt = -2 ^ 31 ∧ b.toInt = -1))
    (fun a b => mod32 (a.toInt - a.toInt.tdiv b.toInt * b.toInt) ++ mod32 (a.toInt.tdiv b.toInt)) ∧
  AccumulatorOp (IsPrimary 0x1B) (fun w => .divu (rsOf w) (rtOf w)) (fun _ b => b.toNat ≠ 0)
    (fun a b => mod32 (a.toNat % b.toNat : Nat) ++ mod32 (a.toNat / b.toNat : Nat)) ∧
  ∀ a b : Word, b.toInt ≠ 0 → ¬ (a.toInt = -2 ^ 31 ∧ b.toInt = -1) →
    (mod32 (a.toInt.tdiv b.toInt)).toInt = a.toInt.tdiv b.toInt ∧
    (a.toInt - a.toInt.tdiv b.toInt * b.toInt).natAbs < b.toInt.natAbs ∧
    (a.toInt - a.toInt.tdiv b.toInt * b.toInt = 0 ∨
      (a.toInt - a.toInt.tdiv b.toInt * b.toInt).sign = a.toInt.sign)

/-- R226 (a) and (b): UndefinedArithmetic in execute, recording the address and both operands. -/
def Obligations.UndefinedDivisionsRaise : Prop :=
  ∀ (d : DecodeIn) (sD sE : State),
    (IsPrimary 0x1A d.instr →
      ((xRt sD d.instr).toInt = 0 ∨ ((xRs sD d.instr).toInt = -2 ^ 31 ∧ (xRt sD d.instr).toInt = -1)) →
      ExecuteRaises (.div (rsOf d.instr) (rtOf d.instr)) d sD sE
        (.undefinedArithmetic d.addr (xRs sD d.instr) (xRt sD d.instr))) ∧
    (IsPrimary 0x1B d.instr → (xRt sD d.instr).toNat = 0 →
      ExecuteRaises (.divu (rsOf d.instr) (rtOf d.instr)) d sD sE
        (.undefinedArithmetic d.addr (xRs sD d.instr) (xRt sD d.instr)))

/-- R175, R176, for an accumulator that has been written: the half of `acc` as it stands in the retrieval's own write-back. -/
def Obligations.RetrievalReadsAccumulatorHalf : Prop :=
  ∀ (d : DecodeIn) (sD sE sM sW : State), sW.accWritten = true →
    (IsPrimary 0x10 d.instr → decode d.instr = .ok (.mfhi (rdOf d.instr)) ∧
      Passes (.mfhi (rdOf d.instr)) d sD sE sM sW id
        (fun t => t.writeReg (rdOf d.instr) (BitVec.ofNat 32 (sW.acc.toNat / 2 ^ 32))) false) ∧
    (IsPrimary 0x12 d.instr → decode d.instr = .ok (.mflo (rdOf d.instr)) ∧
      Passes (.mflo (rdOf d.instr)) d sD sE sM sW id
        (fun t => t.writeReg (rdOf d.instr) (BitVec.ofNat 32 (sW.acc.toNat % 2 ^ 32))) false)

/-- The accumulator before any producer has committed, which the spec gives no value (R175, R226 (c), D15). The model's choice between the two
treatments R226 allows, log entry 7: the retrieval runs and takes a half of a free 64-bit value, the same for both halves. It holds for whatever value the
draw has. -/
def Obligations.UnwrittenAccumulatorIsFree : Prop :=
  ∀ (d : DecodeIn) (sD sE sM sW : State), sW.accWritten = false →
    (IsPrimary 0x10 d.instr → decode d.instr = .ok (.mfhi (rdOf d.instr)) ∧
      Passes (.mfhi (rdOf d.instr)) d sD sE sM sW id
        (fun t => t.writeReg (rdOf d.instr) (BitVec.ofNat 32 (Config.accAtReset.toNat / 2 ^ 32))) false) ∧
    (IsPrimary 0x12 d.instr → decode d.instr = .ok (.mflo (rdOf d.instr)) ∧
      Passes (.mflo (rdOf d.instr)) d sD sE sM sW id
        (fun t => t.writeReg (rdOf d.instr) (BitVec.ofNat 32 (Config.accAtReset.toNat % 2 ^ 32))) false)

/-- R181, R182. -/
def Obligations.AddImmediateWraps : Prop :=
  RegisterOp (IsOpcode 0x08) (fun w => .addi (rtOf w) (rsOf w) (imm16Of w)) rtDest
    (fun s w => mod32 ((xRs s w).toNat + (imm16Of w).toInt)) ∧
  RegisterOp (IsOpcode 0x09) (fun w => .addiu (rtOf w) (rsOf w) (imm16Of w)) rtDest
    (fun s w => mod32 ((xRs s w).toNat + (imm16Of w).toInt))

/-- R183, R184: both sign-extend the immediate; `sltiu` then compares as unsigned, so the immediate stands for 0 to 0x7FFF and
0xFFFF8000 to 0xFFFFFFFF. -/
def Obligations.SetOnLessThanImmediate : Prop :=
  RegisterOp (IsOpcode 0x0A) (fun w => .slti (rtOf w) (rsOf w) (imm16Of w)) rtDest
    (fun s w => oneIf ((xRs s w).toInt < (imm16Of w).toInt)) ∧
  RegisterOp (IsOpcode 0x0B) (fun w => .sltiu (rtOf w) (rsOf w) (imm16Of w)) rtDest
    (fun s w => oneIf ((xRs s w).toNat <
      if (imm16Of w).toNat < 0x8000 then (imm16Of w).toNat else (imm16Of w).toNat + 0xFFFF0000))

/-- R185 to R187: the immediate is zero-extended, so the upper half of `x[rs]` is cleared by `andi` and kept by `ori` and `xori`. -/
def Obligations.LogicImmediateZeroExtends : Prop :=
  RegisterOp (IsOpcode 0x0C) (fun w => .andi (rtOf w) (rsOf w) (imm16Of w)) rtDest
    (fun s w => (0 : BitVec 16) ++ ((xRs s w).extractLsb' 0 16 &&& imm16Of w)) ∧
  RegisterOp (IsOpcode 0x0D) (fun w => .ori (rtOf w) (rsOf w) (imm16Of w)) rtDest
    (fun s w => (xRs s w).extractLsb' 16 16 ++ ((xRs s w).extractLsb' 0 16 ||| imm16Of w)) ∧
  RegisterOp (IsOpcode 0x0E) (fun w => .xori (rtOf w) (rsOf w) (imm16Of w)) rtDest
    (fun s w => (xRs s w).extractLsb' 16 16 ++ ((xRs s w).extractLsb' 0 16 ^^^ imm16Of w))

/-- R188. -/
def Obligations.LoadUpperPlacesImmediateHigh : Prop :=
  RegisterOp (IsOpcode 0x0F) (fun w => .lui (rtOf w) (imm16Of w)) rtDest (fun _ w => mod32 ((imm16Of w).toNat * 2 ^ 16))

/-- The destination of an immediate-format instruction: all five bits of `rt` with the slice [16, 21) (43_alu_immediate.md R180), and with a
narrower slice the part of the field that the slice takes (D14). -/
def Obligations.ImmediateDestinationSlice : Prop :=
  ∀ (c : Config) (rt : RegIdx),
    (c.wbImmDestSlice = ⟨16, 21⟩ → immDest c rt = rt) ∧
    (c.wbImmDestSlice.withinImmDest = true →
      (immDest c rt).toNat =
        rt.toNat / 2 ^ (c.wbImmDestSlice.start - 16) % 2 ^ (c.wbImmDestSlice.stop - c.wbImmDestSlice.start))

/-- R190, R192: a load in range; one out of range raises OutOfRange in memory-access and writes nothing. -/
def Obligations.LoadWord : Prop :=
  ∀ (d : DecodeIn) (sD sE sM sW : State), IsOpcode 0x23 d.instr →
    decode d.instr = .ok (.lw (rtOf d.instr) (imm16Of d.instr) (rsOf d.instr)) ∧
    (sM.slotOf (ea sD d.instr) < sM.unitSize →
      Passes (.lw (rtOf d.instr) (imm16Of d.instr) (rsOf d.instr)) d sD sE sM sW
        (fun t => t.touch (ea sD d.instr))
        (fun t => t.writeReg (rtDest t d.instr) (sM.wordAt (ea sD d.instr))) false) ∧
    (sM.unitSize ≤ sM.slotOf (ea sD d.instr) →
      AccessRaises (.lw (rtOf d.instr) (imm16Of d.instr) (rsOf d.instr)) d sD sE sM
        (.outOfRange (sM.slotOf (ea sD d.instr))))

/-- R191, R192: a store in range, of the loaded value SW_DATA_INDEX picks; one out of range raises OutOfRange in memory-access. -/
def Obligations.StoreWord : Prop :=
  ∀ (d : DecodeIn) (sD sE sM sW : State), IsOpcode 0x2B d.instr →
    decode d.instr = .ok (.sw (rtOf d.instr) (imm16Of d.instr) (rsOf d.instr)) ∧
    (sM.slotOf (ea sD d.instr) < sM.unitSize →
      Passes (.sw (rtOf d.instr) (imm16Of d.instr) (rsOf d.instr)) d sD sE sM sW
        (fun t => t.putWord (ea sD d.instr)
          (match sM.cfg.swDataIndex with
            | .index0 => xRs sD d.instr
            | .index1 => xRt sD d.instr))
        id false) ∧
    (sM.unitSize ≤ sM.slotOf (ea sD d.instr) →
      AccessRaises (.sw (rtOf d.instr) (imm16Of d.instr) (rsOf d.instr)) d sD sE sM
        (.outOfRange (sM.slotOf (ea sD d.instr))))

/-- R195, R196, R203: the pc becomes the register as read in decode; `jalr` also writes the pc of its execute stage plus 2 to a register. Which
one is the parameter JALR_LINK_DEST (R5, U7): `rd` is the spec's decision D13, the link register and none its other values (log entry 17). -/
def Obligations.IndirectJumps : Prop :=
  ∀ (d : DecodeIn) (sD sE sM sW : State),
    (IsPrimary 0x08 d.instr → decode d.instr = .ok (.jr (rsOf d.instr)) ∧
      Passes (.jr (rsOf d.instr)) d sD sE sM sW id (fun t => t.pcSet (xRs sD d.instr)) false) ∧
    (IsPrimary 0x09 d.instr → decode d.instr = .ok (.jalr (rdOf d.instr) (rsOf d.instr)) ∧
      Passes (.jalr (rdOf d.instr) (rsOf d.instr)) d sD sE sM sW id
        (fun t =>
          let u := t.pcSet (xRs sD d.instr)
          let link := mod32 (sE.pc.toNat + 2)
          match t.cfg.jalrLinkDest with
          | .rd => u.writeReg (rdOf d.instr) link
          | .linkReg => u.writeReg t.cfg.linkReg link
          | .none => u) false)

/-- R197 to R200: the target is the immediate itself. How its 16 bits become an address is the parameter BRANCH_IMM_EXT (R5): zero-extended by the
spec's decision D8, sign-extended under the other value (log entry 16). An opcode-1 word is `bltz` whatever its `rt` field holds. -/
def Obligations.ConditionalBranches : Prop :=
  BranchOp (IsOpcode 0x04) (fun w => .beq (rsOf w) (rtOf w) (imm16Of w)) (fun s w => xRs s w = xRt s w) ∧
  BranchOp (IsOpcode 0x05) (fun w => .bne (rsOf w) (rtOf w) (imm16Of w)) (fun s w => xRs s w ≠ xRt s w) ∧
  BranchOp (IsOpcode 0x01) (fun w => .bltz (rsOf w) (imm16Of w)) (fun s w => (xRs s w).toInt < 0)

/-- R201 to R204: the low 28 bits of the pc, as it stands in write-back, become the field times 4, a shift that R201 infers (log entry 33); `jal` also
writes the pc of its execute stage plus 2 (R203) to the link register, LINK_REG by decision D12 (log entry 17). -/
def Obligations.AbsoluteJumps : Prop :=
  ∀ (d : DecodeIn) (sD sE sM sW : State),
    (IsOpcode 0x02 d.instr → decode d.instr = .ok (.j (tgt26Of d.instr)) ∧
      Passes (.j (tgt26Of d.instr)) d sD sE sM sW id
        (fun t => t.pcSet (t.pc.extractLsb' 28 4 ++ tgt26Of d.instr ++ (0 : BitVec 2))) false) ∧
    (IsOpcode 0x03 d.instr → decode d.instr = .ok (.jal (tgt26Of d.instr)) ∧
      Passes (.jal (tgt26Of d.instr)) d sD sE sM sW id
        (fun t => (t.pcSet (t.pc.extractLsb' 28 4 ++ tgt26Of d.instr ++ (0 : BitVec 2))).writeReg t.cfg.linkReg
          (mod32 (sE.pc.toNat + 2))) false)

/-- R210, the part of the instruction: bits 25:6 are ignored, nothing is written, and write-back's output carries the termination flag. -/
def Obligations.SystemCallOnlyQuits : Prop :=
  ∀ (d : DecodeIn) (sD sE sM sW : State), IsPrimary 0x0C d.instr →
    decode d.instr = .ok .syscall ∧ Passes .syscall d sD sE sM sW id id true

/-! ## Frames -/

/-- The frame of the primary-format instructions that write a register (R166, R170), in every stage. -/
def Obligations.PrimaryWritersFrame : Prop :=
  ∀ (i : Instr) (rd : RegIdx) (s t : State), primaryDest i = some rd → exec i s = .next t →
    SameRegsBut [rd] s t ∧ t.pc = s.pc ∧ SameAcc s t ∧ SameMemory s t ∧ SameElsewhere s t

/-- The frame of the immediate-format instructions that write a register (R180, R190), in every stage. A load stores nothing: every address
of memory reads as before, though in a sparse memory it may map an address (R53). -/
def Obligations.ImmediateWritersFrame : Prop :=
  ∀ (i : Instr) (rt : RegIdx) (s t : State), immediateDest i = some rt → s.MemoryOk → exec i s = .next t →
    SameRegsBut [immDest s.cfg rt] s t ∧ t.pc = s.pc ∧ SameAcc s t ∧ t.mem = s.mem ∧ (∀ a, t.wordAt a = s.wordAt a) ∧
      SameElsewhere s t

/-- The frame of `mult multu div divu` (R170) and of `syscall` (R210), in every stage: no general register, no pc, no memory; a `syscall` leaves
the accumulator too. -/
def Obligations.ProducersAndSystemCallFrame : Prop :=
  ∀ (i : Instr) (s t : State), (isProducer i = true ∨ i = .syscall) → exec i s = .next t →
    SameRegsBut [] s t ∧ t.pc = s.pc ∧ SameMemory s t ∧ SameElsewhere s t ∧ (i = .syscall → SameAcc s t)

/-- The frame of the control transfers (45_control_transfer.md): `jr`, the branches and `j` write no register, `jalr` only its link
destination, `jal` only the link register; none touches memory or the accumulator. -/
def Obligations.TransfersFrame : Prop :=
  ∀ (s t : State),
    (∀ i, isPlainTransfer i = true → exec i s = .next t →
      SameRegsBut [] s t ∧ SameAcc s t ∧ SameMemory s t ∧ SameElsewhere s t) ∧
    (∀ rd rs, exec (.jalr rd rs) s = .next t →
      SameRegsBut (match s.cfg.jalrLinkDest with
        | .rd => [rd]
        | .linkReg => [s.cfg.linkReg]
        | .none => []) s t ∧ SameAcc s t ∧ SameMemory s t ∧ SameElsewhere s t) ∧
    (∀ field, exec (.jal field) s = .next t →
      SameRegsBut [s.cfg.linkReg] s t ∧ SameAcc s t ∧ SameMemory s t ∧ SameElsewhere s t)

/-- The frame of `sw` (R191): in memory-access it stores at the address in its payload, the low 32 bits of the execute result, and every other address
reads as before; in the other stages every address does. Registers, pc and accumulator never change. -/
def Obligations.StoreFrame : Prop :=
  ∀ (rt rs : RegIdx) (imm : BitVec 16) (s t : State), s.MemoryOk → exec (.sw rt imm rs) s = .next t →
    SameRegsBut [] s t ∧ t.pc = s.pc ∧ SameAcc s t ∧ SameElsewhere s t ∧
    (∀ p, s.phase = .memoryAccess → s.latches.memoryAccess = some p →
      t.wordAt (lowWord p.result) = stored s.cfg p.vals ∧ ∀ a, a ≠ lowWord p.result → t.wordAt a = s.wordAt a) ∧
    ((s.phase ≠ .memoryAccess ∨ s.latches.memoryAccess = none) → ∀ a, t.wordAt a = s.wordAt a)

/-! ## Registers, memory, pc -/

/-- R22: register 0 is 0 at setup; and under either reading of it, what a read gives after a write. Under `initialised_only` it is a register
like any other; under `hardwired` a write to it has no effect and it always reads 0. -/
def Obligations.RegisterReadAfterWrite : Prop :=
  (∀ c : Config, (State.construct c).readReg 0 = 0) ∧
  ∀ (s : State) (r r' : RegIdx) (v : Word),
    (s.writeReg r v).readReg r' =
      if s.cfg.r0Policy = .hardwired ∧ r' = 0 then 0 else if r' = r then v else s.readReg r'

/-- R50, R51 and R53, in both variants: a load or store in range succeeds and the load gives the word held; one at or above the size raises
OutOfRange, with the address, or in a sparse memory the slot, which R53 infers; a load after a store to the same address gives the word stored, and a store
changes no other address. The sparse variant wraps a fresh flat unit (log entry 6). -/
def Obligations.MemoryUnitContract : Prop :=
  ∀ (s : State) (a v : Word), s.MemoryOk →
    (s.unitSize ≤ s.slotOf a →
      s.memRead a = .error (.outOfRange (s.slotOf a)) ∧ s.memWrite a v = .error (.outOfRange (s.slotOf a))) ∧
    (s.slotOf a < s.unitSize →
      (∃ t, s.memRead a = .ok (t, s.wordAt a) ∧ ∀ b, t.wordAt b = s.wordAt b) ∧
      ∃ t, s.memWrite a v = .ok t ∧ (∃ u, t.memRead a = .ok (u, v)) ∧ ∀ b, b ≠ a → t.wordAt b = s.wordAt b)

/-- R53: in a sparse memory an access, a load or a store, maps its address if it is new, to the next slot; every address mapped before keeps its slot,
and two addresses never share one. And for ever: no step takes a mapping away or moves it. -/
def Obligations.SparseSlotsAreStable : Prop :=
  (∀ (s t : State) (a : Word) (n : Nat), s.cfg.memKind = .sparse n → s.MemoryOk →
    ((∃ v, s.memRead a = .ok (t, v)) ∨ ∃ v, s.memWrite a v = .ok t) →
    (∀ b ∈ s.slots, t.slotOf b = s.slotOf b) ∧
    (∀ b c, b ∈ t.slots → c ∈ t.slots → t.slotOf b = t.slotOf c → b = c) ∧
    (a ∈ s.slots → t.slots = s.slots) ∧ (a ∉ s.slots → t.slots = s.slots ++ [a] ∧ t.slotOf a = s.slots.length)) ∧
  ∀ (s t : State) (n : Nat), s.cfg.memKind = .sparse n → step s = .next t →
    ∀ b ∈ s.slots, b ∈ t.slots ∧ t.slotOf b = s.slotOf b

/-- R123: the low `n` bits of the pc become those of the value, the others stay. -/
def Obligations.SetLowBitsSplices : Prop :=
  ∀ (s : State) (v : Word) (n k : Nat), n ≤ 32 →
    (s.pcSetLowBits v n).pc.getLsbD k = if k < n then v.getLsbD k else s.pc.getLsbD k

/-! ## Stages and the cycle -/

/-- R111, R112, R113, R115: a stage is busy exactly when its counter is above 0. `accept` on an idle stage latches its input, bubble or not, sets
its latency to 1, so that it is busy until the next tick, and leaves the other counters; on a busy stage it is the contract violation (R115).
`tick` subtracts 1 from every counter, clamped at 0. That a bubble is latched like any other input and sets the latency all the same is an
inference that R112 marks as its own (derived from R124). -/
def Obligations.AcceptTickContract : Prop :=
  ∀ (s : State) (st : Stage),
    (s.busy st = true ↔ 0 < s.lat.get st) ∧
    (s.lat.get st = 0 → ∃ t, s.accept st = .next t ∧ t.lat.get st = 1 ∧ t.busy st = true ∧ t.tickAll.busy st = false ∧
      (∀ st', st' ≠ st → t.lat.get st' = s.lat.get st') ∧
      (st = .fetch → t.latches.fetch = s.outs.snapshot) ∧ (st = .decode → t.latches.decode = s.outs.fetched) ∧
      (st = .execute → t.latches.execute = s.outs.decoded) ∧
      (st = .memoryAccess → t.latches.memoryAccess = s.outs.executed) ∧
      (st = .writeBack → t.latches.writeBack = s.outs.accessed)) ∧
    (0 < s.lat.get st → s.accept st = .fault (.stageContractViolation st)) ∧
    (s.tickAll.lat.get st = s.lat.get st - 1)

/-- R114: a stage that holds a bubble produces a bubble and does nothing at all. -/
def Obligations.BubblesDoNothing : Prop :=
  ∀ (s : State),
    (s.latches.fetch = none → produce .fetch s = .next (s.emitFetched none)) ∧
    (s.latches.decode = none → produce .decode s = .next (s.emitDecoded none)) ∧
    (s.latches.execute = none → produce .execute s = .next (s.emitExecuted none)) ∧
    (s.latches.memoryAccess = none → produce .memoryAccess s = .next (s.emitAccessed none)) ∧
    (s.latches.writeBack = none → produce .writeBack s = .next (s.emitRetired none))

/-- What each stage of a step runs: fetch reads the word at its latched address, decode runs the instruction its word decodes to, the
others the instruction in their latch; each is `exec` of that instruction in that stage. Around it a running core's step counts the cycle, ticks,
takes the pc snapshot, and ends the run or not. -/
def Obligations.StepRunsDecodedInstruction : Prop :=
  (∀ (s : State) (d : DecodeIn) (i : Instr), s.latches.decode = some d → decode d.instr = .ok i →
    produce .decode s = exec i (s.inPhase .decode)) ∧
  (∀ (s : State) (e : ExecuteIn), s.latches.execute = some e → produce .execute s = exec e.insn (s.inPhase .execute)) ∧
  (∀ (s : State) (p : MemoryIn), s.latches.memoryAccess = some p →
    produce .memoryAccess s = exec p.insn (s.inPhase .memoryAccess)) ∧
  (∀ (s : State) (w : WriteBackIn), s.latches.writeBack = some w →
    produce .writeBack s = exec w.insn (s.inPhase .writeBack)) ∧
  (∀ s : State, s.halted = false →
    step s = andThen (pass (beginCycle s).firstAdvancing (takeSnapshot (beginCycle s).firstAdvancing (beginCycle s)))
      fun u => .next (finishCycle (beginCycle s).firstAdvancing u))

/-- R33 and R250, for every configuration: the core right after construction. The accumulator field, the model's own fields and the size of memory are the
model's choice (log entries 5, 7, 8, 10) and not stated. -/
def Obligations.ResetState : Prop :=
  (∀ c : Config, ∀ s, s = State.construct c →
    (∀ r, s.readReg r = 0) ∧ s.pc = 0 ∧ (∀ a, s.wordAt a = 0) ∧ s.slots = [] ∧ s.latches = ⟨none, none, none, none, none⟩ ∧
    s.lat = ⟨0, 1, 1, 1, 1⟩ ∧ s.halted = false ∧ s.error = none ∧ s.cycle = 0) ∧
  State.reset = State.construct Config.default

/-- Every step answers a next state: a fatal error is recorded in the state, never an outcome of the step (R129, R227). The configuration is fixed
at construction (R5), a running core's cycle count goes up by one (R32), and a step on a halted core changes nothing (R124 step 0). -/
def Obligations.StepOutcome : Prop :=
  ∀ s : State, ∃ t, step s = .next t ∧ t.cfg = s.cfg ∧ (s.halted = false → t.cycle = s.cycle + 1) ∧ (s.halted = true → t = s)

/-- The invariant holds at reset, under every well-formed configuration. -/
def Obligations.InvariantAtReset : Prop := State.reset.Inv ∧ ∀ c : Config, c.wf = true → (State.construct c).Inv

/-- Every step keeps the invariant: memory canonical and in range, the sparse map one-to-one, the latches classified as the tables
say, latencies at most 1, the fields of the pass at rest, an error only on a halted core, register 0 under the hard-wired reading. -/
def Obligations.StepKeepsInvariant : Prop := ∀ s t : State, s.Inv → step s = .next t → t.Inv

/-- R126: no stage ever stalls; every stage of every cycle is idle after the tick. -/
def Obligations.NoStageEverStalls : Prop :=
  ∀ s t : State, s.LatencyOk → (beginCycle s).firstAdvancing = 0 ∧ (step s = .next t → t.LatencyOk)

/-- R115, R225: no program and no state, however reached, provokes the contract violation. -/
def Obligations.ContractViolationUnreachable : Prop :=
  ∀ (s t : State) (st st' : Stage), s.halted = false → step s = .next t → s.error = none →
    t.error ≠ some ⟨.stageContractViolation st, st'⟩

/-- R224: with the tables of the spec the error is unreachable, from every state whose latches are classified as the tables say. That the set of
operations without a case is empty is the spec's decision D27 (log entry 26). -/
def Obligations.UnimplementedOperationUnreachable : Prop :=
  ∀ (s t : State) (a w : Word) (st : Stage), s.LatchesClassified → s.halted = false → s.error = none → step s = .next t →
    t.error ≠ some ⟨.unimplementedOperation a w, st⟩

/-- R130, R132: an instruction goes through one stage a cycle. In a cycle without fatal error the word at the latched fetch address
is latched by decode, and each payload moves to the next latch, unchanged but for what its stage adds. -/
def Obligations.PayloadsAdvanceOneStage : Prop :=
  ∀ s t : State, s.LatencyOk → CleanStep s t →
    t.latches.fetch = some ⟨s.pc⟩ ∧
    t.latches.decode = s.latches.fetch.map (fun f => ⟨f, s.wordAt f.addr⟩) ∧
    t.latches.execute.map (·.toDecodeIn) = s.latches.decode ∧
    (∀ e ∈ t.latches.execute, decode e.instr = .ok e.insn) ∧
    t.latches.memoryAccess.map (·.toExecuteIn) = s.latches.execute ∧
    t.latches.writeBack.map (·.toMemoryIn) = s.latches.memoryAccess

/-- R255 and R63: the registers are read in decode before the write-back of the same cycle writes. Of two consecutive cycles, the
instruction in decode in the first (three places after the one in write-back) gets the registers as they were before that write-back, the one behind it
(four places after) gets them as they are after it. -/
def Obligations.RegisterHazardDistance : Prop :=
  ∀ s t u : State, s.LatencyOk → CleanStep s t → CleanStep t u →
    (∀ e ∈ t.latches.execute, e.vals = s.loadOperands e.insn.format e.instr) ∧
    (∀ e ∈ u.latches.execute, e.vals = t.loadOperands e.insn.format e.instr)

/-- What a cycle without fatal error commits: what the instruction in the write-back latch commits, in a state that differs from the one at
the start of the cycle in no register, pc (but for the increment before the pass), accumulator or configuration; a bubble commits nothing. With the pc
increment after the pass (R127), the pc that write-back leaves is incremented, so a transfer to T leaves T + 1. -/
def Obligations.CycleCommitsWriteBack : Prop :=
  ∀ s t : State, s.LatencyOk → CleanStep s t →
    (s.latches.writeBack = none → t.regs = s.regs ∧ t.acc = s.acc ∧ t.accWritten = s.accWritten ∧ t.pc = s.pc + 1) ∧
    (∀ w, s.latches.writeBack = some w → ∃ m v : State,
      m.cfg = s.cfg ∧ m.regs = s.regs ∧ m.acc = s.acc ∧ m.accWritten = s.accWritten ∧
      m.pc = (match s.cfg.pcIncPhase with
        | .beforePass => s.pc + 1
        | .afterPass => s.pc) ∧
      exec w.insn (m.committing w) = .next v ∧
      t.regs = v.regs ∧ t.acc = v.acc ∧ t.accWritten = v.accWritten ∧
      t.pc = (match s.cfg.pcIncPhase with
        | .beforePass => v.pc
        | .afterPass => v.pc + 1))

/-- R23: a cycle writes at most one register. -/
def Obligations.AtMostOneRegisterPerCycle : Prop :=
  ∀ s t : State, step s = .next t → ∃ r : RegIdx, SameRegsBut [r] s t

/-- R25: the accumulator is written only by the write-back of a multiply or divide, with its whole result. -/
def Obligations.OnlyProducersWriteAccumulator : Prop :=
  ∀ s t : State, step s = .next t → SameAcc s t ∨
    ∃ w, s.latches.writeBack = some w ∧ isProducer w.insn = true ∧ t.acc = w.result ∧ t.accWritten = true

/-- R55: main memory is written only by the memory-access stage of a `sw`, one word at its effective address. -/
def Obligations.OnlyStoresWriteMemory : Prop :=
  ∀ s t : State, s.MemoryOk → step s = .next t → (∀ a, t.wordAt a = s.wordAt a) ∨
    ∃ p rt imm rs, s.latches.memoryAccess = some p ∧ p.insn = .sw rt imm rs ∧
      t.wordAt (lowWord p.result) = stored s.cfg p.vals ∧ ∀ a, a ≠ lowWord p.result → t.wordAt a = s.wordAt a

/-- R24, R127: the pc is changed only by the increment and by the write-back of a control transfer. Where no transfer is in write-back it goes up by
one; a fatal error in the pass leaves out the increment that stands after it (R129). -/
def Obligations.OnlyTransfersRedirectPc : Prop :=
  ∀ s t : State, s.LatencyOk → s.halted = false → s.error = none → step s = .next t →
    (∀ w, s.latches.writeBack = some w → isTransfer w.insn = false) →
    t.pc = if s.cfg.pcIncPhase = .afterPass ∧ t.error ≠ none then s.pc else s.pc + 1

/-- R258: a register jump in write-back sets the pc that fetch accepts in the next cycle; the address fetch accepts in the jump's own write-back
cycle is still the old pc, and it is not squashed. -/
def Obligations.TransferReachesFetchNextCycle : Prop :=
  ∀ (s t u : State) (w : WriteBackIn) (rs : RegIdx), s.LatencyOk → s.cfg.pcIncPhase = .beforePass →
    CleanStep s t → CleanStep t u → s.latches.writeBack = some w → w.insn = .jr rs →
    t.latches.fetch = some ⟨s.pc⟩ ∧ u.latches.fetch = some ⟨lowWord w.result⟩ ∧
    u.latches.decode = some ⟨⟨s.pc⟩, t.wordAt s.pc⟩

/-- R257: a retrieval right behind a multiply or divide sees its result: the commits of the two, in two consecutive cycles, need no distance. Under the
hard-wired reading of register 0 a retrieval into it writes nothing. -/
def Obligations.AccumulatorHasNoHazard : Prop :=
  ∀ (s t u : State) (w : WriteBackIn) (p : MemoryIn) (rd : RegIdx), s.LatencyOk →
    CleanStep s t → CleanStep t u → s.latches.writeBack = some w → isProducer w.insn = true →
    s.latches.memoryAccess = some p →
    (p.insn = .mflo rd → u.readReg rd = if s.cfg.r0Policy = .hardwired ∧ rd = 0 then 0 else lowWord w.result) ∧
    (p.insn = .mfhi rd → u.readReg rd = if s.cfg.r0Policy = .hardwired ∧ rd = 0 then 0 else highWord w.result)

/-- R65, R260: in one cycle fetch reads before memory-access writes, so the word fetched in the cycle of a store is the old one, and the next
cycle's fetch sees the stored one. -/
def Obligations.FetchSeesEarlierStores : Prop :=
  ∀ (s t u : State) (p : MemoryIn) (f : FetchIn) (rt rs : RegIdx) (imm : BitVec 16), s.Inv →
    CleanStep s t → CleanStep t u → s.latches.memoryAccess = some p → p.insn = .sw rt imm rs → s.latches.fetch = some f →
    t.latches.decode = some ⟨f, s.wordAt f.addr⟩ ∧
    (s.pc = lowWord p.result → u.latches.decode = some ⟨⟨s.pc⟩, stored s.cfg p.vals⟩)

/-- R128, R229: a cycle that raises no fatal error ends the run exactly when a `syscall` is in write-back. -/
def Obligations.RunEndsExactlyOnSystemCall : Prop :=
  ∀ s t : State, s.LatencyOk → CleanStep s t →
    (t.halted = true ↔ ∃ w, s.latches.writeBack = some w ∧ w.insn = .syscall)

/-- R227: a fatal error halts the core and commits nothing: no register, no accumulator, the pc not redirected, and no word of memory, since
every stage that can raise one comes before write-back and none raises one after a store. -/
def Obligations.FatalErrorCommitsNothing : Prop :=
  ∀ (s t : State) (x : FatalError), s.LatencyOk → s.MemoryOk → s.halted = false → s.error = none →
    step s = .next t → t.error = some x →
    t.halted = true ∧ t.cycle = s.cycle + 1 ∧ x.stage ≠ .writeBack ∧ t.regs = s.regs ∧ SameAcc s t ∧
    t.pc = (if s.cfg.pcIncPhase = .beforePass then s.pc + 1 else s.pc) ∧ ∀ a, t.wordAt a = s.wordAt a

/-- R228: the order of detection is the order of the pass, whatever the older instructions do. An out-of-range fetch wins over everything, then an
illegal word in decode, then an undefined division in execute, then an out-of-range access; each wins over a `syscall` in write-back too. Write-back
itself raises nothing in this model (log entry 7): if the four raise nothing, the cycle ends without an error, and a `syscall` in write-back
ends the run. -/
def Obligations.YoungestErrorWins : Prop :=
  ∀ (s t : State), s.LatencyOk → s.LatchesClassified → s.halted = false → s.error = none → step s = .next t →
    (∀ f, s.latches.fetch = some f → s.unitSize ≤ s.slotOf f.addr →
      t.error = some ⟨.outOfRange (s.slotOf f.addr), .fetch⟩ ∧ t.halted = true) ∧
    (∀ d, FetchFits s → s.latches.decode = some d → Illegal d.instr →
      t.error = some ⟨.unknownEncoding d.addr d.instr, .decode⟩ ∧ t.halted = true) ∧
    (∀ e a b c, FetchFits s → DecodeFits s → s.latches.execute = some e → e.vals = .primary a b c →
      UndefinedDivision e.insn a b → t.error = some ⟨.undefinedArithmetic e.addr a b, .execute⟩ ∧ t.halted = true) ∧
    (∀ p, FetchFits s → DecodeFits s → ExecuteFits s → s.latches.memoryAccess = some p → isAccess p.insn = true →
      s.unitSize ≤ (fetchTouched s).slotOf (lowWord p.result) →
      t.error = some ⟨.outOfRange ((fetchTouched s).slotOf (lowWord p.result)), .memoryAccess⟩ ∧ t.halted = true) ∧
    (FetchFits s → DecodeFits s → ExecuteFits s → AccessFits s → t.error = none ∧
      (t.halted = true ↔ ∃ w, s.latches.writeBack = some w ∧ w.insn = .syscall))

/-- R131: the address traced for a stage in a cycle is the one traced for the stage before it in the cycle before; fetch is traced with the pc. -/
def Obligations.TraceFollowsThePipeline : Prop :=
  ∀ s t : State, s.LatencyOk → CleanStep s t → t.halted = false →
    t.traceOf.map (·.addr) = some s.pc :: (s.traceOf.map (·.addr)).take 4 ∧
    t.traceOf.map (·.cycle) = List.replicate 5 (s.cycle + 2) ∧
    t.traceOf.map (·.stage) = [.fetch, .decode, .execute, .memoryAccess, .writeBack]

/-! ## Host -/

/-- R54, R222, in a flat memory of any size: a block that fits lies at consecutive addresses, and no other word changes; one that does not fit raises
OutOfRange at the first address that does not exist, the words below it stored. At the largest size that address is 2^32, the exact sum of R54 (log
entry 36). -/
def Obligations.StoreBlockWritesRun : Prop :=
  ∀ (s : State) (a : Word) (ws : List Word), s.cfg.memKind = .flat → s.MemoryOk → s.cfg.memSize ≤ 2 ^ 32 →
    (a.toNat + ws.length ≤ s.cfg.memSize →
      ∃ t, s.storeBlock a ws = (t, none) ∧ ∀ b : Word, t.wordAt b =
        if a.toNat ≤ b.toNat ∧ b.toNat < a.toNat + ws.length then ws.getD (b.toNat - a.toNat) 0 else s.wordAt b) ∧
    (ws ≠ [] → s.cfg.memSize < a.toNat + ws.length →
      ∃ t, s.storeBlock a ws = (t, some (.outOfRange (max a.toNat s.cfg.memSize))) ∧ ∀ b : Word, t.wordAt b =
        if a.toNat ≤ b.toNat ∧ b.toNat < s.cfg.memSize then ws.getD (b.toNat - a.toNat) 0 else s.wordAt b)

/-- R251, R252 (b): the standard load. A loaded image has n words: the image itself if it ends in a `syscall` word, else one more. If n words fit, the
image lies at the addresses from 0 on, the word 0x0000000C behind it where it was appended, and no other word changes; the return-address register
holds n - 1, the address of the last word loaded, and the other registers what the host gave them, register 0 and those it did not give unchanged; the pc is where
it was. If they do not fit, the load raises OutOfRange. That the return-address register is LINK_REG is decision D12 (log entry 17), and what counts as a
`syscall` word is log entry 28. -/
def Obligations.LoaderPresetsReturnAddress : Prop :=
  ∀ (s : State) (image : List Word) (regs : List (RegIdx × Word)) (n : Nat), s.cfg.memKind = .flat → s.MemoryOk →
    s.cfg.memSize ≤ 2 ^ 32 → s.cfg.linkReg ≠ 0 →
    (EndsInSyscall image → n = image.length) → (¬ EndsInSyscall image → n = image.length + 1) →
    (n ≤ s.cfg.memSize → ∃ t, s.standardLoad image regs = (t, none) ∧ t.pc = s.pc ∧
      (∀ b : Word, b.toNat < image.length → t.wordAt b = image.getD b.toNat 0) ∧
      (¬ EndsInSyscall image → ∀ b : Word, b.toNat = image.length → t.wordAt b = 0x0000000C) ∧
      (∀ b : Word, n ≤ b.toNat → t.wordAt b = s.wordAt b) ∧
      (t.readReg s.cfg.linkReg).toNat = n - 1 ∧
      (∀ r v, (r, v) ∈ regs → r ≠ 0 → r ≠ s.cfg.linkReg → (∀ v', (r, v') ∈ regs → v' = v) → t.readReg r = v) ∧
      (∀ r, r ≠ s.cfg.linkReg → (r = 0 ∨ ∀ v, (r, v) ∉ regs) → t.readReg r = s.readReg r)) ∧
    (s.cfg.memSize < n → ∃ t, s.standardLoad image regs = (t, some (.outOfRange s.cfg.memSize)))
end

