-- ==== Sys2Proof/Laws/Encoding.lean ====
section
/-!
SUPPORT. The fields of the three word layouts (30_encoding.md R81, R82): each field of a laid-out word is what was laid there.
-/

namespace Sys2Proof

theorem opcodeOf_primaryWord (rs rt rd : RegIdx) (shamt : BitVec 5) (funct : BitVec 6) :
    opcodeOf (primaryWord rs rt rd shamt funct) = 0 := by
  apply BitVec.eq_of_getLsbD_eq
  intro k hk
  have hk : k < 6 := hk
  simp only [opcodeOf, slice, primaryWord, BitVec.getLsbD_extractLsb', BitVec.getLsbD_append, hk, decide_true, Bool.true_and]
  split_ifs <;> first | omega | (congr 1; omega)

theorem rsOf_primaryWord (rs rt rd : RegIdx) (shamt : BitVec 5) (funct : BitVec 6) :
    rsOf (primaryWord rs rt rd shamt funct) = rs := by
  apply BitVec.eq_of_getLsbD_eq
  intro k hk
  have hk : k < 5 := hk
  simp only [rsOf, slice, primaryWord, BitVec.getLsbD_extractLsb', BitVec.getLsbD_append, hk, decide_true, Bool.true_and]
  split_ifs <;> first | omega | (congr 1; omega)

theorem rtOf_primaryWord (rs rt rd : RegIdx) (shamt : BitVec 5) (funct : BitVec 6) :
    rtOf (primaryWord rs rt rd shamt funct) = rt := by
  apply BitVec.eq_of_getLsbD_eq
  intro k hk
  have hk : k < 5 := hk
  simp only [rtOf, slice, primaryWord, BitVec.getLsbD_extractLsb', BitVec.getLsbD_append, hk, decide_true, Bool.true_and]
  split_ifs <;> first | omega | (congr 1; omega)

theorem rdOf_primaryWord (rs rt rd : RegIdx) (shamt : BitVec 5) (funct : BitVec 6) :
    rdOf (primaryWord rs rt rd shamt funct) = rd := by
  apply BitVec.eq_of_getLsbD_eq
  intro k hk
  have hk : k < 5 := hk
  simp only [rdOf, slice, primaryWord, BitVec.getLsbD_extractLsb', BitVec.getLsbD_append, hk, decide_true, Bool.true_and]
  split_ifs <;> first | omega | (congr 1; omega)

theorem shamtOf_primaryWord (rs rt rd : RegIdx) (shamt : BitVec 5) (funct : BitVec 6) :
    shamtOf (primaryWord rs rt rd shamt funct) = shamt := by
  apply BitVec.eq_of_getLsbD_eq
  intro k hk
  have hk : k < 5 := hk
  simp only [shamtOf, slice, primaryWord, BitVec.getLsbD_extractLsb', BitVec.getLsbD_append, hk, decide_true, Bool.true_and]
  split_ifs <;> first | omega | (congr 1; omega)

theorem functOf_primaryWord (rs rt rd : RegIdx) (shamt : BitVec 5) (funct : BitVec 6) :
    functOf (primaryWord rs rt rd shamt funct) = funct := by
  apply BitVec.eq_of_getLsbD_eq
  intro k hk
  have hk : k < 6 := hk
  simp only [functOf, slice, primaryWord, BitVec.getLsbD_extractLsb', BitVec.getLsbD_append, hk, decide_true, Bool.true_and]
  split_ifs <;> first | omega | (congr 1; omega)

theorem opcodeOf_immediateWord (opcode : BitVec 6) (rs rt : RegIdx) (imm : BitVec 16) :
    opcodeOf (immediateWord opcode rs rt imm) = opcode := by
  apply BitVec.eq_of_getLsbD_eq
  intro k hk
  have hk : k < 6 := hk
  simp only [opcodeOf, slice, immediateWord, BitVec.getLsbD_extractLsb', BitVec.getLsbD_append, hk, decide_true, Bool.true_and]
  split_ifs <;> first | omega | (congr 1; omega)

theorem rsOf_immediateWord (opcode : BitVec 6) (rs rt : RegIdx) (imm : BitVec 16) :
    rsOf (immediateWord opcode rs rt imm) = rs := by
  apply BitVec.eq_of_getLsbD_eq
  intro k hk
  have hk : k < 5 := hk
  simp only [rsOf, slice, immediateWord, BitVec.getLsbD_extractLsb', BitVec.getLsbD_append, hk, decide_true, Bool.true_and]
  split_ifs <;> first | omega | (congr 1; omega)

theorem rtOf_immediateWord (opcode : BitVec 6) (rs rt : RegIdx) (imm : BitVec 16) :
    rtOf (immediateWord opcode rs rt imm) = rt := by
  apply BitVec.eq_of_getLsbD_eq
  intro k hk
  have hk : k < 5 := hk
  simp only [rtOf, slice, immediateWord, BitVec.getLsbD_extractLsb', BitVec.getLsbD_append, hk, decide_true, Bool.true_and]
  split_ifs <;> first | omega | (congr 1; omega)

theorem imm16Of_immediateWord (opcode : BitVec 6) (rs rt : RegIdx) (imm : BitVec 16) :
    imm16Of (immediateWord opcode rs rt imm) = imm := by
  apply BitVec.eq_of_getLsbD_eq
  intro k hk
  have hk : k < 16 := hk
  simp only [imm16Of, slice, immediateWord, BitVec.getLsbD_extractLsb', BitVec.getLsbD_append, hk, decide_true, Bool.true_and]
  split_ifs <;> first | omega | (congr 1; omega)

theorem opcodeOf_jumpWord (opcode : BitVec 6) (field : BitVec 26) :
    opcodeOf (jumpWord opcode field) = opcode := by
  apply BitVec.eq_of_getLsbD_eq
  intro k hk
  have hk : k < 6 := hk
  simp only [opcodeOf, slice, jumpWord, BitVec.getLsbD_extractLsb', BitVec.getLsbD_append, hk, decide_true, Bool.true_and]
  split_ifs <;> first | omega | (congr 1; omega)

theorem tgt26Of_jumpWord (opcode : BitVec 6) (field : BitVec 26) :
    tgt26Of (jumpWord opcode field) = field := by
  apply BitVec.eq_of_getLsbD_eq
  intro k hk
  have hk : k < 26 := hk
  simp only [tgt26Of, slice, jumpWord, BitVec.getLsbD_extractLsb', BitVec.getLsbD_append, hk, decide_true, Bool.true_and]
  split_ifs <;> first | omega | (congr 1; omega)

end Sys2Proof
end

