-- ==== Sys2Proof/Laws/State.lean ====
section
/-!
SUPPORT. For each update of the state, what each field is after it. A later proof rewrites with these and unfolds no update.
-/

namespace Sys2Proof.Machine

/-! writeReg -/

@[simp] theorem State.writeReg_cfg (s : State) (r : RegIdx) (v : Word) : (s.writeReg r v).cfg = s.cfg := rfl

@[simp] theorem State.writeReg_regs (s : State) (r : RegIdx) (v : Word) : (s.writeReg r v).regs = regsAfterWrite s.cfg s.regs r v := rfl

@[simp] theorem State.writeReg_pc (s : State) (r : RegIdx) (v : Word) : (s.writeReg r v).pc = s.pc := rfl

@[simp] theorem State.writeReg_acc (s : State) (r : RegIdx) (v : Word) : (s.writeReg r v).acc = s.acc := rfl

@[simp] theorem State.writeReg_accWritten (s : State) (r : RegIdx) (v : Word) : (s.writeReg r v).accWritten = s.accWritten := rfl

@[simp] theorem State.writeReg_mem (s : State) (r : RegIdx) (v : Word) : (s.writeReg r v).mem = s.mem := rfl

@[simp] theorem State.writeReg_slots (s : State) (r : RegIdx) (v : Word) : (s.writeReg r v).slots = s.slots := rfl

@[simp] theorem State.writeReg_latches (s : State) (r : RegIdx) (v : Word) : (s.writeReg r v).latches = s.latches := rfl

@[simp] theorem State.writeReg_lat (s : State) (r : RegIdx) (v : Word) : (s.writeReg r v).lat = s.lat := rfl

@[simp] theorem State.writeReg_halted (s : State) (r : RegIdx) (v : Word) : (s.writeReg r v).halted = s.halted := rfl

@[simp] theorem State.writeReg_error (s : State) (r : RegIdx) (v : Word) : (s.writeReg r v).error = s.error := rfl

@[simp] theorem State.writeReg_cycle (s : State) (r : RegIdx) (v : Word) : (s.writeReg r v).cycle = s.cycle := rfl

@[simp] theorem State.writeReg_phase (s : State) (r : RegIdx) (v : Word) : (s.writeReg r v).phase = s.phase := rfl

@[simp] theorem State.writeReg_outs (s : State) (r : RegIdx) (v : Word) : (s.writeReg r v).outs = s.outs := rfl

/-! pcSet -/

@[simp] theorem State.pcSet_cfg (s : State) (a : Word) : (s.pcSet a).cfg = s.cfg := rfl

@[simp] theorem State.pcSet_regs (s : State) (a : Word) : (s.pcSet a).regs = s.regs := rfl

@[simp] theorem State.pcSet_pc (s : State) (a : Word) : (s.pcSet a).pc = a := rfl

@[simp] theorem State.pcSet_acc (s : State) (a : Word) : (s.pcSet a).acc = s.acc := rfl

@[simp] theorem State.pcSet_accWritten (s : State) (a : Word) : (s.pcSet a).accWritten = s.accWritten := rfl

@[simp] theorem State.pcSet_mem (s : State) (a : Word) : (s.pcSet a).mem = s.mem := rfl

@[simp] theorem State.pcSet_slots (s : State) (a : Word) : (s.pcSet a).slots = s.slots := rfl

@[simp] theorem State.pcSet_latches (s : State) (a : Word) : (s.pcSet a).latches = s.latches := rfl

@[simp] theorem State.pcSet_lat (s : State) (a : Word) : (s.pcSet a).lat = s.lat := rfl

@[simp] theorem State.pcSet_halted (s : State) (a : Word) : (s.pcSet a).halted = s.halted := rfl

@[simp] theorem State.pcSet_error (s : State) (a : Word) : (s.pcSet a).error = s.error := rfl

@[simp] theorem State.pcSet_cycle (s : State) (a : Word) : (s.pcSet a).cycle = s.cycle := rfl

@[simp] theorem State.pcSet_phase (s : State) (a : Word) : (s.pcSet a).phase = s.phase := rfl

@[simp] theorem State.pcSet_outs (s : State) (a : Word) : (s.pcSet a).outs = s.outs := rfl

/-! pcIncrement -/

@[simp] theorem State.pcIncrement_cfg (s : State) (n : Word) : (s.pcIncrement n).cfg = s.cfg := rfl

@[simp] theorem State.pcIncrement_regs (s : State) (n : Word) : (s.pcIncrement n).regs = s.regs := rfl

@[simp] theorem State.pcIncrement_pc (s : State) (n : Word) : (s.pcIncrement n).pc = s.pc + n := rfl

@[simp] theorem State.pcIncrement_acc (s : State) (n : Word) : (s.pcIncrement n).acc = s.acc := rfl

@[simp] theorem State.pcIncrement_accWritten (s : State) (n : Word) : (s.pcIncrement n).accWritten = s.accWritten := rfl

@[simp] theorem State.pcIncrement_mem (s : State) (n : Word) : (s.pcIncrement n).mem = s.mem := rfl

@[simp] theorem State.pcIncrement_slots (s : State) (n : Word) : (s.pcIncrement n).slots = s.slots := rfl

@[simp] theorem State.pcIncrement_latches (s : State) (n : Word) : (s.pcIncrement n).latches = s.latches := rfl

@[simp] theorem State.pcIncrement_lat (s : State) (n : Word) : (s.pcIncrement n).lat = s.lat := rfl

@[simp] theorem State.pcIncrement_halted (s : State) (n : Word) : (s.pcIncrement n).halted = s.halted := rfl

@[simp] theorem State.pcIncrement_error (s : State) (n : Word) : (s.pcIncrement n).error = s.error := rfl

@[simp] theorem State.pcIncrement_cycle (s : State) (n : Word) : (s.pcIncrement n).cycle = s.cycle := rfl

@[simp] theorem State.pcIncrement_phase (s : State) (n : Word) : (s.pcIncrement n).phase = s.phase := rfl

@[simp] theorem State.pcIncrement_outs (s : State) (n : Word) : (s.pcIncrement n).outs = s.outs := rfl

/-! pcSetLowBits -/

@[simp] theorem State.pcSetLowBits_cfg (s : State) (v : Word) (n : Nat) : (s.pcSetLowBits v n).cfg = s.cfg := rfl

@[simp] theorem State.pcSetLowBits_regs (s : State) (v : Word) (n : Nat) : (s.pcSetLowBits v n).regs = s.regs := rfl

@[simp] theorem State.pcSetLowBits_pc (s : State) (v : Word) (n : Nat) : (s.pcSetLowBits v n).pc = replaceLowBits s.pc v n := rfl

@[simp] theorem State.pcSetLowBits_acc (s : State) (v : Word) (n : Nat) : (s.pcSetLowBits v n).acc = s.acc := rfl

@[simp] theorem State.pcSetLowBits_accWritten (s : State) (v : Word) (n : Nat) : (s.pcSetLowBits v n).accWritten = s.accWritten := rfl

@[simp] theorem State.pcSetLowBits_mem (s : State) (v : Word) (n : Nat) : (s.pcSetLowBits v n).mem = s.mem := rfl

@[simp] theorem State.pcSetLowBits_slots (s : State) (v : Word) (n : Nat) : (s.pcSetLowBits v n).slots = s.slots := rfl

@[simp] theorem State.pcSetLowBits_latches (s : State) (v : Word) (n : Nat) : (s.pcSetLowBits v n).latches = s.latches := rfl

@[simp] theorem State.pcSetLowBits_lat (s : State) (v : Word) (n : Nat) : (s.pcSetLowBits v n).lat = s.lat := rfl

@[simp] theorem State.pcSetLowBits_halted (s : State) (v : Word) (n : Nat) : (s.pcSetLowBits v n).halted = s.halted := rfl

@[simp] theorem State.pcSetLowBits_error (s : State) (v : Word) (n : Nat) : (s.pcSetLowBits v n).error = s.error := rfl

@[simp] theorem State.pcSetLowBits_cycle (s : State) (v : Word) (n : Nat) : (s.pcSetLowBits v n).cycle = s.cycle := rfl

@[simp] theorem State.pcSetLowBits_phase (s : State) (v : Word) (n : Nat) : (s.pcSetLowBits v n).phase = s.phase := rfl

@[simp] theorem State.pcSetLowBits_outs (s : State) (v : Word) (n : Nat) : (s.pcSetLowBits v n).outs = s.outs := rfl

/-! writeAcc -/

@[simp] theorem State.writeAcc_cfg (s : State) (v : DWord) : (s.writeAcc v).cfg = s.cfg := rfl

@[simp] theorem State.writeAcc_regs (s : State) (v : DWord) : (s.writeAcc v).regs = s.regs := rfl

@[simp] theorem State.writeAcc_pc (s : State) (v : DWord) : (s.writeAcc v).pc = s.pc := rfl

@[simp] theorem State.writeAcc_acc (s : State) (v : DWord) : (s.writeAcc v).acc = v := rfl

@[simp] theorem State.writeAcc_accWritten (s : State) (v : DWord) : (s.writeAcc v).accWritten = true := rfl

@[simp] theorem State.writeAcc_mem (s : State) (v : DWord) : (s.writeAcc v).mem = s.mem := rfl

@[simp] theorem State.writeAcc_slots (s : State) (v : DWord) : (s.writeAcc v).slots = s.slots := rfl

@[simp] theorem State.writeAcc_latches (s : State) (v : DWord) : (s.writeAcc v).latches = s.latches := rfl

@[simp] theorem State.writeAcc_lat (s : State) (v : DWord) : (s.writeAcc v).lat = s.lat := rfl

@[simp] theorem State.writeAcc_halted (s : State) (v : DWord) : (s.writeAcc v).halted = s.halted := rfl

@[simp] theorem State.writeAcc_error (s : State) (v : DWord) : (s.writeAcc v).error = s.error := rfl

@[simp] theorem State.writeAcc_cycle (s : State) (v : DWord) : (s.writeAcc v).cycle = s.cycle := rfl

@[simp] theorem State.writeAcc_phase (s : State) (v : DWord) : (s.writeAcc v).phase = s.phase := rfl

@[simp] theorem State.writeAcc_outs (s : State) (v : DWord) : (s.writeAcc v).outs = s.outs := rfl

/-! touch -/

@[simp] theorem State.touch_cfg (s : State) (a : Word) : (s.touch a).cfg = s.cfg := by unfold State.touch; split <;> (try split) <;> rfl

@[simp] theorem State.touch_regs (s : State) (a : Word) : (s.touch a).regs = s.regs := by unfold State.touch; split <;> (try split) <;> rfl

@[simp] theorem State.touch_pc (s : State) (a : Word) : (s.touch a).pc = s.pc := by unfold State.touch; split <;> (try split) <;> rfl

@[simp] theorem State.touch_acc (s : State) (a : Word) : (s.touch a).acc = s.acc := by unfold State.touch; split <;> (try split) <;> rfl

@[simp] theorem State.touch_accWritten (s : State) (a : Word) : (s.touch a).accWritten = s.accWritten := by unfold State.touch; split <;> (try split) <;> rfl

@[simp] theorem State.touch_mem (s : State) (a : Word) : (s.touch a).mem = s.mem := by unfold State.touch; split <;> (try split) <;> rfl

@[simp] theorem State.touch_latches (s : State) (a : Word) : (s.touch a).latches = s.latches := by unfold State.touch; split <;> (try split) <;> rfl

@[simp] theorem State.touch_lat (s : State) (a : Word) : (s.touch a).lat = s.lat := by unfold State.touch; split <;> (try split) <;> rfl

@[simp] theorem State.touch_halted (s : State) (a : Word) : (s.touch a).halted = s.halted := by unfold State.touch; split <;> (try split) <;> rfl

@[simp] theorem State.touch_error (s : State) (a : Word) : (s.touch a).error = s.error := by unfold State.touch; split <;> (try split) <;> rfl

@[simp] theorem State.touch_cycle (s : State) (a : Word) : (s.touch a).cycle = s.cycle := by unfold State.touch; split <;> (try split) <;> rfl

@[simp] theorem State.touch_phase (s : State) (a : Word) : (s.touch a).phase = s.phase := by unfold State.touch; split <;> (try split) <;> rfl

@[simp] theorem State.touch_outs (s : State) (a : Word) : (s.touch a).outs = s.outs := by unfold State.touch; split <;> (try split) <;> rfl

/-! putWord -/

@[simp] theorem State.putWord_cfg (s : State) (a v : Word) : (s.putWord a v).cfg = s.cfg := by simp [State.putWord]

@[simp] theorem State.putWord_regs (s : State) (a v : Word) : (s.putWord a v).regs = s.regs := by simp [State.putWord]

@[simp] theorem State.putWord_pc (s : State) (a v : Word) : (s.putWord a v).pc = s.pc := by simp [State.putWord]

@[simp] theorem State.putWord_acc (s : State) (a v : Word) : (s.putWord a v).acc = s.acc := by simp [State.putWord]

@[simp] theorem State.putWord_accWritten (s : State) (a v : Word) : (s.putWord a v).accWritten = s.accWritten := by simp [State.putWord]

@[simp] theorem State.putWord_mem (s : State) (a v : Word) : (s.putWord a v).mem = s.mem.write (s.slotOf a) v := by simp [State.putWord]

@[simp] theorem State.putWord_slots (s : State) (a v : Word) : (s.putWord a v).slots = (s.touch a).slots := by simp [State.putWord]

@[simp] theorem State.putWord_latches (s : State) (a v : Word) : (s.putWord a v).latches = s.latches := by simp [State.putWord]

@[simp] theorem State.putWord_lat (s : State) (a v : Word) : (s.putWord a v).lat = s.lat := by simp [State.putWord]

@[simp] theorem State.putWord_halted (s : State) (a v : Word) : (s.putWord a v).halted = s.halted := by simp [State.putWord]

@[simp] theorem State.putWord_error (s : State) (a v : Word) : (s.putWord a v).error = s.error := by simp [State.putWord]

@[simp] theorem State.putWord_cycle (s : State) (a v : Word) : (s.putWord a v).cycle = s.cycle := by simp [State.putWord]

@[simp] theorem State.putWord_phase (s : State) (a v : Word) : (s.putWord a v).phase = s.phase := by simp [State.putWord]

@[simp] theorem State.putWord_outs (s : State) (a v : Word) : (s.putWord a v).outs = s.outs := by simp [State.putWord]

/-! emitFetched -/

@[simp] theorem State.emitFetched_cfg (s : State) (o : Option DecodeIn) : (s.emitFetched o).cfg = s.cfg := rfl

@[simp] theorem State.emitFetched_regs (s : State) (o : Option DecodeIn) : (s.emitFetched o).regs = s.regs := rfl

@[simp] theorem State.emitFetched_pc (s : State) (o : Option DecodeIn) : (s.emitFetched o).pc = s.pc := rfl

@[simp] theorem State.emitFetched_acc (s : State) (o : Option DecodeIn) : (s.emitFetched o).acc = s.acc := rfl

@[simp] theorem State.emitFetched_accWritten (s : State) (o : Option DecodeIn) : (s.emitFetched o).accWritten = s.accWritten := rfl

@[simp] theorem State.emitFetched_mem (s : State) (o : Option DecodeIn) : (s.emitFetched o).mem = s.mem := rfl

@[simp] theorem State.emitFetched_slots (s : State) (o : Option DecodeIn) : (s.emitFetched o).slots = s.slots := rfl

@[simp] theorem State.emitFetched_latches (s : State) (o : Option DecodeIn) : (s.emitFetched o).latches = s.latches := rfl

@[simp] theorem State.emitFetched_lat (s : State) (o : Option DecodeIn) : (s.emitFetched o).lat = s.lat := rfl

@[simp] theorem State.emitFetched_halted (s : State) (o : Option DecodeIn) : (s.emitFetched o).halted = s.halted := rfl

@[simp] theorem State.emitFetched_error (s : State) (o : Option DecodeIn) : (s.emitFetched o).error = s.error := rfl

@[simp] theorem State.emitFetched_cycle (s : State) (o : Option DecodeIn) : (s.emitFetched o).cycle = s.cycle := rfl

@[simp] theorem State.emitFetched_phase (s : State) (o : Option DecodeIn) : (s.emitFetched o).phase = s.phase := rfl

@[simp] theorem State.emitFetched_outs (s : State) (o : Option DecodeIn) : (s.emitFetched o).outs = { s.outs with fetched := o } := rfl

/-! emitDecoded -/

@[simp] theorem State.emitDecoded_cfg (s : State) (o : Option ExecuteIn) : (s.emitDecoded o).cfg = s.cfg := rfl

@[simp] theorem State.emitDecoded_regs (s : State) (o : Option ExecuteIn) : (s.emitDecoded o).regs = s.regs := rfl

@[simp] theorem State.emitDecoded_pc (s : State) (o : Option ExecuteIn) : (s.emitDecoded o).pc = s.pc := rfl

@[simp] theorem State.emitDecoded_acc (s : State) (o : Option ExecuteIn) : (s.emitDecoded o).acc = s.acc := rfl

@[simp] theorem State.emitDecoded_accWritten (s : State) (o : Option ExecuteIn) : (s.emitDecoded o).accWritten = s.accWritten := rfl

@[simp] theorem State.emitDecoded_mem (s : State) (o : Option ExecuteIn) : (s.emitDecoded o).mem = s.mem := rfl

@[simp] theorem State.emitDecoded_slots (s : State) (o : Option ExecuteIn) : (s.emitDecoded o).slots = s.slots := rfl

@[simp] theorem State.emitDecoded_latches (s : State) (o : Option ExecuteIn) : (s.emitDecoded o).latches = s.latches := rfl

@[simp] theorem State.emitDecoded_lat (s : State) (o : Option ExecuteIn) : (s.emitDecoded o).lat = s.lat := rfl

@[simp] theorem State.emitDecoded_halted (s : State) (o : Option ExecuteIn) : (s.emitDecoded o).halted = s.halted := rfl

@[simp] theorem State.emitDecoded_error (s : State) (o : Option ExecuteIn) : (s.emitDecoded o).error = s.error := rfl

@[simp] theorem State.emitDecoded_cycle (s : State) (o : Option ExecuteIn) : (s.emitDecoded o).cycle = s.cycle := rfl

@[simp] theorem State.emitDecoded_phase (s : State) (o : Option ExecuteIn) : (s.emitDecoded o).phase = s.phase := rfl

@[simp] theorem State.emitDecoded_outs (s : State) (o : Option ExecuteIn) : (s.emitDecoded o).outs = { s.outs with decoded := o } := rfl

/-! emitExecuted -/

@[simp] theorem State.emitExecuted_cfg (s : State) (o : Option MemoryIn) : (s.emitExecuted o).cfg = s.cfg := rfl

@[simp] theorem State.emitExecuted_regs (s : State) (o : Option MemoryIn) : (s.emitExecuted o).regs = s.regs := rfl

@[simp] theorem State.emitExecuted_pc (s : State) (o : Option MemoryIn) : (s.emitExecuted o).pc = s.pc := rfl

@[simp] theorem State.emitExecuted_acc (s : State) (o : Option MemoryIn) : (s.emitExecuted o).acc = s.acc := rfl

@[simp] theorem State.emitExecuted_accWritten (s : State) (o : Option MemoryIn) : (s.emitExecuted o).accWritten = s.accWritten := rfl

@[simp] theorem State.emitExecuted_mem (s : State) (o : Option MemoryIn) : (s.emitExecuted o).mem = s.mem := rfl

@[simp] theorem State.emitExecuted_slots (s : State) (o : Option MemoryIn) : (s.emitExecuted o).slots = s.slots := rfl

@[simp] theorem State.emitExecuted_latches (s : State) (o : Option MemoryIn) : (s.emitExecuted o).latches = s.latches := rfl

@[simp] theorem State.emitExecuted_lat (s : State) (o : Option MemoryIn) : (s.emitExecuted o).lat = s.lat := rfl

@[simp] theorem State.emitExecuted_halted (s : State) (o : Option MemoryIn) : (s.emitExecuted o).halted = s.halted := rfl

@[simp] theorem State.emitExecuted_error (s : State) (o : Option MemoryIn) : (s.emitExecuted o).error = s.error := rfl

@[simp] theorem State.emitExecuted_cycle (s : State) (o : Option MemoryIn) : (s.emitExecuted o).cycle = s.cycle := rfl

@[simp] theorem State.emitExecuted_phase (s : State) (o : Option MemoryIn) : (s.emitExecuted o).phase = s.phase := rfl

@[simp] theorem State.emitExecuted_outs (s : State) (o : Option MemoryIn) : (s.emitExecuted o).outs = { s.outs with executed := o } := rfl

/-! emitAccessed -/

@[simp] theorem State.emitAccessed_cfg (s : State) (o : Option WriteBackIn) : (s.emitAccessed o).cfg = s.cfg := rfl

@[simp] theorem State.emitAccessed_regs (s : State) (o : Option WriteBackIn) : (s.emitAccessed o).regs = s.regs := rfl

@[simp] theorem State.emitAccessed_pc (s : State) (o : Option WriteBackIn) : (s.emitAccessed o).pc = s.pc := rfl

@[simp] theorem State.emitAccessed_acc (s : State) (o : Option WriteBackIn) : (s.emitAccessed o).acc = s.acc := rfl

@[simp] theorem State.emitAccessed_accWritten (s : State) (o : Option WriteBackIn) : (s.emitAccessed o).accWritten = s.accWritten := rfl

@[simp] theorem State.emitAccessed_mem (s : State) (o : Option WriteBackIn) : (s.emitAccessed o).mem = s.mem := rfl

@[simp] theorem State.emitAccessed_slots (s : State) (o : Option WriteBackIn) : (s.emitAccessed o).slots = s.slots := rfl

@[simp] theorem State.emitAccessed_latches (s : State) (o : Option WriteBackIn) : (s.emitAccessed o).latches = s.latches := rfl

@[simp] theorem State.emitAccessed_lat (s : State) (o : Option WriteBackIn) : (s.emitAccessed o).lat = s.lat := rfl

@[simp] theorem State.emitAccessed_halted (s : State) (o : Option WriteBackIn) : (s.emitAccessed o).halted = s.halted := rfl

@[simp] theorem State.emitAccessed_error (s : State) (o : Option WriteBackIn) : (s.emitAccessed o).error = s.error := rfl

@[simp] theorem State.emitAccessed_cycle (s : State) (o : Option WriteBackIn) : (s.emitAccessed o).cycle = s.cycle := rfl

@[simp] theorem State.emitAccessed_phase (s : State) (o : Option WriteBackIn) : (s.emitAccessed o).phase = s.phase := rfl

@[simp] theorem State.emitAccessed_outs (s : State) (o : Option WriteBackIn) : (s.emitAccessed o).outs = { s.outs with accessed := o } := rfl

/-! emitRetired -/

@[simp] theorem State.emitRetired_cfg (s : State) (o : Option WriteBackOut) : (s.emitRetired o).cfg = s.cfg := rfl

@[simp] theorem State.emitRetired_regs (s : State) (o : Option WriteBackOut) : (s.emitRetired o).regs = s.regs := rfl

@[simp] theorem State.emitRetired_pc (s : State) (o : Option WriteBackOut) : (s.emitRetired o).pc = s.pc := rfl

@[simp] theorem State.emitRetired_acc (s : State) (o : Option WriteBackOut) : (s.emitRetired o).acc = s.acc := rfl

@[simp] theorem State.emitRetired_accWritten (s : State) (o : Option WriteBackOut) : (s.emitRetired o).accWritten = s.accWritten := rfl

@[simp] theorem State.emitRetired_mem (s : State) (o : Option WriteBackOut) : (s.emitRetired o).mem = s.mem := rfl

@[simp] theorem State.emitRetired_slots (s : State) (o : Option WriteBackOut) : (s.emitRetired o).slots = s.slots := rfl

@[simp] theorem State.emitRetired_latches (s : State) (o : Option WriteBackOut) : (s.emitRetired o).latches = s.latches := rfl

@[simp] theorem State.emitRetired_lat (s : State) (o : Option WriteBackOut) : (s.emitRetired o).lat = s.lat := rfl

@[simp] theorem State.emitRetired_halted (s : State) (o : Option WriteBackOut) : (s.emitRetired o).halted = s.halted := rfl

@[simp] theorem State.emitRetired_error (s : State) (o : Option WriteBackOut) : (s.emitRetired o).error = s.error := rfl

@[simp] theorem State.emitRetired_cycle (s : State) (o : Option WriteBackOut) : (s.emitRetired o).cycle = s.cycle := rfl

@[simp] theorem State.emitRetired_phase (s : State) (o : Option WriteBackOut) : (s.emitRetired o).phase = s.phase := rfl

@[simp] theorem State.emitRetired_outs (s : State) (o : Option WriteBackOut) : (s.emitRetired o).outs = { s.outs with retired := o } := rfl

/-! inPhase -/

@[simp] theorem State.inPhase_cfg (s : State) (p : Phase) : (s.inPhase p).cfg = s.cfg := rfl

@[simp] theorem State.inPhase_regs (s : State) (p : Phase) : (s.inPhase p).regs = s.regs := rfl

@[simp] theorem State.inPhase_pc (s : State) (p : Phase) : (s.inPhase p).pc = s.pc := rfl

@[simp] theorem State.inPhase_acc (s : State) (p : Phase) : (s.inPhase p).acc = s.acc := rfl

@[simp] theorem State.inPhase_accWritten (s : State) (p : Phase) : (s.inPhase p).accWritten = s.accWritten := rfl

@[simp] theorem State.inPhase_mem (s : State) (p : Phase) : (s.inPhase p).mem = s.mem := rfl

@[simp] theorem State.inPhase_slots (s : State) (p : Phase) : (s.inPhase p).slots = s.slots := rfl

@[simp] theorem State.inPhase_latches (s : State) (p : Phase) : (s.inPhase p).latches = s.latches := rfl

@[simp] theorem State.inPhase_lat (s : State) (p : Phase) : (s.inPhase p).lat = s.lat := rfl

@[simp] theorem State.inPhase_halted (s : State) (p : Phase) : (s.inPhase p).halted = s.halted := rfl

@[simp] theorem State.inPhase_error (s : State) (p : Phase) : (s.inPhase p).error = s.error := rfl

@[simp] theorem State.inPhase_cycle (s : State) (p : Phase) : (s.inPhase p).cycle = s.cycle := rfl

@[simp] theorem State.inPhase_phase (s : State) (p : Phase) : (s.inPhase p).phase = p := rfl

@[simp] theorem State.inPhase_outs (s : State) (p : Phase) : (s.inPhase p).outs = s.outs := rfl

/-! tickAll -/

@[simp] theorem State.tickAll_cfg (s : State) : s.tickAll.cfg = s.cfg := rfl

@[simp] theorem State.tickAll_regs (s : State) : s.tickAll.regs = s.regs := rfl

@[simp] theorem State.tickAll_pc (s : State) : s.tickAll.pc = s.pc := rfl

@[simp] theorem State.tickAll_acc (s : State) : s.tickAll.acc = s.acc := rfl

@[simp] theorem State.tickAll_accWritten (s : State) : s.tickAll.accWritten = s.accWritten := rfl

@[simp] theorem State.tickAll_mem (s : State) : s.tickAll.mem = s.mem := rfl

@[simp] theorem State.tickAll_slots (s : State) : s.tickAll.slots = s.slots := rfl

@[simp] theorem State.tickAll_latches (s : State) : s.tickAll.latches = s.latches := rfl

@[simp] theorem State.tickAll_halted (s : State) : s.tickAll.halted = s.halted := rfl

@[simp] theorem State.tickAll_error (s : State) : s.tickAll.error = s.error := rfl

@[simp] theorem State.tickAll_cycle (s : State) : s.tickAll.cycle = s.cycle := rfl

@[simp] theorem State.tickAll_phase (s : State) : s.tickAll.phase = s.phase := rfl

@[simp] theorem State.tickAll_outs (s : State) : s.tickAll.outs = s.outs := rfl

/-! latchInput -/

@[simp] theorem State.latchInput_cfg (s : State) (st : Stage) : (s.latchInput st).cfg = s.cfg := by cases st <;> rfl

@[simp] theorem State.latchInput_regs (s : State) (st : Stage) : (s.latchInput st).regs = s.regs := by cases st <;> rfl

@[simp] theorem State.latchInput_pc (s : State) (st : Stage) : (s.latchInput st).pc = s.pc := by cases st <;> rfl

@[simp] theorem State.latchInput_acc (s : State) (st : Stage) : (s.latchInput st).acc = s.acc := by cases st <;> rfl

@[simp] theorem State.latchInput_accWritten (s : State) (st : Stage) : (s.latchInput st).accWritten = s.accWritten := by cases st <;> rfl

@[simp] theorem State.latchInput_mem (s : State) (st : Stage) : (s.latchInput st).mem = s.mem := by cases st <;> rfl

@[simp] theorem State.latchInput_slots (s : State) (st : Stage) : (s.latchInput st).slots = s.slots := by cases st <;> rfl

@[simp] theorem State.latchInput_lat (s : State) (st : Stage) : (s.latchInput st).lat = s.lat := by cases st <;> rfl

@[simp] theorem State.latchInput_halted (s : State) (st : Stage) : (s.latchInput st).halted = s.halted := by cases st <;> rfl

@[simp] theorem State.latchInput_error (s : State) (st : Stage) : (s.latchInput st).error = s.error := by cases st <;> rfl

@[simp] theorem State.latchInput_cycle (s : State) (st : Stage) : (s.latchInput st).cycle = s.cycle := by cases st <;> rfl

@[simp] theorem State.latchInput_phase (s : State) (st : Stage) : (s.latchInput st).phase = s.phase := by cases st <;> rfl

/-! spend -/

@[simp] theorem State.spend_cfg (s : State) (st : Stage) : (s.spend st).cfg = s.cfg := by cases st <;> rfl

@[simp] theorem State.spend_regs (s : State) (st : Stage) : (s.spend st).regs = s.regs := by cases st <;> rfl

@[simp] theorem State.spend_pc (s : State) (st : Stage) : (s.spend st).pc = s.pc := by cases st <;> rfl

@[simp] theorem State.spend_acc (s : State) (st : Stage) : (s.spend st).acc = s.acc := by cases st <;> rfl

@[simp] theorem State.spend_accWritten (s : State) (st : Stage) : (s.spend st).accWritten = s.accWritten := by cases st <;> rfl

@[simp] theorem State.spend_mem (s : State) (st : Stage) : (s.spend st).mem = s.mem := by cases st <;> rfl

@[simp] theorem State.spend_slots (s : State) (st : Stage) : (s.spend st).slots = s.slots := by cases st <;> rfl

@[simp] theorem State.spend_lat (s : State) (st : Stage) : (s.spend st).lat = s.lat := by cases st <;> rfl

@[simp] theorem State.spend_halted (s : State) (st : Stage) : (s.spend st).halted = s.halted := by cases st <;> rfl

@[simp] theorem State.spend_error (s : State) (st : Stage) : (s.spend st).error = s.error := by cases st <;> rfl

@[simp] theorem State.spend_cycle (s : State) (st : Stage) : (s.spend st).cycle = s.cycle := by cases st <;> rfl

@[simp] theorem State.spend_phase (s : State) (st : Stage) : (s.spend st).phase = s.phase := by cases st <;> rfl

@[simp] theorem State.spend_outs (s : State) (st : Stage) : (s.spend st).outs = s.outs := by cases st <;> rfl

/-! takeFatalError -/

@[simp] theorem State.takeFatalError_cfg (s : State) (st : Stage) (f : Fault) : (s.takeFatalError st f).cfg = s.cfg := rfl

@[simp] theorem State.takeFatalError_regs (s : State) (st : Stage) (f : Fault) : (s.takeFatalError st f).regs = s.regs := rfl

@[simp] theorem State.takeFatalError_pc (s : State) (st : Stage) (f : Fault) : (s.takeFatalError st f).pc = s.pc := rfl

@[simp] theorem State.takeFatalError_acc (s : State) (st : Stage) (f : Fault) : (s.takeFatalError st f).acc = s.acc := rfl

@[simp] theorem State.takeFatalError_accWritten (s : State) (st : Stage) (f : Fault) : (s.takeFatalError st f).accWritten = s.accWritten := rfl

@[simp] theorem State.takeFatalError_mem (s : State) (st : Stage) (f : Fault) : (s.takeFatalError st f).mem = s.mem := rfl

@[simp] theorem State.takeFatalError_slots (s : State) (st : Stage) (f : Fault) : (s.takeFatalError st f).slots = s.slots := rfl

@[simp] theorem State.takeFatalError_latches (s : State) (st : Stage) (f : Fault) : (s.takeFatalError st f).latches = s.latches := rfl

@[simp] theorem State.takeFatalError_lat (s : State) (st : Stage) (f : Fault) : (s.takeFatalError st f).lat = s.lat := rfl

@[simp] theorem State.takeFatalError_halted (s : State) (st : Stage) (f : Fault) : (s.takeFatalError st f).halted = true := rfl

@[simp] theorem State.takeFatalError_error (s : State) (st : Stage) (f : Fault) : (s.takeFatalError st f).error = some ⟨f, st⟩ := rfl

@[simp] theorem State.takeFatalError_cycle (s : State) (st : Stage) (f : Fault) : (s.takeFatalError st f).cycle = s.cycle := rfl

@[simp] theorem State.takeFatalError_phase (s : State) (st : Stage) (f : Fault) : (s.takeFatalError st f).phase = s.phase := rfl

@[simp] theorem State.takeFatalError_outs (s : State) (st : Stage) (f : Fault) : (s.takeFatalError st f).outs = s.outs := rfl

/-! terminate -/

@[simp] theorem State.terminate_cfg (s : State) : s.terminate.cfg = s.cfg := rfl

@[simp] theorem State.terminate_regs (s : State) : s.terminate.regs = s.regs := rfl

@[simp] theorem State.terminate_pc (s : State) : s.terminate.pc = s.pc := rfl

@[simp] theorem State.terminate_acc (s : State) : s.terminate.acc = s.acc := rfl

@[simp] theorem State.terminate_accWritten (s : State) : s.terminate.accWritten = s.accWritten := rfl

@[simp] theorem State.terminate_mem (s : State) : s.terminate.mem = s.mem := rfl

@[simp] theorem State.terminate_slots (s : State) : s.terminate.slots = s.slots := rfl

@[simp] theorem State.terminate_latches (s : State) : s.terminate.latches = s.latches := rfl

@[simp] theorem State.terminate_lat (s : State) : s.terminate.lat = s.lat := rfl

@[simp] theorem State.terminate_halted (s : State) : s.terminate.halted = true := rfl

@[simp] theorem State.terminate_error (s : State) : s.terminate.error = s.error := rfl

@[simp] theorem State.terminate_cycle (s : State) : s.terminate.cycle = s.cycle := rfl

@[simp] theorem State.terminate_phase (s : State) : s.terminate.phase = s.phase := rfl

@[simp] theorem State.terminate_outs (s : State) : s.terminate.outs = s.outs := rfl

/-! atRest -/

@[simp] theorem State.atRest_cfg (s : State) : s.atRest.cfg = s.cfg := rfl

@[simp] theorem State.atRest_regs (s : State) : s.atRest.regs = s.regs := rfl

@[simp] theorem State.atRest_pc (s : State) : s.atRest.pc = s.pc := rfl

@[simp] theorem State.atRest_acc (s : State) : s.atRest.acc = s.acc := rfl

@[simp] theorem State.atRest_accWritten (s : State) : s.atRest.accWritten = s.accWritten := rfl

@[simp] theorem State.atRest_mem (s : State) : s.atRest.mem = s.mem := rfl

@[simp] theorem State.atRest_slots (s : State) : s.atRest.slots = s.slots := rfl

@[simp] theorem State.atRest_latches (s : State) : s.atRest.latches = s.latches := rfl

@[simp] theorem State.atRest_lat (s : State) : s.atRest.lat = s.lat := rfl

@[simp] theorem State.atRest_halted (s : State) : s.atRest.halted = s.halted := rfl

@[simp] theorem State.atRest_error (s : State) : s.atRest.error = s.error := rfl

@[simp] theorem State.atRest_cycle (s : State) : s.atRest.cycle = s.cycle := rfl

@[simp] theorem State.atRest_phase (s : State) : s.atRest.phase = .decode := rfl

@[simp] theorem State.atRest_outs (s : State) : s.atRest.outs = .empty := rfl

/-! writeJalrLink -/

@[simp] theorem State.writeJalrLink_cfg (s : State) (rd : RegIdx) (v : Word) : (s.writeJalrLink rd v).cfg = s.cfg := by
  unfold State.writeJalrLink; split <;> rfl

@[simp] theorem State.writeJalrLink_pc (s : State) (rd : RegIdx) (v : Word) : (s.writeJalrLink rd v).pc = s.pc := by
  unfold State.writeJalrLink; split <;> rfl

@[simp] theorem State.writeJalrLink_acc (s : State) (rd : RegIdx) (v : Word) : (s.writeJalrLink rd v).acc = s.acc := by
  unfold State.writeJalrLink; split <;> rfl

@[simp] theorem State.writeJalrLink_accWritten (s : State) (rd : RegIdx) (v : Word) : (s.writeJalrLink rd v).accWritten = s.accWritten := by
  unfold State.writeJalrLink; split <;> rfl

@[simp] theorem State.writeJalrLink_mem (s : State) (rd : RegIdx) (v : Word) : (s.writeJalrLink rd v).mem = s.mem := by
  unfold State.writeJalrLink; split <;> rfl

@[simp] theorem State.writeJalrLink_slots (s : State) (rd : RegIdx) (v : Word) : (s.writeJalrLink rd v).slots = s.slots := by
  unfold State.writeJalrLink; split <;> rfl

@[simp] theorem State.writeJalrLink_latches (s : State) (rd : RegIdx) (v : Word) : (s.writeJalrLink rd v).latches = s.latches := by
  unfold State.writeJalrLink; split <;> rfl

@[simp] theorem State.writeJalrLink_lat (s : State) (rd : RegIdx) (v : Word) : (s.writeJalrLink rd v).lat = s.lat := by
  unfold State.writeJalrLink; split <;> rfl

@[simp] theorem State.writeJalrLink_halted (s : State) (rd : RegIdx) (v : Word) : (s.writeJalrLink rd v).halted = s.halted := by
  unfold State.writeJalrLink; split <;> rfl

@[simp] theorem State.writeJalrLink_error (s : State) (rd : RegIdx) (v : Word) : (s.writeJalrLink rd v).error = s.error := by
  unfold State.writeJalrLink; split <;> rfl

@[simp] theorem State.writeJalrLink_cycle (s : State) (rd : RegIdx) (v : Word) : (s.writeJalrLink rd v).cycle = s.cycle := by
  unfold State.writeJalrLink; split <;> rfl

@[simp] theorem State.writeJalrLink_phase (s : State) (rd : RegIdx) (v : Word) : (s.writeJalrLink rd v).phase = s.phase := by
  unfold State.writeJalrLink; split <;> rfl

@[simp] theorem State.writeJalrLink_outs (s : State) (rd : RegIdx) (v : Word) : (s.writeJalrLink rd v).outs = s.outs := by
  unfold State.writeJalrLink; split <;> rfl

end Sys2Proof.Machine
end

