-- ==== Sys2Proof/Laws/Memory.lean ====
section
/-!
SUPPORT. The laws of a memory unit (20_memory.md R50 to R53): a read after a write, and the canonical form kept by every operation.
-/

namespace Sys2Proof.Machine

@[simp] theorem Memory.read_nil (a : Nat) : Memory.read [] a = Memory.unlisted := rfl

@[simp] theorem Memory.read_cons (k : Nat) (v : Word) (m : Memory) (a : Nat) :
    Memory.read ((k, v) :: m) a = if k = a then v else m.read a := rfl

/-- In a memory whose addresses all lie above `a`, nothing is listed at `a`. -/
theorem Memory.read_below (m : Memory) (a : Nat) (h : ∀ c ∈ m, a < c.1) : m.read a = Memory.unlisted := by
  induction m with
  | nil => rfl
  | cons c m ih =>
    obtain ⟨k, v⟩ := c
    have hk : a < k := h (k, v) (by simp)
    have hne : k ≠ a := by omega
    simp [hne, ih fun c hc => h c (by simp [hc])]

theorem Memory.read_consCell (a : Nat) (v : Word) (m : Memory) (b : Nat) (h : ∀ c ∈ m, a < c.1) :
    (Memory.consCell a v m).read b = if b = a then v else m.read b := by
  unfold Memory.consCell
  by_cases hb : b = a
  · subst hb
    by_cases hv : v = Memory.unlisted
    · simp [hv, Memory.read_below m b h]
    · simp [hv]
  · have : ¬ a = b := fun e => hb e.symm
    split <;> simp [this]

theorem Memory.tail_above {k : Nat} {w : Word} {m : Memory} (h : Memory.wf ((k, w) :: m)) :
    ∀ c ∈ m, k < c.1 := fun c hc => (List.pairwise_cons.1 h.1).1 c hc

theorem Memory.wf_tail {c : Cell} {m : Memory} (h : Memory.wf (c :: m)) : m.wf :=
  ⟨(List.pairwise_cons.1 h.1).2, fun d hd => h.2 d (by simp [hd])⟩

/-- A read after a write: the word written at that address, and the old word at every other (R50). -/
theorem Memory.read_write (m : Memory) (hm : m.wf) (a : Nat) (v : Word) (b : Nat) :
    (m.write a v).read b = if b = a then v else m.read b := by
  induction m with
  | nil => exact Memory.read_consCell a v [] b (by simp)
  | cons c m ih =>
    obtain ⟨k, w⟩ := c
    have above := Memory.tail_above hm
    unfold Memory.write
    split
    · rename_i hak
      exact Memory.read_consCell a v _ b fun c hc => by
        rcases List.mem_cons.1 hc with rfl | hc
        · exact hak
        · exact lt_trans hak (above c hc)
    · split
      · rename_i h; subst h
        rw [Memory.read_consCell a v m b above]
        by_cases hb : b = a
        · simp [hb]
        · have : ¬ a = b := fun e => hb e.symm
          simp [hb, this]
      · rename_i hne
        rw [Memory.read_cons, Memory.read_cons, ih (Memory.wf_tail hm)]
        by_cases hk : k = b
        · have : b ≠ a := by omega
          simp [hk, this]
        · simp [hk]

/-- Where a written memory lists something: the old addresses and the one written. -/
theorem Memory.mem_write {m : Memory} {a : Nat} {v : Word} {c : Cell} (h : c ∈ m.write a v) : c ∈ m ∨ c.1 = a := by
  have cons : ∀ {rest : Memory}, c ∈ Memory.consCell a v rest → c ∈ rest ∨ c.1 = a := by
    intro rest hc
    unfold Memory.consCell at hc
    split at hc
    · exact .inl hc
    · rcases List.mem_cons.1 hc with rfl | hc
      · exact .inr rfl
      · exact .inl hc
  induction m with
  | nil => exact cons h
  | cons d m ih =>
    obtain ⟨k, w⟩ := d
    unfold Memory.write at h
    split at h
    · exact cons h
    · split at h
      · exact (cons h).imp_left fun h => by simp [h]
      · rcases List.mem_cons.1 h with rfl | h
        · exact .inl (by simp)
        · exact (ih h).imp_left fun h => by simp [h]

theorem Memory.wf_consCell {m : Memory} (hm : m.wf) (a : Nat) (v : Word) (h : ∀ c ∈ m, a < c.1) :
    (Memory.consCell a v m).wf := by
  unfold Memory.consCell
  split
  · exact hm
  · rename_i hv
    refine ⟨List.pairwise_cons.2 ⟨h, hm.1⟩, fun c hc => ?_⟩
    rcases List.mem_cons.1 hc with rfl | hc
    · exact hv
    · exact hm.2 c hc

/-- A write keeps the canonical form. -/
theorem Memory.wf_write (m : Memory) (hm : m.wf) (a : Nat) (v : Word) : (m.write a v).wf := by
  induction m with
  | nil => exact Memory.wf_consCell hm a v (by simp)
  | cons c m ih =>
    obtain ⟨k, w⟩ := c
    have above := Memory.tail_above hm
    unfold Memory.write
    split
    · rename_i hak
      exact Memory.wf_consCell hm a v fun c hc => by
        rcases List.mem_cons.1 hc with rfl | hc
        · exact hak
        · exact lt_trans hak (above c hc)
    · split
      · rename_i h; subst h
        exact Memory.wf_consCell (Memory.wf_tail hm) a v above
      · have htail := ih (Memory.wf_tail hm)
        refine ⟨List.pairwise_cons.2 ⟨fun c hc => ?_, htail.1⟩, fun c hc => ?_⟩
        · rcases Memory.mem_write hc with hc | hc
          · exact above c hc
          · show k < c.1
            omega
        · rcases List.mem_cons.1 hc with rfl | hc
          · exact hm.2 _ (by simp)
          · exact htail.2 c hc

/-- The memory at reset has the canonical form. -/
theorem State.construct_mem_wf (c : Config) : (State.construct c).mem.wf := by
  constructor <;> simp [State.construct]

/-- A load keeps the canonical form: it changes no word. -/
theorem State.memRead_wf {s t : State} {a v : Word} (hs : s.mem.wf) (h : s.memRead a = .ok (t, v)) : t.mem.wf := by
  unfold State.memRead at h
  split at h
  · cases h; simpa using hs
  · cases h

/-- A store keeps the canonical form. -/
theorem State.memWrite_wf {s t : State} {a v : Word} (hs : s.mem.wf) (h : s.memWrite a v = .ok t) : t.mem.wf := by
  unfold State.memWrite at h
  split at h
  · cases h; simpa using Memory.wf_write _ hs _ _
  · cases h

end Sys2Proof.Machine
end

