-- ==== Sys2Proof/Laws/Exec.lean ====
section
/-!
SUPPORT. Once and for all what `exec` can do: every instruction is the run of one meaning, and a run does the part of one stage.
-/

namespace Sys2Proof.Machine

/-- The low word of a word widened to the execute result is the word. -/
@[simp] theorem lowWord_zext64 (v : Word) : lowWord (zext64 v) = v := by
  apply BitVec.eq_of_getLsbD_eq
  intro k hk
  have h : k < 64 := by omega
  simp [lowWord, zext64, hk, h]

/-- The meaning of each instruction, as its own definition has it. -/
def meaning : Instr → Meaning
  | .sll rd rt sh => aluRegister (.sll rd rt sh) rd fun _ b => b <<< sh.toNat
  | .srl rd rt sh => aluRegister (.srl rd rt sh) rd fun _ b => b >>> sh.toNat
  | .sra rd rt sh => aluRegister (.sra rd rt sh) rd fun _ b => b.sshiftRight sh.toNat
  | .sllv rd rt rs => aluRegister (.sllv rd rt rs) rd fun a b => b <<< (shiftAmount a).toNat
  | .srlv rd rt rs => aluRegister (.srlv rd rt rs) rd fun a b => b >>> (shiftAmount a).toNat
  | .srav rd rt rs => aluRegister (.srav rd rt rs) rd fun a b => b.sshiftRight (shiftAmount a).toNat
  | .jr rs => jumpRegister rs
  | .jalr rd rs => jumpLinkRegister rd rs
  | .syscall => systemCall
  | .mfhi rd => accRetrieval (.mfhi rd) rd highWord
  | .mflo rd => accRetrieval (.mflo rd) rd lowWord
  | .mult rs rt => accProducer (.mult rs rt) fun _ a b => .ok (signedProduct a b)
  | .multu rs rt => accProducer (.multu rs rt) fun _ a b => .ok (unsignedProduct a b)
  | .div rs rt => accProducer (.div rs rt) fun e a b =>
      if signedDivisionUndefined a b then .error (.undefinedArithmetic e.addr a b) else .ok (signedDivision a b)
  | .divu rs rt => accProducer (.divu rs rt) fun e a b =>
      if b == 0 then .error (.undefinedArithmetic e.addr a b) else .ok (unsignedDivision a b)
  | .add rd rs rt => aluRegister (.add rd rs rt) rd fun a b => a + b
  | .addu rd rs rt => aluRegister (.addu rd rs rt) rd fun a b => a + b
  | .sub rd rs rt => aluRegister (.sub rd rs rt) rd fun a b => a - b
  | .subu rd rs rt => aluRegister (.subu rd rs rt) rd fun a b => a - b
  | .and rd rs rt => aluRegister (.and rd rs rt) rd fun a b => a &&& b
  | .or rd rs rt => aluRegister (.or rd rs rt) rd fun a b => a ||| b
  | .xor rd rs rt => aluRegister (.xor rd rs rt) rd fun a b => a ^^^ b
  | .nor rd rs rt => aluRegister (.nor rd rs rt) rd fun a b => ~~~(a ||| b)
  | .slt rd rs rt => aluRegister (.slt rd rs rt) rd fun a b => boolWord (lessSigned a b)
  | .sltu rd rs rt => aluRegister (.sltu rd rs rt) rd fun a b => boolWord (lessUnsigned a b)
  | .bltz rs imm => branch (.bltz rs imm) imm fun a _ => lessThanZero a
  | .beq rs rt imm => branch (.beq rs rt imm) imm fun a b => decide (a = b)
  | .bne rs rt imm => branch (.bne rs rt imm) imm fun a b => decide (a ≠ b)
  | .addi rt rs imm => aluImmediate (.addi rt rs imm) rt fun a => a + sext32 imm
  | .addiu rt rs imm => aluImmediate (.addiu rt rs imm) rt fun a => a + sext32 imm
  | .slti rt rs imm => aluImmediate (.slti rt rs imm) rt fun a => boolWord (lessSigned a (sext32 imm))
  | .sltiu rt rs imm => aluImmediate (.sltiu rt rs imm) rt fun a => boolWord (lessUnsigned a (sext32 imm))
  | .andi rt rs imm => aluImmediate (.andi rt rs imm) rt fun a => a &&& zext32 imm
  | .ori rt rs imm => aluImmediate (.ori rt rs imm) rt fun a => a ||| zext32 imm
  | .xori rt rs imm => aluImmediate (.xori rt rs imm) rt fun a => a ^^^ zext32 imm
  | .lui rt imm => aluImmediate (.lui rt imm) rt fun _ => upperImmediate imm
  | .lw rt imm rs => loadWord rt imm rs
  | .sw rt imm rs => storeWord rt imm rs
  | .j field => jump field
  | .jal field => jumpLink field

theorem exec_eq_run (i : Instr) (s : State) : exec i s = (meaning i).run s := by
  cases i <;> rfl

theorem meaning_insn (i : Instr) : (meaning i).insn = i := by
  cases i <;> rfl

theorem meaning_quit (i : Instr) : (meaning i).quit = decide (i = .syscall) := by
  cases i <;> rfl

/-- `exec` never refuses. -/
theorem exec_ne_refused (i : Instr) (s : State) (x : Refusal) : exec i s ≠ .refused x := by
  rw [exec_eq_run]
  unfold Meaning.run Meaning.runDecode Meaning.runExecute Meaning.runMemoryAccess Meaning.runWriteBack
  repeat' split
  all_goals simp

/-! ## The four parts, on a payload -/

theorem exec_decoding (i : Instr) (s : State) (d : DecodeIn) :
    exec i (s.decoding d) = .next ((s.decoding d).emitDecoded
      (some { toDecodeIn := d, insn := i, vals := s.loadOperands i.format d.instr })) := by
  rw [exec_eq_run]
  simp only [Meaning.run, Meaning.runDecode, State.decoding, meaning_insn]
  rfl

theorem exec_executing (i : Instr) (s : State) (e : ExecuteIn) :
    exec i (s.executing e) = match (meaning i).ex e (s.executing e) with
      | .error f => .fault f
      | .ok r => .next ((s.executing e).emitExecuted
          (some { toExecuteIn := e, result := r.result, link := r.link })) := by
  rw [exec_eq_run]
  rfl

theorem exec_accessing (i : Instr) (s : State) (p : MemoryIn) :
    exec i (s.accessing p) = match (meaning i).mem p (s.accessing p) with
      | .error f => .fault f
      | .ok (t, v) => .next (t.emitAccessed (some { toMemoryIn := p, loaded := v })) := by
  rw [exec_eq_run]
  rfl

theorem exec_committing (i : Instr) (s : State) (w : WriteBackIn) :
    exec i (s.committing w) = match (meaning i).wb w (s.committing w) with
      | .error f => .fault f
      | .ok t => .next (t.emitRetired (some { addr := w.addr, quit := decide (i = .syscall) })) := by
  rw [exec_eq_run, ← meaning_quit]
  rfl

/-- The passage of an instruction, from its three parts: the way to prove a `Passes`. -/
theorem passes_of_parts {i : Instr} {d : DecodeIn} {sD sE sM sW : State} {mem wb : State → State} {quit : Bool}
    (r : ExecuteResult) (v : Word) (hq : quit = decide (i = .syscall))
    (hex : ∀ e : ExecuteIn, e.toDecodeIn = d → e.vals = sD.loadOperands i.format d.instr →
      (meaning i).ex e (sE.executing e) = .ok r)
    (hmem : ∀ p : MemoryIn, p.toDecodeIn = d → p.vals = sD.loadOperands i.format d.instr → p.result = r.result →
      (meaning i).mem p (sM.accessing p) = .ok (mem (sM.accessing p), v))
    (hwb : ∀ w : WriteBackIn, w.toDecodeIn = d → w.result = r.result → w.link = r.link → w.loaded = v →
      (meaning i).wb w (sW.committing w) = .ok (wb (sW.committing w))) :
    Passes i d sD sE sM sW mem wb quit := by
  subst hq
  refine ⟨⟨d, i, sD.loadOperands i.format d.instr⟩, ⟨⟨d, i, _⟩, r.result, r.link⟩, ⟨⟨⟨d, i, _⟩, _, _⟩, v⟩,
    rfl, rfl, rfl, rfl, exec_decoding i sD d, ?_, ?_, ?_⟩
  · rw [exec_executing, hex _ rfl rfl]
  · rw [exec_accessing, hmem _ rfl rfl rfl]
  · rw [exec_committing, hwb _ rfl rfl rfl rfl]

/-! ## What a part can change -/

/-- Only the commit's targets differ: registers, pc, accumulator. -/
def CommitOnly (s t : State) : Prop :=
  t = { s with regs := t.regs, pc := t.pc, acc := t.acc, accWritten := t.accWritten }

/-- Only what an access can change differs: main memory and the sparse map. -/
def AccessOnly (s t : State) : Prop := t = { s with mem := t.mem, slots := t.slots }

theorem wb_commitOnly {i : Instr} {w : WriteBackIn} {s t : State} (h : (meaning i).wb w s = .ok t) : CommitOnly s t := by
  cases i <;>
    simp only [meaning, aluRegister, aluImmediate, accProducer, accRetrieval, jumpRegister, jumpLinkRegister, branch, jump,
      jumpLink, loadWord, storeWord, systemCall, wbResult, wbImmResult, wbNothing, Except.ok.injEq] at h
  all_goals try (subst h; rfl)
  case jalr =>
    subst h; unfold State.writeJalrLink; split <;> rfl
  case bltz | beq | bne =>
    subst h; split <;> rfl

/-- Write-back raises nothing: every instruction has a commit on every payload (R120, R224). -/
theorem wb_ok (i : Instr) (w : WriteBackIn) (s : State) : ∃ t, (meaning i).wb w s = .ok t := by
  cases i <;> exact ⟨_, rfl⟩

theorem touch_accessOnly (s : State) (a : Word) : AccessOnly s (s.touch a) := by
  unfold AccessOnly State.touch
  repeat' split
  all_goals rfl

theorem putWord_accessOnly (s : State) (a v : Word) : AccessOnly s (s.putWord a v) := by
  have h := touch_accessOnly s a
  unfold AccessOnly State.putWord at *
  rw [h]

theorem accessOnly_trans {s t u : State} (h : AccessOnly s t) (g : AccessOnly t u) : AccessOnly s u := by
  cases s; cases t; cases u
  simp_all [AccessOnly]

theorem mem_accessOnly {i : Instr} {p : MemoryIn} {s t : State} {v : Word} (h : (meaning i).mem p s = .ok (t, v)) :
    AccessOnly s t := by
  cases i
  case lw =>
    simp only [meaning, loadWord, memLoad, State.memRead] at h
    split at h
    · cases h; exact touch_accessOnly _ _
    · cases h
  case sw =>
    simp only [meaning, storeWord, memStore, State.memWrite] at h
    split at h
    · split at h
      · rename_i h'
        split at h'
        · cases h'; cases h; exact putWord_accessOnly _ _ _
        · cases h'
      · cases h
    · simp [noCase] at h
  all_goals
    simp only [meaning, aluRegister, aluImmediate, accProducer, accRetrieval, jumpRegister, jumpLinkRegister, branch, jump,
      jumpLink, systemCall, memNothing, Except.ok.injEq, Prod.mk.injEq] at h
    obtain ⟨rfl, -⟩ := h
    rfl

/-- What `exec` can do in a next state, stage by stage. -/
theorem exec_next {i : Instr} {s t : State} (h : exec i s = .next t) :
    (s.phase = .decode ∧ ∃ o, t = s.emitDecoded o) ∨ (s.phase = .execute ∧ ∃ o, t = s.emitExecuted o) ∨
    (s.phase = .memoryAccess ∧ ∃ u o, AccessOnly s u ∧ t = u.emitAccessed o) ∨
    (s.phase = .writeBack ∧ ∃ u o, CommitOnly s u ∧ t = u.emitRetired o) := by
  rw [exec_eq_run] at h
  unfold Meaning.run at h
  split at h
  · rename_i hp
    refine .inl ⟨hp, ?_⟩
    unfold Meaning.runDecode at h
    split at h <;> cases h <;> exact ⟨_, rfl⟩
  · rename_i hp
    refine .inr (.inl ⟨hp, ?_⟩)
    unfold Meaning.runExecute at h
    repeat' split at h
    all_goals cases h
    all_goals exact ⟨_, rfl⟩
  · rename_i hp
    refine .inr (.inr (.inl ⟨hp, ?_⟩))
    unfold Meaning.runMemoryAccess at h
    split at h
    · cases h; exact ⟨s, _, rfl, rfl⟩
    · split at h
      · cases h
      · rename_i hm; cases h; exact ⟨_, _, mem_accessOnly hm, rfl⟩
  · rename_i hp
    refine .inr (.inr (.inr ⟨hp, ?_⟩))
    unfold Meaning.runWriteBack at h
    split at h
    · cases h; exact ⟨s, _, rfl, rfl⟩
    · split at h
      · cases h
      · rename_i hm; cases h; exact ⟨_, _, wb_commitOnly hm, rfl⟩

/-- What `exec` can do to registers, pc, accumulator and memory in a next state: nothing, or in memory-access the access of its meaning on
the latched payload, or in write-back the commit of its meaning. -/
theorem exec_effect {i : Instr} {s t : State} (h : exec i s = .next t) :
    ((t.regs = s.regs ∧ t.pc = s.pc ∧ t.acc = s.acc ∧ t.accWritten = s.accWritten ∧ t.mem = s.mem ∧ t.slots = s.slots) ∨
    (s.phase = .memoryAccess ∧ ∃ p u v, s.latches.memoryAccess = some p ∧ (meaning i).mem p s = .ok (u, v) ∧
      t.regs = s.regs ∧ t.pc = s.pc ∧ t.acc = s.acc ∧ t.accWritten = s.accWritten ∧ t.mem = u.mem ∧ t.slots = u.slots) ∨
    (s.phase = .writeBack ∧ ∃ w u, s.latches.writeBack = some w ∧ (meaning i).wb w s = .ok u ∧
      t.regs = u.regs ∧ t.pc = u.pc ∧ t.acc = u.acc ∧ t.accWritten = u.accWritten ∧ t.mem = s.mem ∧ t.slots = s.slots)) := by
  rw [exec_eq_run] at h
  unfold Meaning.run Meaning.runDecode Meaning.runExecute Meaning.runMemoryAccess Meaning.runWriteBack at h
  split at h
  · split at h <;> cases h <;> exact .inl ⟨rfl, rfl, rfl, rfl, rfl, rfl⟩
  · repeat' split at h
    all_goals cases h
    all_goals exact .inl ⟨rfl, rfl, rfl, rfl, rfl, rfl⟩
  · rename_i hp
    split at h
    · cases h; exact .inl ⟨rfl, rfl, rfl, rfl, rfl, rfl⟩
    · rename_i p hl
      split at h
      · cases h
      · rename_i u v hm
        cases h
        have := mem_accessOnly hm
        unfold AccessOnly at this
        refine .inr (.inl ⟨hp, p, u, v, hl, hm, ?_⟩)
        rw [this]; exact ⟨rfl, rfl, rfl, rfl, rfl, rfl⟩
  · rename_i hp
    split at h
    · cases h; exact .inl ⟨rfl, rfl, rfl, rfl, rfl, rfl⟩
    · rename_i p hl
      split at h
      · cases h
      · rename_i u hm
        cases h
        have := wb_commitOnly hm
        unfold CommitOnly at this
        refine .inr (.inr ⟨hp, p, u, hl, hm, ?_⟩)
        rw [this]; exact ⟨rfl, rfl, rfl, rfl, rfl, rfl⟩

end Sys2Proof.Machine
end

