-- ==== Sys2Proof/Laws/MainMemory.lean ====
section
/-!
SUPPORT. The laws of the register file and of main memory in both variants: what a read gives after a write (10_state.md R22, 20_memory.md R50 to
R53), and what a mapping of the sparse variant leaves as it is.
-/

namespace Sys2Proof.Machine

/-! ## Registers -/

/-- A register read depends on the register file and the configuration only. -/
theorem readReg_of_eq {s t : State} (hc : t.cfg = s.cfg) (hr : t.regs = s.regs) (r : RegIdx) : t.readReg r = s.readReg r := by
  unfold State.readReg; simp only [hc, hr]

/-- A write to one register leaves the others. -/
theorem readReg_writeReg_ne {s : State} {r r' : RegIdx} (v : Word) (h : r' ≠ r) : (s.writeReg r v).readReg r' = s.readReg r' := by
  show (if s.cfg.r0Policy = R0Policy.hardwired ∧ r' = 0 then 0
    else (if s.cfg.r0Policy = R0Policy.hardwired ∧ r = 0 then s.regs else s.regs.set r.toNat v r.isLt)[r'.toNat]'r'.isLt) = _
  unfold State.readReg
  split
  · rfl
  · have : r.toNat ≠ r'.toNat := fun e => h (BitVec.eq_of_toNat_eq e.symm)
    split
    · rfl
    · simp [this]

/-! ## Main memory -/

/-- What `MemoryOk` says of a flat memory. -/
theorem memoryOk_flat {s : State} (h : s.cfg.memKind = .flat) :
    s.MemoryOk ↔ s.mem.wf ∧ s.slots = [] ∧ ∀ c ∈ s.mem, c.1 < s.cfg.memSize := by
  unfold State.MemoryOk
  rw [h]

/-- What `MemoryOk` says of a sparse memory. -/
theorem memoryOk_sparse {s : State} {n : Nat} (h : s.cfg.memKind = .sparse n) :
    s.MemoryOk ↔ s.mem.wf ∧ s.slots.Nodup ∧ s.slots.length ≤ n ∧ ∀ c ∈ s.mem, c.1 < s.slots.length := by
  unfold State.MemoryOk
  rw [h]

/-- A word of main memory depends on the unit, the map and the configuration only. -/
theorem wordAt_of_eq {s t : State} (hc : t.cfg = s.cfg) (hm : t.mem = s.mem) (hs : t.slots = s.slots) (a : Word) : t.wordAt a = s.wordAt a := by
  unfold State.wordAt State.slotOf; simp only [hc, hm, hs]

/-- In a memory whose addresses all lie below `a`, nothing is listed at `a`. -/
theorem Memory.read_above (m : Memory) (a : Nat) (h : ∀ c ∈ m, c.1 < a) : m.read a = 0 := by
  induction m with
  | nil => rfl
  | cons c m ih =>
    obtain ⟨k, v⟩ := c
    have : k < a := h (k, v) (by simp)
    simp only [Memory.read_cons]
    rw [if_neg (by omega)]
    exact ih fun c hc => h c (by simp [hc])

/-- Mapping an address changes no word (R53). -/
theorem wordAt_touch {s : State} (h : s.MemoryOk) (a b : Word) : (s.touch a).wordAt b = s.wordAt b := by
  obtain ⟨hw, hk⟩ := h
  unfold State.wordAt State.slotOf State.touch
  rcases hm : s.cfg.memKind with _ | n
  · simp [hm]
  · simp only [hm] at hk ⊢
    obtain ⟨h1, h2, h3⟩ := hk
    by_cases ha : a ∈ s.slots
    · simp [ha, hm]
    · simp [ha, hm]
      rw [List.idxOf_append]
      by_cases hb : b ∈ s.slots
      · simp [hb]
      · simp only [hb, if_false]
        rw [List.idxOf_eq_length hb]
        rw [Memory.read_above _ s.slots.length h3, Memory.read_above]
        intro c hc
        have := h3 c hc
        omega

/-- A mapping keeps the slot of the address mapped, and of every address mapped before (R53). -/
theorem slotOf_touch {s : State} (a b : Word) (h : b = a ∨ s.cfg.memKind = .flat ∨ b ∈ s.slots) : (s.touch a).slotOf b = s.slotOf b := by
  unfold State.slotOf State.touch
  rcases hm : s.cfg.memKind with _ | n
  · simp [hm]
  · by_cases ha : a ∈ s.slots
    · simp [ha, hm]
    · simp [ha, hm]
      rw [List.idxOf_append]
      rcases h with rfl | h | h
      · simp [ha]
      · simp [hm] at h
      · simp [h]

/-- After a mapping, another address lies in another slot (R53). -/
theorem slotOf_touch_ne {s : State} {a b : Word} (h : b ≠ a) (hm : s.MemoryOk) : (s.touch a).slotOf b ≠ s.slotOf a := by
  obtain ⟨hw, hk⟩ := hm
  unfold State.slotOf State.touch
  rcases hm : s.cfg.memKind with _ | n
  · simp [hm]; intro hc; exact h (BitVec.eq_of_toNat_eq hc)
  · by_cases ha : a ∈ s.slots
    · simp [ha, hm]
      intro hc
      rw [eq_comm, List.idxOf_inj ha] at hc
      exact h hc.symm
    · simp [ha, hm]
      rw [List.idxOf_append]
      by_cases hb : b ∈ s.slots
      · simp [hb]; have := List.idxOf_lt_length_of_mem hb; omega
      · have hab : (a == b) = false := by simpa using fun e => h (Eq.symm e)
        simp [hb, List.idxOf_cons, hab]

/-- The word at the address written (R50). -/
theorem wordAt_putWord_same {s : State} (hm : s.MemoryOk) (a v : Word) : (s.putWord a v).wordAt a = v := by
  have h1 := slotOf_touch (s := s) a a (.inl rfl)
  show (s.mem.write (s.slotOf a) v).read ((s.touch a).slotOf a) = v
  rw [h1, Memory.read_write _ hm.1]; simp

/-- A store changes the word at no other address (R50, R53). -/
theorem wordAt_putWord_other {s : State} (hm : s.MemoryOk) (a b v : Word) (h : b ≠ a) : (s.putWord a v).wordAt b = s.wordAt b := by
  have h1 := slotOf_touch_ne h hm
  have h2 := wordAt_touch hm a b
  show (s.mem.write (s.slotOf a) v).read ((s.touch a).slotOf b) = _
  rw [Memory.read_write _ hm.1, if_neg h1, ← h2]
  unfold State.wordAt; simp

/-- A mapping that an access in range makes keeps the form of main memory (R53). -/
theorem memoryOk_touch {s : State} {a : Word} (h : s.MemoryOk) (hr : s.inRange a = true) : (s.touch a).MemoryOk := by
  obtain ⟨hw, hk⟩ := h
  unfold State.MemoryOk
  simp only [State.touch_cfg, State.touch_mem]
  refine ⟨hw, ?_⟩
  unfold State.touch
  simp only [State.inRange, State.slotOf, State.unitSize] at hr
  rcases hm : s.cfg.memKind with _ | n
  · simpa [hm] using hk
  · simp only [hm] at hk hr ⊢
    by_cases ha : a ∈ s.slots
    · simpa [ha] using hk
    · rw [List.idxOf_eq_length ha] at hr
      have hr : s.slots.length < n := by simpa using hr
      simp only [ha, if_false]
      refine ⟨?_, by simp; omega, ?_⟩
      · rw [List.nodup_append]; simp [hk.1]; intro b hb e; subst e; exact ha hb
      · intro c hc; have := hk.2.2 c hc; simp; omega

/-- A store in range keeps the form of main memory (R50, R53). -/
theorem memoryOk_putWord {s : State} {a v : Word} (h : s.MemoryOk) (hr : s.inRange a = true) : (s.putWord a v).MemoryOk := by
  have ht := memoryOk_touch h hr
  obtain ⟨hw, hk⟩ := ht
  unfold State.MemoryOk State.putWord
  refine ⟨Memory.wf_write _ h.1 _ _, ?_⟩
  simp only [State.touch_cfg] at hk ⊢
  have hu : s.slotOf a < s.unitSize := by simpa [State.inRange] using hr
  unfold State.unitSize at hu
  rcases hm : s.cfg.memKind with _ | n
  · simp only [hm] at hk hu ⊢
    refine ⟨hk.1, fun c hc => ?_⟩
    rcases Memory.mem_write hc with hc | hc
    · exact hk.2 c (by simpa using hc)
    · rw [hc]; exact hu
  · simp only [hm] at hk hu ⊢
    refine ⟨hk.1, hk.2.1, fun c hc => ?_⟩
    rcases Memory.mem_write hc with hc | hc
    · exact hk.2.2 c (by simpa using hc)
    · rw [hc]
      unfold State.slotOf State.touch
      simp only [hm]
      by_cases ha : a ∈ s.slots
      · simp [ha, List.idxOf_lt_length_of_mem]
      · simp [ha]

/-- A run of stores keeps the form of main memory, the configuration and everything but memory, whether it ends in an error or not (R54). -/
theorem storeRun_keeps (ws : List Word) (s : State) (a : Nat) (h : s.MemoryOk) :
    (s.storeRun a ws).1.MemoryOk ∧ AccessOnly s (s.storeRun a ws).1 := by
  induction ws generalizing s a with
  | nil => exact ⟨h, rfl⟩
  | cons w ws ih =>
    unfold State.storeRun State.memWrite
    split
    · by_cases hr : s.inRange (BitVec.ofNat 32 a) = true
      · simp only [hr, if_true]
        obtain ⟨h1, h2⟩ := ih _ (a + 1) (memoryOk_putWord h hr)
        exact ⟨h1, accessOnly_trans (putWord_accessOnly s (BitVec.ofNat 32 a) w) h2⟩
      · simp only [hr]
        exact ⟨h, rfl⟩
    · exact ⟨h, rfl⟩

end Sys2Proof.Machine
end

