-- ==== Sys2Proof/Laws/PerInstr.lean ====
section
/-!
SUPPORT. One law for each instruction: the classification tables find it. The word the encoder gives it has an opcode, and in the primary format
a function code, that the tables of 30_encoding.md R83 and R84 map to its mnemonic, of its format (R82).
-/

namespace Sys2Proof.Laws.Classified

/-- What the two tables say of the word of an instruction: in the primary format the opcode table says primary and the function-code table gives the
mnemonic, in the two others the opcode table gives it (R82). -/
def Statement (i : Instr) : Prop :=
  i.wf = true ∧
  match i.format with
  | .primary => classify (encode i) = some .primary ∧ functionMnemonic (encode i) = some i.mnemonic
  | .immediate => classify (encode i) = some (.mnemonic i.mnemonic)
  | .jump => classify (encode i) = some (.mnemonic i.mnemonic)

theorem primary_of {w : Word} {funct : BitVec 6} {m : Mnemonic} (ho : opcodeOf w = 0) (hf : functOf w = funct)
    (h : tableLookup funct functTable = some m) : classify w = some .primary ∧ functionMnemonic w = some m := by
  refine ⟨?_, ?_⟩
  · rw [classify, ho]; rfl
  · rw [functionMnemonic, hf]; exact h

theorem opcode_of {w : Word} {opcode : BitVec 6} {c : OpClass} (ho : opcodeOf w = opcode)
    (h : tableLookup opcode opcodeTable = some c) : classify w = some c := by
  rw [classify, ho]; exact h

theorem sll (rd rt : RegIdx) (shamt : BitVec 5) : Statement (.sll rd rt shamt) :=
  ⟨rfl, primary_of (opcodeOf_primaryWord _ _ _ _ _) (functOf_primaryWord _ _ _ _ _) rfl⟩

theorem srl (rd rt : RegIdx) (shamt : BitVec 5) : Statement (.srl rd rt shamt) :=
  ⟨rfl, primary_of (opcodeOf_primaryWord _ _ _ _ _) (functOf_primaryWord _ _ _ _ _) rfl⟩

theorem sra (rd rt : RegIdx) (shamt : BitVec 5) : Statement (.sra rd rt shamt) :=
  ⟨rfl, primary_of (opcodeOf_primaryWord _ _ _ _ _) (functOf_primaryWord _ _ _ _ _) rfl⟩

theorem sllv (rd rt rs : RegIdx) : Statement (.sllv rd rt rs) :=
  ⟨rfl, primary_of (opcodeOf_primaryWord _ _ _ _ _) (functOf_primaryWord _ _ _ _ _) rfl⟩

theorem srlv (rd rt rs : RegIdx) : Statement (.srlv rd rt rs) :=
  ⟨rfl, primary_of (opcodeOf_primaryWord _ _ _ _ _) (functOf_primaryWord _ _ _ _ _) rfl⟩

theorem srav (rd rt rs : RegIdx) : Statement (.srav rd rt rs) :=
  ⟨rfl, primary_of (opcodeOf_primaryWord _ _ _ _ _) (functOf_primaryWord _ _ _ _ _) rfl⟩

theorem jr (rs : RegIdx) : Statement (.jr rs) :=
  ⟨rfl, primary_of (opcodeOf_primaryWord _ _ _ _ _) (functOf_primaryWord _ _ _ _ _) rfl⟩

theorem jalr (rd rs : RegIdx) : Statement (.jalr rd rs) :=
  ⟨rfl, primary_of (opcodeOf_primaryWord _ _ _ _ _) (functOf_primaryWord _ _ _ _ _) rfl⟩

theorem syscall : Statement .syscall :=
  ⟨rfl, primary_of (opcodeOf_primaryWord _ _ _ _ _) (functOf_primaryWord _ _ _ _ _) rfl⟩

theorem mfhi (rd : RegIdx) : Statement (.mfhi rd) :=
  ⟨rfl, primary_of (opcodeOf_primaryWord _ _ _ _ _) (functOf_primaryWord _ _ _ _ _) rfl⟩

theorem mflo (rd : RegIdx) : Statement (.mflo rd) :=
  ⟨rfl, primary_of (opcodeOf_primaryWord _ _ _ _ _) (functOf_primaryWord _ _ _ _ _) rfl⟩

theorem mult (rs rt : RegIdx) : Statement (.mult rs rt) :=
  ⟨rfl, primary_of (opcodeOf_primaryWord _ _ _ _ _) (functOf_primaryWord _ _ _ _ _) rfl⟩

theorem multu (rs rt : RegIdx) : Statement (.multu rs rt) :=
  ⟨rfl, primary_of (opcodeOf_primaryWord _ _ _ _ _) (functOf_primaryWord _ _ _ _ _) rfl⟩

theorem div (rs rt : RegIdx) : Statement (.div rs rt) :=
  ⟨rfl, primary_of (opcodeOf_primaryWord _ _ _ _ _) (functOf_primaryWord _ _ _ _ _) rfl⟩

theorem divu (rs rt : RegIdx) : Statement (.divu rs rt) :=
  ⟨rfl, primary_of (opcodeOf_primaryWord _ _ _ _ _) (functOf_primaryWord _ _ _ _ _) rfl⟩

theorem add (rd rs rt : RegIdx) : Statement (.add rd rs rt) :=
  ⟨rfl, primary_of (opcodeOf_primaryWord _ _ _ _ _) (functOf_primaryWord _ _ _ _ _) rfl⟩

theorem addu (rd rs rt : RegIdx) : Statement (.addu rd rs rt) :=
  ⟨rfl, primary_of (opcodeOf_primaryWord _ _ _ _ _) (functOf_primaryWord _ _ _ _ _) rfl⟩

theorem sub (rd rs rt : RegIdx) : Statement (.sub rd rs rt) :=
  ⟨rfl, primary_of (opcodeOf_primaryWord _ _ _ _ _) (functOf_primaryWord _ _ _ _ _) rfl⟩

theorem subu (rd rs rt : RegIdx) : Statement (.subu rd rs rt) :=
  ⟨rfl, primary_of (opcodeOf_primaryWord _ _ _ _ _) (functOf_primaryWord _ _ _ _ _) rfl⟩

theorem and (rd rs rt : RegIdx) : Statement (.and rd rs rt) :=
  ⟨rfl, primary_of (opcodeOf_primaryWord _ _ _ _ _) (functOf_primaryWord _ _ _ _ _) rfl⟩

theorem or (rd rs rt : RegIdx) : Statement (.or rd rs rt) :=
  ⟨rfl, primary_of (opcodeOf_primaryWord _ _ _ _ _) (functOf_primaryWord _ _ _ _ _) rfl⟩

theorem xor (rd rs rt : RegIdx) : Statement (.xor rd rs rt) :=
  ⟨rfl, primary_of (opcodeOf_primaryWord _ _ _ _ _) (functOf_primaryWord _ _ _ _ _) rfl⟩

theorem nor (rd rs rt : RegIdx) : Statement (.nor rd rs rt) :=
  ⟨rfl, primary_of (opcodeOf_primaryWord _ _ _ _ _) (functOf_primaryWord _ _ _ _ _) rfl⟩

theorem slt (rd rs rt : RegIdx) : Statement (.slt rd rs rt) :=
  ⟨rfl, primary_of (opcodeOf_primaryWord _ _ _ _ _) (functOf_primaryWord _ _ _ _ _) rfl⟩

theorem sltu (rd rs rt : RegIdx) : Statement (.sltu rd rs rt) :=
  ⟨rfl, primary_of (opcodeOf_primaryWord _ _ _ _ _) (functOf_primaryWord _ _ _ _ _) rfl⟩

theorem bltz (rs : RegIdx) (imm : BitVec 16) : Statement (.bltz rs imm) :=
  ⟨rfl, opcode_of (opcodeOf_immediateWord _ _ _ _) rfl⟩

theorem beq (rs rt : RegIdx) (imm : BitVec 16) : Statement (.beq rs rt imm) :=
  ⟨rfl, opcode_of (opcodeOf_immediateWord _ _ _ _) rfl⟩

theorem bne (rs rt : RegIdx) (imm : BitVec 16) : Statement (.bne rs rt imm) :=
  ⟨rfl, opcode_of (opcodeOf_immediateWord _ _ _ _) rfl⟩

theorem addi (rt rs : RegIdx) (imm : BitVec 16) : Statement (.addi rt rs imm) :=
  ⟨rfl, opcode_of (opcodeOf_immediateWord _ _ _ _) rfl⟩

theorem addiu (rt rs : RegIdx) (imm : BitVec 16) : Statement (.addiu rt rs imm) :=
  ⟨rfl, opcode_of (opcodeOf_immediateWord _ _ _ _) rfl⟩

theorem slti (rt rs : RegIdx) (imm : BitVec 16) : Statement (.slti rt rs imm) :=
  ⟨rfl, opcode_of (opcodeOf_immediateWord _ _ _ _) rfl⟩

theorem sltiu (rt rs : RegIdx) (imm : BitVec 16) : Statement (.sltiu rt rs imm) :=
  ⟨rfl, opcode_of (opcodeOf_immediateWord _ _ _ _) rfl⟩

theorem andi (rt rs : RegIdx) (imm : BitVec 16) : Statement (.andi rt rs imm) :=
  ⟨rfl, opcode_of (opcodeOf_immediateWord _ _ _ _) rfl⟩

theorem ori (rt rs : RegIdx) (imm : BitVec 16) : Statement (.ori rt rs imm) :=
  ⟨rfl, opcode_of (opcodeOf_immediateWord _ _ _ _) rfl⟩

theorem xori (rt rs : RegIdx) (imm : BitVec 16) : Statement (.xori rt rs imm) :=
  ⟨rfl, opcode_of (opcodeOf_immediateWord _ _ _ _) rfl⟩

theorem lui (rt : RegIdx) (imm : BitVec 16) : Statement (.lui rt imm) :=
  ⟨rfl, opcode_of (opcodeOf_immediateWord _ _ _ _) rfl⟩

theorem lw (rt : RegIdx) (imm : BitVec 16) (rs : RegIdx) : Statement (.lw rt imm rs) :=
  ⟨rfl, opcode_of (opcodeOf_immediateWord _ _ _ _) rfl⟩

theorem sw (rt : RegIdx) (imm : BitVec 16) (rs : RegIdx) : Statement (.sw rt imm rs) :=
  ⟨rfl, opcode_of (opcodeOf_immediateWord _ _ _ _) rfl⟩

theorem j (field : BitVec 26) : Statement (.j field) :=
  ⟨rfl, opcode_of (opcodeOf_jumpWord _ _) rfl⟩

theorem jal (field : BitVec 26) : Statement (.jal field) :=
  ⟨rfl, opcode_of (opcodeOf_jumpWord _ _) rfl⟩

end Sys2Proof.Laws.Classified
end

