-- ==== Sys2Proof/Laws/Stages.lean ====
section
/-!
SUPPORT. What each stage does when it produces and accepts in a pass: one structure per stage, which lists every field of the state after it.
Proofs about a cycle cite these and unfold no stage function.
-/

namespace Sys2Proof.Machine

/-- What no stage changes by producing and accepting. -/
structure StageKeeps (s t : State) : Prop where
  cfg : t.cfg = s.cfg
  halted : t.halted = s.halted
  error : t.error = s.error
  cycle : t.cycle = s.cycle

/-- Fetch has read the word at its latched address and latched the snapshot (R116). -/
structure FetchTurn (s t : State) : Prop extends StageKeeps s t where
  regs : t.regs = s.regs
  pc : t.pc = s.pc
  acc : t.acc = s.acc
  accWritten : t.accWritten = s.accWritten
  mem : t.mem = s.mem
  slots : t.slots = match s.latches.fetch with
    | none => s.slots
    | some f => (s.touch f.addr).slots
  inRange : ∀ f, s.latches.fetch = some f → s.inRange f.addr = true
  lat : t.lat = s.lat.set .fetch Config.stageLatency
  latches : t.latches = { s.latches with fetch := s.outs.snapshot }
  outs : t.outs = { s.outs with
    snapshot := none, fetched := s.latches.fetch.map fun f => ⟨f, s.wordAt f.addr⟩ }

/-- Decode has classified its word and loaded the operands by format (R117). -/
structure DecodeTurn (s t : State) : Prop extends StageKeeps s t where
  regs : t.regs = s.regs
  pc : t.pc = s.pc
  acc : t.acc = s.acc
  accWritten : t.accWritten = s.accWritten
  mem : t.mem = s.mem
  slots : t.slots = s.slots
  lat : t.lat = s.lat.set .decode Config.stageLatency
  latches : t.latches = { s.latches with decode := s.outs.fetched }
  outs : ∃ o, t.outs = { s.outs with fetched := none, decoded := o } ∧ o.map (·.toDecodeIn) = s.latches.decode ∧
    ∀ e, o = some e → decode e.instr = .ok e.insn ∧ e.vals = s.loadOperands e.insn.format e.instr

/-- Execute has computed a result (R118). -/
structure ExecuteTurn (s t : State) : Prop extends StageKeeps s t where
  regs : t.regs = s.regs
  pc : t.pc = s.pc
  acc : t.acc = s.acc
  accWritten : t.accWritten = s.accWritten
  mem : t.mem = s.mem
  slots : t.slots = s.slots
  lat : t.lat = s.lat.set .execute Config.stageLatency
  latches : t.latches = { s.latches with execute := s.outs.decoded }
  outs : ∃ o, t.outs = { s.outs with decoded := none, executed := o } ∧ o.map (·.toExecuteIn) = s.latches.execute

/-- What the memory-access stage does to memory: the access of the instruction in its latch (R119). -/
def Accessed (s : State) (mem : Memory) (slots : List Word) : Prop :=
  match s.latches.memoryAccess with
  | none => mem = s.mem ∧ slots = s.slots
  | some p => ∃ u v, (meaning p.insn).mem p (s.inPhase .memoryAccess) = .ok (u, v) ∧ mem = u.mem ∧ slots = u.slots

/-- Memory-access has made its access (R119). -/
structure AccessTurn (s t : State) : Prop extends StageKeeps s t where
  regs : t.regs = s.regs
  pc : t.pc = s.pc
  acc : t.acc = s.acc
  accWritten : t.accWritten = s.accWritten
  access : Accessed s t.mem t.slots
  lat : t.lat = s.lat.set .memoryAccess Config.stageLatency
  latches : t.latches = { s.latches with memoryAccess := s.outs.executed }
  outs : ∃ o, t.outs = { s.outs with executed := none, accessed := o } ∧ o.map (·.toMemoryIn) = s.latches.memoryAccess

/-- What write-back commits: the commit of the instruction in its latch (R120). -/
def Committed (s : State) (regs : Vector Word 32) (pc : Word) (acc : DWord) (accWritten : Bool) : Prop :=
  match s.latches.writeBack with
  | none => regs = s.regs ∧ pc = s.pc ∧ acc = s.acc ∧ accWritten = s.accWritten
  | some w => ∃ u, (meaning w.insn).wb w (s.inPhase .writeBack) = .ok u ∧
      regs = u.regs ∧ pc = u.pc ∧ acc = u.acc ∧ accWritten = u.accWritten

/-- Write-back has committed (R120). -/
structure WriteBackTurn (s t : State) : Prop extends StageKeeps s t where
  mem : t.mem = s.mem
  slots : t.slots = s.slots
  commit : Committed s t.regs t.pc t.acc t.accWritten
  lat : t.lat = s.lat.set .writeBack Config.stageLatency
  latches : t.latches = { s.latches with writeBack := s.outs.accessed }
  outs : t.outs = { s.outs with
    accessed := none,
    retired := s.latches.writeBack.map fun w => ⟨w.addr, decide (w.insn = .syscall)⟩ }

theorem accept_next {s t : State} {st : Stage} (h : s.accept st = .next t) :
    t = { s.latchInput st with lat := s.lat.set st Config.stageLatency } := by
  unfold State.accept at h
  split at h
  · cases h
  · cases h; rfl

theorem produceAccept_next {s t : State} {st : Stage} (h : produceAccept st s = .next t) :
    ∃ v, produce st s = .next v ∧ t = { (v.spend st).latchInput st with lat := v.lat.set st Config.stageLatency } := by
  unfold produceAccept andThen at h
  split at h
  · rename_i v hv
    exact ⟨v, hv, by simpa using accept_next h⟩
  · cases h
  · cases h

theorem produceAccept_fetch {s t : State} (h : produceAccept .fetch s = .next t) : FetchTurn s t := by
  obtain ⟨v, hv, rfl⟩ := produceAccept_next h
  change produceFetch s = _ at hv
  unfold produceFetch at hv
  split at hv
  · rename_i hf
    cases hv
    constructor <;> simp [State.latchInput, State.spend, hf]
    constructor <;> rfl
  · rename_i f hf
    unfold State.memRead at hv
    split at hv
    · cases hv
    · rename_i u w hm
      split at hm
      · rename_i hr
        cases hm
        cases hv
        constructor <;> simp [State.latchInput, State.spend, hf, hr]
        constructor <;> rfl
      · cases hm

theorem inPhase_decoding {s : State} {d : DecodeIn} (h : s.latches.decode = some d) :
    s.inPhase .decode = s.decoding d := by
  simp [State.inPhase, State.decoding, ← h]

theorem inPhase_executing {s : State} {e : ExecuteIn} (h : s.latches.execute = some e) :
    s.inPhase .execute = s.executing e := by
  simp [State.inPhase, State.executing, ← h]

theorem inPhase_accessing {s : State} {p : MemoryIn} (h : s.latches.memoryAccess = some p) :
    s.inPhase .memoryAccess = s.accessing p := by
  simp [State.inPhase, State.accessing, ← h]

theorem inPhase_committing {s : State} {w : WriteBackIn} (h : s.latches.writeBack = some w) :
    s.inPhase .writeBack = s.committing w := by
  simp [State.inPhase, State.committing, ← h]

theorem produceAccept_decode {s t : State} (h : produceAccept .decode s = .next t) : DecodeTurn s t := by
  obtain ⟨v, hv, rfl⟩ := produceAccept_next h
  change produceDecode s = _ at hv
  unfold produceDecode at hv
  split at hv
  · rename_i hd
    cases hv
    constructor <;> simp [State.latchInput, State.spend, hd]
    constructor <;> rfl
  · rename_i d hd
    split at hv
    · cases hv
    · rename_i i hi
      rw [inPhase_decoding hd, exec_decoding] at hv
      cases hv
      constructor <;> simp [State.latchInput, State.spend, hd, hi, State.decoding]
      constructor <;> rfl

theorem produceAccept_execute {s t : State} (h : produceAccept .execute s = .next t) : ExecuteTurn s t := by
  obtain ⟨v, hv, rfl⟩ := produceAccept_next h
  change produceExecute s = _ at hv
  unfold produceExecute at hv
  split at hv
  · rename_i he
    cases hv
    constructor <;> simp [State.latchInput, State.spend, he]
    constructor <;> rfl
  · rename_i e he
    rw [inPhase_executing he, exec_executing] at hv
    split at hv
    · cases hv
    · cases hv
      constructor <;> simp [State.latchInput, State.spend, he, State.executing]
      constructor <;> rfl

theorem produceAccept_memoryAccess {s t : State} (h : produceAccept .memoryAccess s = .next t) : AccessTurn s t := by
  obtain ⟨v, hv, rfl⟩ := produceAccept_next h
  change produceMemoryAccess s = _ at hv
  unfold produceMemoryAccess at hv
  split at hv
  · rename_i hp
    cases hv
    constructor <;> simp [State.latchInput, State.spend, hp, Accessed]
    constructor <;> rfl
  · rename_i p hp
    rw [inPhase_accessing hp, exec_accessing] at hv
    split at hv
    · cases hv
    · rename_i u w hm
      have ha := mem_accessOnly hm
      cases hv
      unfold AccessOnly at ha
      rw [ha] at hm ⊢
      constructor <;> simp [State.latchInput, State.spend, hp, State.accessing]
      · constructor <;> rfl
      · unfold Accessed
        rw [hp]
        rw [← inPhase_accessing hp] at hm
        exact ⟨_, _, hm, rfl, rfl⟩

theorem produceAccept_writeBack {s t : State} (h : produceAccept .writeBack s = .next t) : WriteBackTurn s t := by
  obtain ⟨v, hv, rfl⟩ := produceAccept_next h
  change produceWriteBack s = _ at hv
  unfold produceWriteBack at hv
  split at hv
  · rename_i hw
    cases hv
    constructor <;> simp [State.latchInput, State.spend, hw, Committed]
    constructor <;> rfl
  · rename_i w hw
    rw [inPhase_committing hw, exec_committing] at hv
    split at hv
    · cases hv
    · rename_i u hm
      have ha := wb_commitOnly hm
      cases hv
      unfold CommitOnly at ha
      rw [ha] at hm ⊢
      constructor <;> simp [State.latchInput, State.spend, hw, State.committing]
      · constructor <;> rfl
      · unfold Committed
        rw [hw]
        rw [← inPhase_committing hw] at hm
        exact ⟨_, hm, rfl, rfl, rfl, rfl⟩

/-! ## What each stage can raise -/

/-- What fetch raises (R116, R222). -/
theorem produceFetch_fault {s : State} {x : Fault} (h : produce .fetch s = .fault x) :
    ∃ f, s.latches.fetch = some f ∧ s.unitSize ≤ s.slotOf f.addr ∧ x = .outOfRange (s.slotOf f.addr) := by
  change produceFetch s = _ at h
  unfold produceFetch at h
  split at h
  · cases h
  · rename_i f hf
    unfold State.memRead State.inRange at h
    split at h
    · rename_i e hr
      split at hr <;> cases hr
      cases h
      exact ⟨f, hf, by rename_i hn; simpa using hn, rfl⟩
    · cases h

/-- What decode raises (R117, R223). -/
theorem produceDecode_fault {s : State} {x : Fault} (h : produce .decode s = .fault x) :
    ∃ d, s.latches.decode = some d ∧ (∀ i, decode d.instr ≠ .ok i) ∧ x = .unknownEncoding d.addr d.instr := by
  change produceDecode s = _ at h
  unfold produceDecode at h
  split at h
  · cases h
  · rename_i d hd
    split at h
    · rename_i e he
      cases h
      exact ⟨d, hd, fun i => by rw [he]; simp, rfl⟩
    · rw [inPhase_decoding hd, exec_decoding] at h; cases h

/-- What execute raises, on a payload classified as the tables say (R118, R226). -/
theorem ex_fault {i : Instr} {e : ExecuteIn} {s : State} {x : Fault} (hv : e.vals.format = i.format)
    (h : (meaning i).ex e s = .error x) :
    ∃ a b c, e.vals = .primary a b c ∧ x = .undefinedArithmetic e.addr a b ∧
      ((∃ rs rt, i = .div rs rt ∧ signedDivisionUndefined a b = true) ∨ ∃ rs rt, i = .divu rs rt ∧ b = 0) := by
  rcases hw : e.vals with ⟨a, b, c⟩ | ⟨a, b⟩ | _ <;> rw [hw] at hv <;> cases i <;> simp [Vals.format, Instr.format, Instr.mnemonic, Mnemonic.format] at hv
  all_goals simp [meaning, aluRegister, aluImmediate, accProducer, accRetrieval, jumpRegister, jumpLinkRegister, branch, jump,
      jumpLink, loadWord, storeWord, systemCall, exPrimary, exImmediate, exEffectiveAddress, exZero, exSource, hw] at h
  case primary.div | primary.divu =>
    split at h
    · cases h
    · rename_i x hx
      split at hx <;> cases hx
      cases h
      refine ⟨a, b, c, rfl, rfl, ?_⟩
      simp_all

/-- What memory-access raises, on a payload classified as the tables say (R119, R222). -/
theorem mem_fault {i : Instr} {p : MemoryIn} {s : State} {x : Fault} (hv : p.vals.format = i.format)
    (h : (meaning i).mem p s = .error x) :
    ((∃ rt imm rs, i = .lw rt imm rs) ∨ ∃ rt imm rs, i = .sw rt imm rs) ∧
      s.unitSize ≤ s.slotOf (lowWord p.result) ∧ x = .outOfRange (s.slotOf (lowWord p.result)) := by
  cases i
  case lw rt imm rs =>
    simp only [meaning, loadWord, memLoad, State.memRead] at h
    split at h <;> cases h
    rename_i hn
    exact ⟨.inl ⟨rt, imm, rs, rfl⟩, by simpa [State.inRange] using hn, rfl⟩
  case sw rt imm rs =>
    simp only [meaning, storeWord, memStore, State.memWrite] at h
    split at h
    · split at h
      · cases h
      · rename_i hx
        split at hx <;> cases hx
        cases h
        rename_i hn
        exact ⟨.inr ⟨rt, imm, rs, rfl⟩, by simpa [State.inRange] using hn, rfl⟩
    · rename_i hn
      rcases hw : p.vals with ⟨a, b, c⟩ | ⟨a, b⟩ | _
      · rw [hw] at hv; cases hv
      · exact absurd hw (hn a b)
      · rw [hw] at hv; cases hv
  all_goals cases h

/-- What the stage raises, where its latch is classified (R118, R226). -/
theorem produceExecute_fault {s : State} {x : Fault} (hc : ∀ e ∈ s.latches.execute, e.vals.format = e.insn.format)
    (h : produce .execute s = .fault x) :
    ∃ e a b c, s.latches.execute = some e ∧ e.vals = .primary a b c ∧ x = .undefinedArithmetic e.addr a b ∧
      ((∃ rs rt, e.insn = .div rs rt ∧ signedDivisionUndefined a b = true) ∨ ∃ rs rt, e.insn = .divu rs rt ∧ b = 0) := by
  change produceExecute s = _ at h
  unfold produceExecute at h
  split at h
  · cases h
  · rename_i e he
    rw [inPhase_executing he, exec_executing] at h
    split at h
    · rename_i f hf
      cases h
      obtain ⟨a, b, c, h1, h2, h3⟩ := ex_fault (hc e he) hf
      exact ⟨e, a, b, c, he, h1, h2, h3⟩
    · cases h

/-- What the stage raises, where its latch is classified (R119, R222). -/
theorem produceMemoryAccess_fault {s : State} {x : Fault} (hc : ∀ p ∈ s.latches.memoryAccess, p.vals.format = p.insn.format)
    (h : produce .memoryAccess s = .fault x) :
    ∃ p, s.latches.memoryAccess = some p ∧ ((∃ rt imm rs, p.insn = .lw rt imm rs) ∨ ∃ rt imm rs, p.insn = .sw rt imm rs) ∧
      s.unitSize ≤ s.slotOf (lowWord p.result) ∧ x = .outOfRange (s.slotOf (lowWord p.result)) := by
  change produceMemoryAccess s = _ at h
  unfold produceMemoryAccess at h
  split at h
  · cases h
  · rename_i p hp
    rw [inPhase_accessing hp, exec_accessing] at h
    split at h
    · rename_i f hf
      cases h
      exact ⟨p, hp, mem_fault (s := s.accessing p) (hc p hp) hf⟩
    · cases h

/-- Write-back raises nothing (R120). -/
theorem produceWriteBack_no_fault (s : State) (x : Fault) : produce .writeBack s ≠ .fault x := by
  change produceWriteBack s ≠ _
  unfold produceWriteBack
  split
  · simp
  · rename_i w hw
    obtain ⟨t, ht⟩ := wb_ok w.insn w (s.committing w)
    rw [inPhase_committing hw, exec_committing, ht]
    simp

/-- Producing leaves the latency counters (R30). -/
theorem produce_lat {st : Stage} {s v : State} (h : produce st s = .next v) : v.lat = s.lat := by
  cases st <;> simp only [produce, produceFetch, produceDecode, produceExecute, produceMemoryAccess, produceWriteBack] at h
  · split at h
    · cases h; rfl
    · split at h
      · cases h
      · rename_i hm
        unfold State.memRead at hm
        split at hm <;> cases hm
        cases h; simp
  all_goals repeat' split at h
  all_goals first
    | (cases h; done)
    | (cases h; rfl)
    | (have hn := exec_next h
       rcases hn with ⟨-, o, rfl⟩ | ⟨-, o, rfl⟩ | ⟨-, u, o, ha, rfl⟩ | ⟨-, u, o, ha, rfl⟩
       · rfl
       · rfl
       · unfold AccessOnly at ha; rw [ha]; rfl
       · unfold CommitOnly at ha; rw [ha]; rfl)

/-- On an idle stage an error of the turn is one of producing; `accept` raises none (R112). -/
theorem produceAccept_fault {st : Stage} {s : State} {x : Fault} (hb : s.busy st = false) :
    produceAccept st s = .fault x ↔ produce st s = .fault x := by
  unfold produceAccept andThen
  split
  · rename_i v hv
    have hbv : (v.spend st).busy st = false := by
      rw [← hb]; unfold State.busy; simp [produce_lat hv]
    simp [State.accept, hbv, hv]
  · rename_i f hf; rw [hf]
  · rename_i y hy; rw [hy]

/-! ## The turn of a stage -/

theorem produce_ne_refused (st : Stage) (s : State) (x : Refusal) : produce st s ≠ .refused x := by
  cases st <;> simp only [produce, produceFetch, produceDecode, produceExecute, produceMemoryAccess, produceWriteBack] <;>
    repeat' split
  all_goals first | exact exec_ne_refused _ _ _ | simp

theorem produceAccept_ne_refused (st : Stage) (s : State) (x : Refusal) : produceAccept st s ≠ .refused x := by
  unfold produceAccept andThen
  split
  · rename_i t _
    show (t.spend st).accept st ≠ _
    unfold State.accept
    split <;> simp
  · simp
  · rename_i y hy; exact absurd hy (produce_ne_refused st s y)

/-- What a turn can do: nothing (a held stage, or after a fatal error), the stage's work, or a fatal error of the stage. -/
theorem turn_cases (first : Nat) (st : Stage) (s : State) :
    ∃ t, turn first st s = .next t ∧
      (((s.halted = true ∨ st.index < first) ∧ t = s) ∨
       (s.halted = false ∧ first ≤ st.index ∧ produceAccept st s = .next t) ∨
       (s.halted = false ∧ first ≤ st.index ∧ ∃ f, produceAccept st s = .fault f ∧ t = s.takeFatalError st f)) := by
  unfold turn
  split
  · rename_i h
    exact ⟨s, rfl, .inl ⟨by simpa using h, rfl⟩⟩
  · rename_i h
    simp only [Bool.or_eq_true, decide_eq_true_eq, not_or, Bool.not_eq_true, not_lt] at h
    split
    · rename_i t ht; exact ⟨t, rfl, .inr (.inl ⟨h.1, h.2, ht⟩)⟩
    · rename_i f hf; exact ⟨_, rfl, .inr (.inr ⟨h.1, h.2, f, hf, rfl⟩)⟩
    · rename_i x hx; exact absurd hx (produceAccept_ne_refused st s x)

/-- A pass is the five turns one after another. -/
theorem pass_chain (first : Nat) (s : State) : ∃ s1 s2 s3 s4 s5,
    turn first .fetch s = .next s1 ∧ turn first .decode s1 = .next s2 ∧ turn first .execute s2 = .next s3 ∧
    turn first .memoryAccess s3 = .next s4 ∧ turn first .writeBack s4 = .next s5 ∧ pass first s = .next s5 := by
  obtain ⟨s1, h1, -⟩ := turn_cases first .fetch s
  obtain ⟨s2, h2, -⟩ := turn_cases first .decode s1
  obtain ⟨s3, h3, -⟩ := turn_cases first .execute s2
  obtain ⟨s4, h4, -⟩ := turn_cases first .memoryAccess s3
  obtain ⟨s5, h5, -⟩ := turn_cases first .writeBack s4
  exact ⟨s1, s2, s3, s4, s5, h1, h2, h3, h4, h5, by simp [pass, andThen, h1, h2, h3, h4, h5]⟩

end Sys2Proof.Machine
end

