-- ==== Sys2Proof/Laws/Step.lean ====
section
/-!
SUPPORT. What a cycle does, as a chain of the five stages' turns. Proofs about `step` start from `step_chain` or, for a cycle without fatal error,
from `clean_cycle`.
-/

namespace Sys2Proof.Machine

/-- Where no latency is above 1, no stage is busy after the tick (R126). -/
theorem firstAdvancing_zero {s : State} (h : s.LatencyOk) : (beginCycle s).firstAdvancing = 0 := by
  obtain ⟨h0, h1, h2, h3, h4⟩ := h
  simp [State.firstAdvancing, State.busy, beginCycle, State.tickAll, PerStage.get, tickCounter, Config.tickAmount,
    Nat.sub_eq_zero_of_le, h0, h1, h2, h3, h4]

/-- After the tick, every stage past the stall boundary is idle. -/
theorem idle_of_firstAdvancing {s : State} {st : Stage} (h : s.firstAdvancing ≤ st.index) : s.busy st = false := by
  revert h
  unfold State.firstAdvancing
  cases hb : s.busy st
  · simp
  · cases st <;> simp only [Stage.index] <;> repeat' split
    all_goals simp_all

/-- The state a pass starts from. -/
def passStart (s : State) : State := takeSnapshot (beginCycle s).firstAdvancing (beginCycle s)

/-- A running core's step: five turns from the start of the pass, then the end of the cycle. -/
theorem step_chain {s t : State} (hh : s.halted = false) (h : step s = .next t) : ∃ s1 s2 s3 s4 s5,
    turn (beginCycle s).firstAdvancing .fetch (passStart s) = .next s1 ∧
    turn (beginCycle s).firstAdvancing .decode s1 = .next s2 ∧
    turn (beginCycle s).firstAdvancing .execute s2 = .next s3 ∧
    turn (beginCycle s).firstAdvancing .memoryAccess s3 = .next s4 ∧
    turn (beginCycle s).firstAdvancing .writeBack s4 = .next s5 ∧
    t = finishCycle (beginCycle s).firstAdvancing s5 := by
  obtain ⟨s1, s2, s3, s4, s5, h1, h2, h3, h4, h5, hp⟩ := pass_chain (beginCycle s).firstAdvancing (passStart s)
  refine ⟨s1, s2, s3, s4, s5, h1, h2, h3, h4, h5, ?_⟩
  unfold step advance at h
  rw [if_neg (by simp [hh])] at h
  change andThen (pass (beginCycle s).firstAdvancing (passStart s)) _ = _ at h
  rw [hp] at h
  simpa [andThen] using h.symm

/-- Every step answers a next state. -/
theorem step_next (s : State) : ∃ t, step s = .next t := by
  unfold step advance
  split
  · exact ⟨s, rfl⟩
  · obtain ⟨s1, s2, s3, s4, s5, -, -, -, -, -, hp⟩ := pass_chain (beginCycle s).firstAdvancing (passStart s)
    refine ⟨finishCycle (beginCycle s).firstAdvancing s5, ?_⟩
    change andThen (pass (beginCycle s).firstAdvancing (passStart s)) _ = _
    rw [hp]
    rfl

theorem step_halted {s : State} (h : s.halted = true) : step s = .next s := by
  simp [step, advance, h]

/-! ## The start and the end of a cycle, field by field -/

theorem takeSnapshot_eq (first : Nat) (s : State) :
    takeSnapshot first s = { s with
      pc := if first = 0 ∧ s.cfg.pcIncPhase = .beforePass then s.pc + 1 else s.pc
      outs := { Outputs.empty with snapshot := if first = 0 then some ⟨s.pc⟩ else none } } := by
  unfold takeSnapshot
  by_cases h : first = 0 ∧ s.cfg.pcIncPhase = .beforePass
  · simp only [h, and_self, if_true]; rfl
  · simp only [h, if_false]

theorem passStart_eq (s : State) : passStart s = { s with
    cycle := s.cycle + 1
    lat := s.tickAll.lat
    pc := if (beginCycle s).firstAdvancing = 0 ∧ s.cfg.pcIncPhase = .beforePass then s.pc + 1 else s.pc
    outs := { Outputs.empty with snapshot := if (beginCycle s).firstAdvancing = 0 then some ⟨s.pc⟩ else none } } := by
  unfold passStart
  rw [takeSnapshot_eq]
  rfl

theorem passStart_fields (s : State) :
    (passStart s).cfg = s.cfg ∧ (passStart s).regs = s.regs ∧ (passStart s).acc = s.acc ∧
    (passStart s).accWritten = s.accWritten ∧ (passStart s).mem = s.mem ∧ (passStart s).slots = s.slots ∧
    (passStart s).latches = s.latches ∧ (passStart s).halted = s.halted ∧ (passStart s).error = s.error ∧
    (passStart s).cycle = s.cycle + 1 ∧ (passStart s).lat = s.tickAll.lat := by
  rw [passStart_eq]
  exact ⟨rfl, rfl, rfl, rfl, rfl, rfl, rfl, rfl, rfl, rfl, rfl⟩

theorem passStart_clean {s : State} (h : s.LatencyOk) :
    (passStart s).outs = { Outputs.empty with snapshot := some ⟨s.pc⟩ } ∧
    (passStart s).pc = if s.cfg.pcIncPhase = .beforePass then s.pc + 1 else s.pc := by
  rw [passStart_eq]
  simp [firstAdvancing_zero h]

theorem passStart_pc (s : State) : (passStart s).pc = s.pc ∨ (passStart s).pc = s.pc + 1 := by
  rw [passStart_eq]
  dsimp only
  split <;> simp

theorem finishCycle_fields (first : Nat) (s : State) :
    (finishCycle first s).cfg = s.cfg ∧ (finishCycle first s).regs = s.regs ∧ (finishCycle first s).acc = s.acc ∧
    (finishCycle first s).accWritten = s.accWritten ∧ (finishCycle first s).mem = s.mem ∧
    (finishCycle first s).slots = s.slots ∧ (finishCycle first s).latches = s.latches ∧
    (finishCycle first s).error = s.error ∧ (finishCycle first s).cycle = s.cycle ∧ (finishCycle first s).lat = s.lat ∧
    (finishCycle first s).phase = .decode ∧ (finishCycle first s).outs = .empty := by
  unfold finishCycle retire incrementAfter
  repeat' split
  all_goals simp

theorem finishCycle_pc_of_halted {first : Nat} {s : State} (h : s.halted = true) : (finishCycle first s).pc = s.pc := by
  simp [finishCycle, h]

theorem finishCycle_pc_before {first : Nat} {s : State} (h : s.cfg.pcIncPhase = .beforePass) :
    (finishCycle first s).pc = s.pc := by
  unfold finishCycle retire incrementAfter
  simp only [h]
  repeat' split
  all_goals simp_all

theorem finishCycle_halted (first : Nat) (s : State) : (finishCycle first s).halted = (s.halted || s.quitFlag) := by
  have hq : (incrementAfter first s).quitFlag = s.quitFlag := by
    unfold incrementAfter; split <;> rfl
  have hi : (incrementAfter first s).halted = s.halted := by
    unfold incrementAfter; split <;> rfl
  unfold finishCycle retire
  rw [hq]
  cases hh : s.halted <;> cases hf : s.quitFlag <;> simp [hi, hh]

/-! ## The turn of a stage, with what its work did -/

theorem turn_fetch {first : Nat} {s t : State} (h : turn first .fetch s = .next t) :
    t = s ∨ FetchTurn s t ∨ ∃ f, produceAccept .fetch s = .fault f ∧ t = s.takeFatalError .fetch f := by
  obtain ⟨u, hu, hc⟩ := turn_cases first .fetch s
  obtain rfl : t = u := by simpa [h] using hu
  rcases hc with ⟨-, h⟩ | ⟨-, -, h⟩ | ⟨-, -, h⟩
  · exact .inl h
  · exact .inr (.inl (produceAccept_fetch h))
  · exact .inr (.inr h)

theorem turn_decode {first : Nat} {s t : State} (h : turn first .decode s = .next t) :
    t = s ∨ DecodeTurn s t ∨ ∃ f, produceAccept .decode s = .fault f ∧ t = s.takeFatalError .decode f := by
  obtain ⟨u, hu, hc⟩ := turn_cases first .decode s
  obtain rfl : t = u := by simpa [h] using hu
  rcases hc with ⟨-, h⟩ | ⟨-, -, h⟩ | ⟨-, -, h⟩
  · exact .inl h
  · exact .inr (.inl (produceAccept_decode h))
  · exact .inr (.inr h)

theorem turn_execute {first : Nat} {s t : State} (h : turn first .execute s = .next t) :
    t = s ∨ ExecuteTurn s t ∨ ∃ f, produceAccept .execute s = .fault f ∧ t = s.takeFatalError .execute f := by
  obtain ⟨u, hu, hc⟩ := turn_cases first .execute s
  obtain rfl : t = u := by simpa [h] using hu
  rcases hc with ⟨-, h⟩ | ⟨-, -, h⟩ | ⟨-, -, h⟩
  · exact .inl h
  · exact .inr (.inl (produceAccept_execute h))
  · exact .inr (.inr h)

theorem turn_memoryAccess {first : Nat} {s t : State} (h : turn first .memoryAccess s = .next t) :
    t = s ∨ AccessTurn s t ∨ ∃ f, produceAccept .memoryAccess s = .fault f ∧ t = s.takeFatalError .memoryAccess f := by
  obtain ⟨u, hu, hc⟩ := turn_cases first .memoryAccess s
  obtain rfl : t = u := by simpa [h] using hu
  rcases hc with ⟨-, h⟩ | ⟨-, -, h⟩ | ⟨-, -, h⟩
  · exact .inl h
  · exact .inr (.inl (produceAccept_memoryAccess h))
  · exact .inr (.inr h)

theorem turn_writeBack {first : Nat} {s t : State} (h : turn first .writeBack s = .next t) :
    t = s ∨ WriteBackTurn s t ∨ ∃ f, produceAccept .writeBack s = .fault f ∧ t = s.takeFatalError .writeBack f := by
  obtain ⟨u, hu, hc⟩ := turn_cases first .writeBack s
  obtain rfl : t = u := by simpa [h] using hu
  rcases hc with ⟨-, h⟩ | ⟨-, -, h⟩ | ⟨-, -, h⟩
  · exact .inl h
  · exact .inr (.inl (produceAccept_writeBack h))
  · exact .inr (.inr h)

/-! ## A cycle without fatal error -/

/-- A turn keeps an error that is there, and a halted core as it is. -/
theorem turn_error {first : Nat} {st : Stage} {s t : State} (h : turn first st s = .next t) :
    (s.halted = true → t = s) ∧ (t.error = none → s.halted = false → first ≤ st.index →
      produceAccept st s = .next t) ∧ (t.error = none → t.halted = s.halted ∧ s.error = none ∨ s = t) := by
  obtain ⟨u, hu, hc⟩ := turn_cases first st s
  obtain rfl : t = u := by simpa [h] using hu
  rcases hc with ⟨hc, rfl⟩ | ⟨h1, h2, hc⟩ | ⟨h1, h2, f, hc, rfl⟩
  · refine ⟨fun _ => rfl, fun _ a b => ?_, fun _ => .inr rfl⟩
    rcases hc with hc | hc
    · simp [a] at hc
    · omega
  · refine ⟨fun a => by simp [h1] at a, fun _ _ _ => hc, fun he => .inl ?_⟩
    have hk : StageKeeps s t := by
      cases st
      · exact (produceAccept_fetch hc).toStageKeeps
      · exact (produceAccept_decode hc).toStageKeeps
      · exact (produceAccept_execute hc).toStageKeeps
      · exact (produceAccept_memoryAccess hc).toStageKeeps
      · exact (produceAccept_writeBack hc).toStageKeeps
    exact ⟨hk.halted, hk.error ▸ he⟩
  · refine ⟨fun a => by simp [h1] at a, fun he => by simp [State.takeFatalError] at he, fun he => by simp [State.takeFatalError] at he⟩

theorem turn_clean {st : Stage} {s t : State} (h : turn 0 st s = .next t) (hh : s.halted = false) (he : t.error = none) :
    produceAccept st s = .next t ∧ t.halted = false ∧ s.error = none := by
  obtain ⟨-, h2, h3⟩ := turn_error h
  refine ⟨h2 he hh (Nat.zero_le _), ?_⟩
  rcases h3 he with h | rfl
  · exact ⟨h.1.trans hh, h.2⟩
  · exact ⟨hh, he⟩

/-- The error a turn finds stays. -/
theorem turn_keeps_error {first : Nat} {st : Stage} {s t : State} (h : turn first st s = .next t) (he : t.error = none) :
    s.error = none := by
  rcases (turn_error h).2.2 he with h | rfl
  · exact h.2
  · exact he

/-- A cycle without fatal error on a core whose latencies are legal: the five stages each did their work. -/
theorem clean_cycle {s t : State} (hl : s.LatencyOk) (hh : s.halted = false) (h : step s = .next t) (he : t.error = none) :
    ∃ s1 s2 s3 s4 s5, FetchTurn (passStart s) s1 ∧ DecodeTurn s1 s2 ∧ ExecuteTurn s2 s3 ∧ AccessTurn s3 s4 ∧
      WriteBackTurn s4 s5 ∧ t = finishCycle 0 s5 ∧ s5.halted = false := by
  obtain ⟨s1, s2, s3, s4, s5, h1, h2, h3, h4, h5, rfl⟩ := step_chain hh h
  rw [firstAdvancing_zero hl] at *
  have e5 : s5.error = none := by rw [← he]; exact (finishCycle_fields 0 s5).2.2.2.2.2.2.2.1.symm
  have e4 := turn_keeps_error h5 e5
  have e3 := turn_keeps_error h4 e4
  have e2 := turn_keeps_error h3 e3
  have e1 := turn_keeps_error h2 e2
  have hp : (passStart s).halted = false := by rw [(passStart_fields s).2.2.2.2.2.2.2.1, hh]
  obtain ⟨p1, q1, -⟩ := turn_clean h1 hp e1
  obtain ⟨p2, q2, -⟩ := turn_clean h2 q1 e2
  obtain ⟨p3, q3, -⟩ := turn_clean h3 q2 e3
  obtain ⟨p4, q4, -⟩ := turn_clean h4 q3 e4
  obtain ⟨p5, q5, -⟩ := turn_clean h5 q4 e5
  exact ⟨s1, s2, s3, s4, s5, produceAccept_fetch p1, produceAccept_decode p2, produceAccept_execute p3,
    produceAccept_memoryAccess p4, produceAccept_writeBack p5, rfl, q5⟩

/-! ## A cycle on a core whose latencies are legal: the first error of the pass, or none -/

theorem produce_ne_fault {st : Stage} {s t : State} (h : produceAccept st s = .next t) (x : Fault) : produce st s ≠ .fault x := by
  obtain ⟨v, hv, -⟩ := produceAccept_next h
  rw [hv]; simp

/-- The turn of an idle stage on a running core: its work, or the error it raises. -/
theorem turn_idle {st : Stage} {s t : State} (hh : s.halted = false) (hb : s.busy st = false) (h : turn 0 st s = .next t) :
    (produceAccept st s = .next t ∧ t.halted = false) ∨ ∃ x, produce st s = .fault x ∧ t = s.takeFatalError st x := by
  obtain ⟨u, hu, hc⟩ := turn_cases 0 st s
  obtain rfl : t = u := by simpa [h] using hu
  rcases hc with ⟨hc, -⟩ | ⟨-, -, hc⟩ | ⟨-, -, f, hc, rfl⟩
  · simp [hh] at hc
  · have hk : StageKeeps s t := by
      cases st
      · exact (produceAccept_fetch hc).toStageKeeps
      · exact (produceAccept_decode hc).toStageKeeps
      · exact (produceAccept_execute hc).toStageKeeps
      · exact (produceAccept_memoryAccess hc).toStageKeeps
      · exact (produceAccept_writeBack hc).toStageKeeps
    exact .inl ⟨hc, hk.halted.trans hh⟩
  · exact .inr ⟨f, (produceAccept_fault hb).1 hc, rfl⟩

theorem turn_of_halted {st : Stage} {s t : State} (hh : s.halted = true) (h : turn 0 st s = .next t) : t = s :=
  (turn_error h).1 hh

/-- Every stage is idle when a pass starts (R126). -/
theorem passStart_idle {s : State} (hl : s.LatencyOk) (st : Stage) : (passStart s).busy st = false := by
  have h0 : (beginCycle s).firstAdvancing ≤ st.index := by rw [firstAdvancing_zero hl]; omega
  rw [← idle_of_firstAdvancing h0]
  unfold State.busy
  rw [(passStart_fields s).2.2.2.2.2.2.2.2.2.2]
  rfl

/-- The work of one stage leaves the others idle (R112). -/
theorem idle_other {s t : State} {st st' : Stage} (h : t.lat = s.lat.set st Config.stageLatency) (hne : st' ≠ st)
    (hb : s.busy st' = false) : t.busy st' = false := by
  rw [← hb]
  unfold State.busy
  rw [h]
  cases st <;> cases st' <;> first | rfl | exact absurd rfl hne

/-- What a cycle is, for a running core whose latencies are legal: fetch raises an error and the pass stops there, or fetch does its work and the
same alternative stands for decode, then execute, then memory-access; write-back raises none (R124, R129). -/
theorem cycle_cases {s t : State} (hl : s.LatencyOk) (hh : s.halted = false) (h : step s = .next t) :
    (∃ x, produce .fetch (passStart s) = .fault x ∧ t = finishCycle 0 ((passStart s).takeFatalError .fetch x)) ∨
    ∃ s1, FetchTurn (passStart s) s1 ∧
    ((∃ x, produce .decode s1 = .fault x ∧ t = finishCycle 0 (s1.takeFatalError .decode x)) ∨
    ∃ s2, DecodeTurn s1 s2 ∧
    ((∃ x, produce .execute s2 = .fault x ∧ t = finishCycle 0 (s2.takeFatalError .execute x)) ∨
    ∃ s3, ExecuteTurn s2 s3 ∧ (∀ x, produce .execute s2 ≠ .fault x) ∧
    ((∃ x, produce .memoryAccess s3 = .fault x ∧ t = finishCycle 0 (s3.takeFatalError .memoryAccess x)) ∨
    ∃ s4 s5, AccessTurn s3 s4 ∧ (∀ x, produce .memoryAccess s3 ≠ .fault x) ∧ WriteBackTurn s4 s5 ∧
      t = finishCycle 0 s5 ∧ s5.halted = false))) := by
  obtain ⟨s1, s2, s3, s4, s5, h1, h2, h3, h4, h5, rfl⟩ := step_chain hh h
  rw [firstAdvancing_zero hl] at *
  have hp : (passStart s).halted = false := by rw [(passStart_fields s).2.2.2.2.2.2.2.1, hh]
  rcases turn_idle hp (passStart_idle hl _) h1 with ⟨p1, q1⟩ | ⟨x, hx, rfl⟩
  swap
  · obtain rfl := turn_of_halted rfl h2
    obtain rfl := turn_of_halted rfl h3
    obtain rfl := turn_of_halted rfl h4
    obtain rfl := turn_of_halted rfl h5
    exact .inl ⟨x, hx, rfl⟩
  have f1 := produceAccept_fetch p1
  refine .inr ⟨s1, f1, ?_⟩
  have b1 : ∀ st, st ≠ .fetch → s1.busy st = false := fun st hne => idle_other f1.lat hne (passStart_idle hl st)
  rcases turn_idle q1 (b1 _ (by simp)) h2 with ⟨p2, q2⟩ | ⟨x, hx, rfl⟩
  swap
  · obtain rfl := turn_of_halted rfl h3
    obtain rfl := turn_of_halted rfl h4
    obtain rfl := turn_of_halted rfl h5
    exact .inl ⟨x, hx, rfl⟩
  have f2 := produceAccept_decode p2
  refine .inr ⟨s2, f2, ?_⟩
  have b2 : ∀ st, st ≠ .fetch → st ≠ .decode → s2.busy st = false :=
    fun st hn hne => idle_other f2.lat hne (b1 st hn)
  rcases turn_idle q2 (b2 _ (by simp) (by simp)) h3 with ⟨p3, q3⟩ | ⟨x, hx, rfl⟩
  swap
  · obtain rfl := turn_of_halted rfl h4
    obtain rfl := turn_of_halted rfl h5
    exact .inl ⟨x, hx, rfl⟩
  have f3 := produceAccept_execute p3
  refine .inr ⟨s3, f3, produce_ne_fault p3, ?_⟩
  have b3 : ∀ st, st ≠ .fetch → st ≠ .decode → st ≠ .execute → s3.busy st = false :=
    fun st hn hm hne => idle_other f3.lat hne (b2 st hn hm)
  rcases turn_idle q3 (b3 _ (by simp) (by simp) (by simp)) h4 with ⟨p4, q4⟩ | ⟨x, hx, rfl⟩
  swap
  · obtain rfl := turn_of_halted rfl h5
    exact .inl ⟨x, hx, rfl⟩
  have f4 := produceAccept_memoryAccess p4
  have b4 : s4.busy .writeBack = false := idle_other f4.lat (by simp) (b3 _ (by simp) (by simp) (by simp))
  rcases turn_idle q4 b4 h5 with ⟨p5, q5⟩ | ⟨x, hx, rfl⟩
  · exact .inr ⟨s4, s5, f4, produce_ne_fault p4, produceAccept_writeBack p5, rfl, q5⟩
  · exact absurd hx (produceWriteBack_no_fault _ _)

end Sys2Proof.Machine
end

