-- ==== Sys2Proof/Tests/Slice0.lean ====
section
/-!
SUPPORT. Tests. Expected values come from spec/95_test_vectors.md (its section numbers stand in the comments) or from the encodings of
spec/30_encoding.md, written out bit by bit. The last part shows, for each statement with hypotheses, a state and operands that meet them.
-/

namespace Sys2Proof.Tests

open Sys2Proof.Machine Sys2Proof.Claims

/-! ## Well-formedness refuses what R5 excludes -/

theorem test_wf_default : Config.default.wf = true := by decide

theorem test_wf_memSize_zero : { Config.default with memSize := 0 }.wf = false := by decide

theorem test_wf_memSize_above : { Config.default with memSize := 2 ^ 32 + 1 }.wf = false := by decide

theorem test_wf_sparse_zero : { Config.default with memKind := .sparse 0 }.wf = false := by decide

theorem test_wf_sparse_above : { Config.default with memKind := .sparse (2 ^ 32 + 1) }.wf = false := by decide

theorem test_wf_slice_below : { Config.default with wbImmDestSlice := ⟨15, 21⟩ }.wf = false := by decide

theorem test_wf_slice_empty : { Config.default with wbImmDestSlice := ⟨18, 18⟩ }.wf = false := by decide

theorem test_wf_slice_above : { Config.default with wbImmDestSlice := ⟨16, 22⟩ }.wf = false := by decide

/-! ## Decoding: the words of R82 to R84, field by field -/

-- op rs rt rd shamt funct
theorem test_decode_shifts :
    decode 0b000000_00000_00010_00011_11111_000000#32 = .ok (.sll 3 2 31) ∧
    decode 0b000000_00000_00010_00011_00100_000010#32 = .ok (.srl 3 2 4) ∧
    decode 0b000000_00000_00010_00011_10000_000011#32 = .ok (.sra 3 2 16) ∧
    decode 0b000000_00001_00010_00011_00000_000100#32 = .ok (.sllv 3 2 1) ∧
    decode 0b000000_00001_00010_00011_00000_000110#32 = .ok (.srlv 3 2 1) ∧
    decode 0b000000_00001_00010_00011_00000_000111#32 = .ok (.srav 3 2 1) := by decide

theorem test_decode_indirect_and_system :
    decode 0b000000_10001_00000_00000_00000_001000#32 = .ok (.jr 17) ∧
    decode 0b000000_00001_00000_11111_00000_001001#32 = .ok (.jalr 31 1) ∧
    decode 0b000000_00000_00000_00000_00000_001100#32 = .ok .syscall ∧
    decode 0b000000_11111_11111_11111_11111_001100#32 = .ok .syscall := by decide

theorem test_decode_accumulator :
    decode 0b000000_00000_00000_00011_00000_010000#32 = .ok (.mfhi 3) ∧
    decode 0b000000_00000_00000_11000_00000_010010#32 = .ok (.mflo 24) ∧
    decode 0b000000_00001_00010_00000_00000_011000#32 = .ok (.mult 1 2) ∧
    decode 0b000000_00001_00010_00000_00000_011001#32 = .ok (.multu 1 2) ∧
    decode 0b000000_00001_00010_00000_00000_011010#32 = .ok (.div 1 2) ∧
    decode 0b000000_00001_00010_00000_00000_011011#32 = .ok (.divu 1 2) := by decide

theorem test_decode_register_alu :
    decode 0b000000_00001_00010_00011_00000_100000#32 = .ok (.add 3 1 2) ∧
    decode 0b000000_00001_00010_00011_00000_100001#32 = .ok (.addu 3 1 2) ∧
    decode 0b000000_00001_00010_00011_00000_100010#32 = .ok (.sub 3 1 2) ∧
    decode 0b000000_00001_00010_00011_00000_100011#32 = .ok (.subu 3 1 2) ∧
    decode 0b000000_00001_00010_00011_00000_100100#32 = .ok (.and 3 1 2) ∧
    decode 0b000000_00001_00010_00011_00000_100101#32 = .ok (.or 3 1 2) ∧
    decode 0b000000_00001_00010_00011_00000_100110#32 = .ok (.xor 3 1 2) ∧
    decode 0b000000_00001_00010_00011_00000_100111#32 = .ok (.nor 3 1 2) ∧
    decode 0b000000_00001_00010_00011_00000_101010#32 = .ok (.slt 3 1 2) ∧
    decode 0b000000_00001_00010_00011_00000_101011#32 = .ok (.sltu 3 1 2) := by decide

-- op rs rt imm16
theorem test_decode_branches :
    decode 0b000001_00001_00000_0000000000101000#32 = .ok (.bltz 1 40) ∧
    decode 0b000001_00001_00001_0000000000101000#32 = .ok (.bltz 1 40) ∧
    decode 0b000100_00001_00010_0000000000101000#32 = .ok (.beq 1 2 40) ∧
    decode 0b000101_00001_00010_0000000000101000#32 = .ok (.bne 1 2 40) := by decide

theorem test_decode_immediate_alu :
    decode 0b001000_00001_00010_1111111111111111#32 = .ok (.addi 2 1 0xFFFF) ∧
    decode 0b001001_00001_00010_1000000000000000#32 = .ok (.addiu 2 1 0x8000) ∧
    decode 0b001010_00001_00010_0000000000000101#32 = .ok (.slti 2 1 5) ∧
    decode 0b001011_00001_00010_0000000000000001#32 = .ok (.sltiu 2 1 1) ∧
    decode 0b001100_00001_00010_1111000000000000#32 = .ok (.andi 2 1 0xF000) ∧
    decode 0b001101_00001_00010_0000000000001111#32 = .ok (.ori 2 1 15) ∧
    decode 0b001110_00001_00010_0000000011111111#32 = .ok (.xori 2 1 255) ∧
    decode 0b001111_00000_00010_0001001000110100#32 = .ok (.lui 2 0x1234) := by decide

theorem test_decode_memory :
    decode 0b100011_00001_00010_0000000000010000#32 = .ok (.lw 2 16 1) ∧
    decode 0b101011_00001_00010_0000000000010000#32 = .ok (.sw 2 16 1) := by decide

-- op tgt26
theorem test_decode_jumps :
    decode 0b000010_00000000000000000000000101#32 = .ok (.j 5) ∧
    decode 0b000011_11111111111111111111111111#32 = .ok (.jal 0x3FFFFFF) := by decide

-- R87 and vectors 2.7: an opcode and a function code in no table
theorem test_decode_illegal :
    decode 0xFC000000#32 = .error (.unknownOpcode 0x3F) ∧ decode 0x00000001#32 = .error (.unknownFunct 1) := by decide

/-! ## One instruction on small states -/

/-- A core with 64 words of memory. -/
def small : State := State.construct { Config.default with memSize := 64 }

/-- A core with a sparse memory over a fresh unit of two words. -/
def smallSparse : State := State.construct { Config.default with memKind := .sparse 2 }

/-- `x[1]` and `x[2]` preset. -/
def preset (s : State) (a b : Word) : State := (s.writeReg 1 a).writeReg 2 b

/-- The parts of the instruction a word decodes to, one after another, the word at address 0. -/
def passOf (s : State) (w : Word) : Option State :=
  match decode w with
  | .error _ => none
  | .ok i =>
    match exec i (s.decoding ⟨⟨0⟩, w⟩) with
    | .next s1 => match s1.outs.decoded with
      | some e => match exec i (s1.executing e) with
        | .next s2 => match s2.outs.executed with
          | some p => match exec i (s2.accessing p) with
            | .next s3 => match s3.outs.accessed with
              | some q => match exec i (s3.committing q) with
                | .next s4 => some s4
                | _ => none
              | none => none
            | _ => none
          | none => none
        | _ => none
      | none => none
    | _ => none

/-- `x[3]` after an instruction, from `x[1]` and `x[2]` before. -/
def x3 (w a b : Word) : Option Word := (passOf (preset small a b) w).map (·.readReg 3)

/-- `x[2]` after an instruction, from `x[1]` and `x[2]` before. -/
def x2 (w a b : Word) : Option Word := (passOf (preset small a b) w).map (·.readReg 2)

/-- The accumulator after an instruction. -/
def accOf (w a b : Word) : Option DWord := (passOf (preset small a b) w).map (·.acc)

/-- The pc after an instruction, on a core whose pc is 5. -/
def pcOf (w a b : Word) : Option Word := (passOf ({ preset small a b with pc := 5 }) w).map (·.pc)

-- 2.1
theorem test_add : x3 0x00221820 0xFFFFFFFF 1 = some 0 := by decide
theorem test_addu : x3 0x00221821 0x7FFFFFFF 1 = some 0x80000000 := by decide
theorem test_sub : x3 0x00221822 5 7 = some 0xFFFFFFFE := by decide
theorem test_subu : x3 0x00221823 0 1 = some 0xFFFFFFFF := by decide
theorem test_and : x3 0x00221824 0xF0F0FF00 0x0FF0F0F0 = some 0x00F0F000 := by decide
theorem test_or : x3 0x00221825 0xF0F0FF00 0x0FF0F0F0 = some 0xFFF0FFF0 := by decide
theorem test_xor : x3 0x00221826 0xF0F0FF00 0x0FF0F0F0 = some 0xFF000FF0 := by decide
theorem test_nor : x3 0x00221827 0xF0F0FF00 0x0FF0F0F0 = some 0x000F000F := by decide
theorem test_slt : x3 0x0022182A 0x80000000 0x7FFFFFFF = some 1 := by decide
theorem test_slt_equal : x3 0x0022182A 5 5 = some 0 := by decide
theorem test_sltu : x3 0x0022182B 0x80000000 0x7FFFFFFF = some 0 := by decide
theorem test_sllv : x3 0x00221804 0xFFFFFFE4 0xF2345678 = some 0x23456780 := by decide
theorem test_srlv : x3 0x00221806 0x24 0xF2345678 = some 0x0F234567 := by decide
theorem test_srav : x3 0x00221807 0x3F 0x80000000 = some 0xFFFFFFFF := by decide
theorem test_sll : x3 0x01221900 0 0xF2345678 = some 0x23456780 := by decide
theorem test_srl : x3 0x00021FC2 0 0x80000000 = some 1 := by decide
theorem test_sra : x3 0x00021903 0 0xF2345678 = some 0xFF234567 := by decide

theorem test_register0_written :
    (passOf (preset small 2 3) 0x00220020).map (·.readReg 0) = some 5 := by decide

theorem test_register0_hardwired :
    (passOf (preset (State.construct { Config.default with r0Policy := .hardwired }) 2 3) 0x00220020).map (·.readReg 0) =
      some 0 := by decide

-- 2.2
theorem test_mult : accOf 0x00220018 0xFFFFFFD5 0xFFFFFF9E = some 0x1076 := by decide
theorem test_mult_negative : accOf 0x00220018 0xFFFFFFFF 2 = some 0xFFFFFFFFFFFFFFFE := by decide
theorem test_multu : accOf 0x00220019 0xFFFFFFFF 0xFFFFFFFF = some 0xFFFFFFFE00000001 := by decide
theorem test_div : accOf 0x0022001A 0xFFFFFFF9 2 = some 0xFFFFFFFFFFFFFFFD := by decide
theorem test_div_negative_divisor : accOf 0x0022001A 7 0xFFFFFFFE = some 0x00000001FFFFFFFD := by decide
theorem test_divu : accOf 0x0022001B 0xFFFFFFF9 2 = some 0x000000017FFFFFFC := by decide
theorem test_mfhi : (passOf (small.writeAcc 0x3FFFFFFF00000001) 0x00001810).map (·.readReg 3) = some 0x3FFFFFFF := by decide
theorem test_mflo : (passOf (small.writeAcc 0x3FFFFFFF00000001) 0x00001812).map (·.readReg 3) = some 1 := by decide

-- 2.3
theorem test_addi : x2 0x20228000 0x00010000 0 = some 0x00008000 := by decide
theorem test_addiu : x2 0x24228000 0 0 = some 0xFFFF8000 := by decide
theorem test_slti : x2 0x28228000 0xFFFF7FFF 0 = some 1 := by decide
theorem test_sltiu : x2 0x2C22FFFF 0 0 = some 1 := by decide
theorem test_andi : x2 0x30228000 0xFFFFFFFF 0 = some 0x00008000 := by decide
theorem test_ori : x2 0x34228000 0x12340000 0 = some 0x12348000 := by decide
theorem test_xori : x2 0x3822FFFF 0xFFFFFFFF 0 = some 0xFFFF0000 := by decide
theorem test_lui : x2 0x3CE28000 0 0 = some 0x80000000 := by decide

-- 2.4
theorem test_lw : (passOf ((preset small 21 0).putWord 20 0xCAFEBABE) 0x8C22FFFF).map (·.readReg 2) = some 0xCAFEBABE := by decide

theorem test_sw_index0 : (passOf (preset small 4 0x1234) 0xAC220010).map (·.mem) = some [(20, 4)] := by decide

theorem test_sw_index1 :
    (passOf (preset (State.construct { Config.default with swDataIndex := .index1 }) 4 0x1234) 0xAC220010).map (·.mem) =
      some [(20, 0x1234)] := by decide

-- 2.5
theorem test_jr : pcOf 0x00200008 0x14 0 = some 0x14 := by decide

theorem test_jalr : (passOf { preset small 0x14 0 with pc := 4 } 0x00202809).map (fun t => (t.pc, t.readReg 5)) =
    some (0x14, 6) := by decide

theorem test_beq : pcOf 0x10220028 7 7 = some 40 ∧ pcOf 0x10220028 7 8 = some 5 := by decide
theorem test_bne : pcOf 0x14220028 7 8 = some 40 ∧ pcOf 0x14220028 7 7 = some 5 := by decide
theorem test_bltz : pcOf 0x04210028 0xFFFFFFFF 0 = some 40 ∧ pcOf 0x04200028 0 0 = some 5 := by decide

-- S12
theorem test_j : (passOf { small with pc := 0xA0000123 } 0x0BFFFFFF).map (·.pc) = some 0xAFFFFFFC := by decide

theorem test_jal : (passOf { small with pc := 4 } 0x0C000005).map (fun t => (t.pc, t.readReg 31)) = some (20, 6) := by decide

-- 2.6
theorem test_syscall : (passOf small 0x03FFFFCC).map (fun t => (t.outs.retired, t.regs == small.regs)) =
    some (some ⟨0, true⟩, true) := by decide

/-! ## One step -/

/-- The state a step gives. -/
def after (s : State) : State :=
  match step s with
  | .next t => t
  | _ => s

theorem step_after (s : State) : step s = .next (after s) := by
  obtain ⟨t, h⟩ := step_next s
  rw [after, h]

-- R116, R130: the very next step fetches the word placed and commits the instruction, here `addi $1, $0, 5` and `jal 4` at address 0
theorem test_placed_runs :
    (let t := after (State.reset.withFetchWord 32 0x20010005)
     t.latches.decode = some ⟨⟨4⟩, 0x20010005⟩ ∧ t.readReg 1 = 5 ∧ t.error = none) ∧
    (State.reset.withFetchWord 32 0x20010005).readReg 1 = 0 := by decide

theorem test_placed_links :
    (let t := after (State.reset.withFetchWord 32 0x0C000004)
     t.readReg 31 = 6 ∧ t.pc = 16) ∧ (State.reset.withFetchWord 32 0x0C000004).pc = 5 := by decide

-- R229, R223, R226: a `syscall`, an illegal word and a division by 0 placed end the run at the very next step
theorem test_placed_ends :
    (after (State.reset.withFetchWord 32 0x0000000C)).runStatus = .terminated ∧
    (after (State.reset.withFetchWord 32 0xFC000000)).runStatus = .faulted ⟨.unknownEncoding 0 0xFC000000, .decode⟩ ∧
    (after (State.reset.withFetchWord 32 0x0022001A)).runStatus = .faulted ⟨.undefinedArithmetic 0 0 0, .execute⟩ ∧
    (State.reset.withFetchWord 32 0x0022001A).runStatus = .running := by decide

-- the very next step makes the store of a `sw` placed, here of x[1] = 7 to address 7 + 32
theorem test_placed_stores :
    (after ((State.reset.writeReg 1 7).withFetchWord 32 0xAC210020)).mem =
      ((State.reset.writeReg 1 7).withFetchWord 32 0xAC210020).mem ++ [(39, 7)] := by decide

-- R54, R222: a block that passes the last address of the largest memory does not fit
theorem test_block_past_last_address :
    (State.reset.storeBlock 0xFFFFFFFF [1, 2]).2 = some (.outOfRange (2 ^ 32)) ∧
    (State.reset.storeBlock 0xFFFFFFFF [1, 2]).1.mem = [(0xFFFFFFFF, 1)] := by decide

-- R9: after termination the host reads a word where memory has one, and nowhere else
theorem test_host_reads :
    small.terminate.hostReadMem 63 = some 0 ∧ small.terminate.hostReadMem 64 = none ∧ small.hostReadMem 63 = none := by decide

theorem test_decodeTableWord : decodeTableWord 32 0x8C010010 = some (.lw 1 16 0) := by decide

-- R127: the first cycle latches the snapshot 0 and increments the pc
theorem test_first_cycle : (after State.reset).latches.fetch = some ⟨0⟩ ∧ (after State.reset).pc = 1 := by decide

/-- The instruction a word decodes to; `syscall` where it decodes to none. -/
def insnOf (w : Word) : Instr :=
  match decode w with
  | .ok i => i
  | .error _ => .syscall

/-- Decode output of a word at an address, with the operands in `s`. -/
def decoded (s : State) (a w : Word) : ExecuteIn :=
  { addr := a, instr := w, insn := insnOf w, vals := s.loadOperands (insnOf w).format w }

/-- A running core in the middle of straight-line code: addresses 4, 3, 2, 1, 0 in its five stages, the words of the four stages behind
fetch, and the execute results of the two last. -/
def pipe (s : State) (d e m w : Word) (rm rw : DWord) : State :=
  { s with
    pc := 5
    cycle := 5
    lat := ⟨1, 1, 1, 1, 1⟩
    latches := {
      fetch := some ⟨4⟩
      decode := some ⟨⟨3⟩, d⟩
      execute := some (decoded s 2 e)
      memoryAccess := some { toExecuteIn := decoded s 1 m, result := rm, link := 0 }
      writeBack := some { toMemoryIn := { toExecuteIn := decoded s 0 w, result := rw, link := 0 }, loaded := 0 } } }

-- 2.7: `syscall` in write-back, an illegal word in decode: the fault wins (R228)
theorem test_fault_wins : (after (pipe small 0xFC000000 0 0 0x0000000C 0 0)).error =
    some ⟨.unknownEncoding 3 0xFC000000, .decode⟩ := by decide

-- 2.7: with the illegal word not yet decoded, the run ends
theorem test_syscall_ends : (after (pipe small 0 0 0 0x0000000C 0 0)).runStatus = .terminated := by decide

-- 2.2: division by zero in execute
theorem test_div_zero : (after (pipe (preset small 5 0) 0 0x0022001A 0 0 0 0)).error =
    some ⟨.undefinedArithmetic 2 5 0, .execute⟩ := by decide

-- 2.4: an access at the size of memory
theorem test_lw_out_of_range : (after (pipe (preset small 64 0) 0 0 0x8C220000 0 64 0)).error =
    some ⟨.outOfRange 64, .memoryAccess⟩ := by decide

-- R255: decode in the cycle of the write-back reads the old register
theorem test_hazard : ((after (pipe small 0x00211020 0 0 0x20010005 0 5)).latches.execute.map (·.vals) =
    some (.primary 0 0 0)) ∧ (after (pipe small 0x00211020 0 0 0x20010005 0 5)).readReg 1 = 5 := by decide

-- R65: the word fetched in the cycle of a store to its address is the old one
theorem test_fetch_before_store :
    (after (pipe (preset small 4 0) 0 0 0xAC210000 0 4 0)).latches.decode = some ⟨⟨4⟩, 0⟩ ∧
    (after (pipe (preset small 4 0) 0 0 0xAC210000 0 4 0)).mem = [(4, 4)] := by decide

-- R251: the loader appends a `syscall` word and pre-sets register 31
theorem test_loader : ((small.standardLoad [0x20010005] [(1, 7)]).1.mem, (small.standardLoad [0x20010005] [(1, 7)]).1.readReg 31,
    (small.standardLoad [0x20010005] [(1, 7)]).1.readReg 1) = ([(0, 0x20010005), (1, 0x0000000C)], 1, 7) := by decide

/-! ## The hypotheses of the statements are met -/

theorem witness_IgnoredFieldsChangeNothing :
    decode 0x00021900#32 = .ok (.sll 3 2 4) ∧
    0x00021900#32 &&& usedBits (Instr.sll 3 2 4).mnemonic = 0x01221900#32 &&& usedBits (Instr.sll 3 2 4).mnemonic := by decide

-- the ends of the ranges of R87, and their legal neighbours
theorem witness_IllegalWordsRaiseUnknownEncoding :
    Illegal 0xFC000000 ∧ (pipe small 0xFC000000 0 0 0 0 0).latches.decode = some ⟨⟨3⟩, 0xFC000000⟩ := by decide

theorem test_illegal_opcodes : ∀ o ∈ [6, 7, 16, 34, 36, 42, 44, 63], Illegal (BitVec.ofNat 32 (o * 2 ^ 26)) := by decide

theorem test_legal_opcodes : ∀ o ∈ [0, 5, 8, 15, 35, 43], ¬ Illegal (BitVec.ofNat 32 (o * 2 ^ 26)) := by decide

theorem test_illegal_functs : ∀ f ∈ [1, 5, 10, 11, 13, 15, 17, 19, 23, 28, 31, 40, 41, 44, 63], Illegal (BitVec.ofNat 32 f) := by
  decide

theorem test_legal_functs : ∀ f ∈ [0, 2, 4, 6, 9, 12, 16, 18, 24, 27, 32, 39, 42, 43], ¬ Illegal (BitVec.ofNat 32 f) := by decide

theorem witness_AddAndSubtractWrap : IsPrimary 0x20 0x00221820 ∧ IsPrimary 0x21 0x00221821 ∧ IsPrimary 0x22 0x00221822 ∧
    IsPrimary 0x23 0x00221823 := by decide

theorem witness_LogicIsBitByBit : IsPrimary 0x24 0x00221824 ∧ IsPrimary 0x25 0x00221825 ∧ IsPrimary 0x26 0x00221826 ∧
    IsPrimary 0x27 0x00221827 := by decide

theorem witness_ConstantShifts : IsPrimary 0x00 0x00000000 ∧ IsPrimary 0x02 0x00021FC2 ∧ IsPrimary 0x03 0x00021FC3 := by decide

theorem witness_VariableShifts : IsPrimary 0x04 0x00221804 ∧ IsPrimary 0x06 0x00221806 ∧ IsPrimary 0x07 0x00221807 := by decide

theorem witness_SetOnLessThan : IsPrimary 0x2A 0x0022182A ∧ IsPrimary 0x2B 0x0022182B := by decide

theorem witness_MultiplyGivesFullProduct : IsPrimary 0x18 0x00220018 ∧ IsPrimary 0x19 0x00220019 := by decide

-- the defined divisions next to the undefined ones: -2^31 by 1, 2^31 - 1 by -1, and an unsigned division by 1
theorem witness_DividePacksQuotientAndRemainder :
    IsPrimary 0x1A 0x0022001A ∧ IsPrimary 0x1B 0x0022001B ∧
    (let s := preset small 0x80000000 1
     (xRt s 0x0022001A).toInt ≠ 0 ∧ ¬ ((xRs s 0x0022001A).toInt = -2 ^ 31 ∧ (xRt s 0x0022001A).toInt = -1)) ∧
    (let s := preset small 0x7FFFFFFF 0xFFFFFFFF
     (xRt s 0x0022001A).toInt ≠ 0 ∧ ¬ ((xRs s 0x0022001A).toInt = -2 ^ 31 ∧ (xRt s 0x0022001A).toInt = -1)) ∧
    (xRt (preset small 0xFFFFFFFF 1) 0x0022001B).toNat ≠ 0 := by decide

theorem witness_UndefinedDivisionsRaise :
    IsPrimary 0x1A 0x0022001A ∧ IsPrimary 0x1B 0x0022001B ∧ (xRt (preset small 5 0) 0x0022001A).toInt = 0 ∧
    (xRs (preset small 0x80000000 0xFFFFFFFF) 0x0022001A).toInt = -2 ^ 31 ∧
    (xRt (preset small 0x80000000 0xFFFFFFFF) 0x0022001A).toInt = -1 ∧
    (xRt (preset small 5 0) 0x0022001B).toNat = 0 := by decide

theorem witness_RetrievalReadsAccumulatorHalf :
    (small.writeAcc 1).accWritten = true ∧ IsPrimary 0x10 0x00001810 ∧ IsPrimary 0x12 0x00001812 := by decide

theorem witness_UnwrittenAccumulatorIsFree :
    small.accWritten = false ∧ IsPrimary 0x10 0x00001810 ∧ IsPrimary 0x12 0x00001812 := by decide

theorem witness_AddImmediateWraps : IsOpcode 0x08 0x20228000 ∧ IsOpcode 0x09 0x24228000 := by decide

theorem witness_SetOnLessThanImmediate : IsOpcode 0x0A 0x2822FFFF ∧ IsOpcode 0x0B 0x2C22FFFF := by decide

theorem witness_LogicImmediateZeroExtends : IsOpcode 0x0C 0x3022FFFF ∧ IsOpcode 0x0D 0x3422FFFF ∧ IsOpcode 0x0E 0x3822FFFF := by
  decide

theorem witness_LoadUpperPlacesImmediateHigh : IsOpcode 0x0F 0x3C021234 := by decide

-- the whole field, and the narrowest slices at its two ends
theorem witness_ImmediateDestinationSlice :
    Config.default.wbImmDestSlice = ⟨16, 21⟩ ∧ (⟨16, 17⟩ : BitSlice).withinImmDest = true ∧
    (⟨20, 21⟩ : BitSlice).withinImmDest = true ∧ (⟨16, 21⟩ : BitSlice).withinImmDest = true := by decide

-- 63 is the last word of a memory of 64, 64 the first address above it; a sparse unit of two words, empty and full
theorem witness_LoadWord :
    IsOpcode 0x23 0x8C220000 ∧ ea (preset small 63 0) 0x8C220000 = 63 ∧ small.slotOf 63 < small.unitSize ∧
    ea (preset small 64 0) 0x8C220000 = 64 ∧ small.unitSize ≤ small.slotOf 64 ∧
    smallSparse.slotOf 64 < smallSparse.unitSize ∧
    ({ smallSparse with slots := [1, 2] }).unitSize ≤ ({ smallSparse with slots := [1, 2] }).slotOf 64 := by decide

theorem witness_StoreWord :
    IsOpcode 0x2B 0xAC220000 ∧ ea (preset small 63 0) 0xAC220000 = 63 ∧ small.slotOf 63 < small.unitSize ∧
    ea (preset small 64 0) 0xAC220000 = 64 ∧ small.unitSize ≤ small.slotOf 64 := by decide

theorem witness_IndirectJumps : IsPrimary 0x08 0x00200008 ∧ IsPrimary 0x09 0x00202809 := by decide

theorem witness_ConditionalBranches :
    IsOpcode 0x04 0x10220028 ∧ xRs (preset small 7 7) 0x10220028 = xRt (preset small 7 7) 0x10220028 ∧
    xRs (preset small 7 8) 0x10220028 ≠ xRt (preset small 7 8) 0x10220028 ∧
    IsOpcode 0x05 0x14220028 ∧ IsOpcode 0x01 0x04210028 ∧
    (xRs (preset small 0xFFFFFFFF 0) 0x04210028).toInt < 0 ∧ ¬ (xRs (preset small 0 0) 0x04210028).toInt < 0 := by decide

theorem witness_AbsoluteJumps : IsOpcode 0x02 0x08000005 ∧ IsOpcode 0x03 0x0C000005 := by decide

theorem witness_SystemCallOnlyQuits : IsPrimary 0x0C 0x03FFFFCC := by decide

/-- Whether a part of an instruction gives a next state. -/
def goesOn (r : Result) : Bool :=
  match r with
  | .next _ => true
  | _ => false

theorem goesOn_next {r : Result} (h : goesOn r = true) : ∃ t, r = .next t := by
  cases r with
  | next t => exact ⟨t, rfl⟩
  | fault _ => cases h
  | refused _ => cases h

/-- The state in which write-back is about to commit the word `w`, and the one in which memory-access is about to act for it. -/
def commits (w : Word) : State := (pipe small 0 0 0 w 0 0).inPhase .writeBack

def accesses (s : State) (w : Word) (r : DWord) : State := (pipe s 0 0 w 0 r 0).inPhase .memoryAccess

theorem witness_PrimaryWritersFrame : primaryDest (.add 3 1 2) = some 3 ∧
    ∃ t, exec (.add 3 1 2) (commits 0x00221820) = .next t :=
  ⟨rfl, goesOn_next (by decide)⟩

theorem small_memoryOk : small.MemoryOk := (memoryOk_flat rfl).2 (by decide)

theorem pipe_memoryOk (d e m w : Word) (rm rw : DWord) : (pipe small d e m w rm rw).MemoryOk := small_memoryOk

theorem witness_ImmediateWritersFrame : immediateDest (.addi 2 1 5) = some 2 ∧ (commits 0x20220005).MemoryOk ∧
    ∃ t, exec (.addi 2 1 5) (commits 0x20220005) = .next t :=
  ⟨rfl, small_memoryOk, goesOn_next (by decide)⟩

theorem witness_ProducersAndSystemCallFrame :
    (isProducer (.mult 1 2) = true ∧ ∃ t, exec (.mult 1 2) (commits 0x00220018) = .next t) ∧
    ∃ t, exec .syscall (commits 0x0000000C) = .next t :=
  ⟨⟨rfl, goesOn_next (by decide)⟩, goesOn_next (by decide)⟩

theorem witness_TransfersFrame :
    (isPlainTransfer (.beq 1 2 40) = true ∧ ∃ t, exec (.beq 1 2 40) (commits 0x10220028) = .next t) ∧
    (∃ t, exec (.jalr 5 1) (commits 0x00202809) = .next t) ∧ ∃ t, exec (.jal 5) (commits 0x0C000005) = .next t :=
  ⟨⟨rfl, goesOn_next (by decide)⟩, goesOn_next (by decide), goesOn_next (by decide)⟩

-- the store itself, another stage of the instruction, and a bubble
theorem witness_StoreFrame :
    ((accesses small 0xAC220010 20).MemoryOk ∧ (accesses small 0xAC220010 20).phase = .memoryAccess ∧
      (accesses small 0xAC220010 20).latches.memoryAccess.isSome = true ∧
      ∃ t, exec (.sw 2 16 1) (accesses small 0xAC220010 20) = .next t) ∧
    ((commits 0xAC220010).phase ≠ .memoryAccess ∧ ∃ t, exec (.sw 2 16 1) (commits 0xAC220010) = .next t) ∧
    (small.latches.memoryAccess = none ∧ ∃ t, exec (.sw 2 16 1) (small.inPhase .memoryAccess) = .next t) :=
  ⟨⟨small_memoryOk, rfl, rfl, goesOn_next (by decide)⟩, ⟨by decide, goesOn_next (by decide)⟩, rfl, goesOn_next (by decide)⟩

/-- A core under the hard-wired reading of register 0. -/
def smallHardwired : State := State.construct { Config.default with memSize := 64, r0Policy := .hardwired }

theorem witness_RegisterReadAfterWrite :
    (smallHardwired.writeReg 0 5).readReg 0 = 0 ∧ (small.writeReg 0 5).readReg 0 = 5 ∧ (small.writeReg 31 5).readReg 30 = 0 := by
  decide

theorem witness_MemoryUnitContract :
    (small.MemoryOk ∧ small.slotOf 63 < small.unitSize ∧ small.unitSize ≤ small.slotOf 64) ∧
    (smallSparse.MemoryOk ∧ smallSparse.slotOf 0xFFFFFFFF < smallSparse.unitSize) :=
  ⟨⟨small_memoryOk, by decide⟩, (memoryOk_sparse rfl).2 (by decide), by decide⟩

-- an address already mapped, and a new one that takes the last slot, each loaded and stored; and a step
theorem witness_SparseSlotsAreStable :
    ∃ s : State, s.cfg.memKind = .sparse 2 ∧ s.MemoryOk ∧ (7 : Word) ∈ s.slots ∧ (9 : Word) ∉ s.slots ∧
      (s.memRead 7).isOk = true ∧ (s.memRead 9).isOk = true ∧ (s.memWrite 7 1).isOk = true ∧ (s.memWrite 9 1).isOk = true ∧
      step s = .next (after s) :=
  ⟨{ smallSparse with slots := [7] }, rfl, (memoryOk_sparse (n := 2) rfl).2 (by decide), by decide, by decide, by decide, by decide,
    by decide, by decide, step_after _⟩

theorem witness_SetLowBitsSplices :
    ({ small with pc := 0xA0000123 }.pcSetLowBits 20 28).pc = 0xA0000014 ∧
    ({ small with pc := 0xA0000123 }.pcSetLowBits 20 32).pc = 20 ∧
    ({ small with pc := 0xA0000123 }.pcSetLowBits 20 0).pc = 0xA0000123 := by decide

theorem witness_AcceptTickContract : small.lat.get .fetch = 0 ∧ 0 < small.lat.get .decode ∧
    ∀ st ∈ [Stage.fetch, .decode, .execute, .memoryAccess, .writeBack], small.tickAll.lat.get st = 0 := by decide

theorem witness_BubblesDoNothing : small.latches = ⟨none, none, none, none, none⟩ := by decide

theorem witness_StepRunsDecodedInstruction :
    (pipe small 0x00221820 0 0 0 0 0).latches.decode = some ⟨⟨3⟩, 0x00221820⟩ ∧ decode 0x00221820#32 = .ok (.add 3 1 2) ∧
    (pipe small 0 0 0 0 0 0).latches.execute.isSome = true ∧ (pipe small 0 0 0 0 0 0).latches.memoryAccess.isSome = true ∧
    (pipe small 0 0 0 0 0 0).latches.writeBack.isSome = true ∧ (pipe small 0 0 0 0 0 0).halted = false := by decide

theorem witness_StepOutcome : small.halted = false ∧ small.terminate.halted = true := by decide

theorem witness_InvariantAtReset : Config.default.wf = true ∧ smallSparse.cfg.wf = true ∧ smallHardwired.cfg.wf = true := by decide

/-- A running core with a store in memory-access and a `jr` in write-back. -/
def busyCore : State := pipe (preset small 4 0) 0x00221820 0x00220018 0xAC210000 0x00200008 4 20

theorem busyCore_inv : busyCore.Inv :=
  ⟨(memoryOk_flat rfl).2 (by decide), by decide, by decide, by decide, by decide, by decide⟩

theorem witness_StepKeepsInvariant : busyCore.Inv ∧ step busyCore = .next (after busyCore) := ⟨busyCore_inv, step_after _⟩

-- the least and the greatest latencies admitted
theorem witness_NoStageEverStalls : busyCore.LatencyOk ∧ { small with lat := ⟨0, 0, 0, 0, 0⟩ }.LatencyOk ∧
    step busyCore = .next (after busyCore) := ⟨by decide, by decide, step_after _⟩

-- a core with a stage that stalls, and one in which a fatal error is raised
theorem witness_ContractViolationUnreachable :
    (let s := { busyCore with lat := ⟨1, 1, 3, 1, 1⟩ }
     s.halted = false ∧ step s = .next (after s) ∧ s.error = none) ∧
    (let s := pipe small 0xFC000000 0 0 0 0 0
     s.halted = false ∧ step s = .next (after s) ∧ s.error = none) :=
  ⟨⟨rfl, step_after _, rfl⟩, rfl, step_after _, rfl⟩

theorem witness_UnimplementedOperationUnreachable :
    busyCore.LatchesClassified ∧ busyCore.halted = false ∧ busyCore.error = none ∧ step busyCore = .next (after busyCore) :=
  ⟨busyCore_inv.2.1, rfl, rfl, step_after _⟩

theorem cleanStep_of {s : State} (h : s.halted = false ∧ (after s).error = none) : CleanStep s (after s) := ⟨h.1, step_after s, h.2⟩

theorem witness_PayloadsAdvanceOneStage : busyCore.LatencyOk ∧ CleanStep busyCore (after busyCore) :=
  ⟨by decide, cleanStep_of (by decide)⟩

theorem witness_RegisterHazardDistance :
    busyCore.LatencyOk ∧ CleanStep busyCore (after busyCore) ∧ CleanStep (after busyCore) (after (after busyCore)) ∧
    (after busyCore).latches.execute.isSome = true ∧ (after (after busyCore)).latches.execute.isSome = true :=
  ⟨by decide, cleanStep_of (by decide), cleanStep_of (by decide), by decide, by decide⟩

/-- A core that increments the pc after the pass, with a `jr` to 20 in write-back. -/
def lateCore : State :=
  { busyCore with cfg := { busyCore.cfg with pcIncPhase := .afterPass } }

-- R127: the word at the target is skipped
theorem test_late_increment : (after lateCore).pc = 21 ∧ (after busyCore).pc = 20 := by decide

-- a bubble in write-back, as right after reset, and an instruction; both places of the increment
theorem witness_CycleCommitsWriteBack :
    (small.LatencyOk ∧ CleanStep small (after small) ∧ small.latches.writeBack = none) ∧
    (busyCore.LatencyOk ∧ CleanStep busyCore (after busyCore) ∧ busyCore.cfg.pcIncPhase = .beforePass ∧
      busyCore.latches.writeBack.isSome = true) ∧
    (lateCore.LatencyOk ∧ CleanStep lateCore (after lateCore) ∧ lateCore.cfg.pcIncPhase = .afterPass ∧
      lateCore.latches.writeBack.isSome = true) :=
  ⟨⟨by decide, cleanStep_of (by decide), rfl⟩, ⟨by decide, cleanStep_of (by decide), rfl, rfl⟩, by decide,
    cleanStep_of (by decide), rfl, rfl⟩

theorem witness_AtMostOneRegisterPerCycle :
    step (pipe small 0 0 0 0x20010005 0 5) = .next (after (pipe small 0 0 0 0x20010005 0 5)) := step_after _

/-- A multiply in write-back, a retrieval of each half behind it. -/
def multiplyCore (retrieval : Word) : State := pipe small 0 0 retrieval 0x00220018 0 0x3FFFFFFF00000001

theorem witness_OnlyProducersWriteAccumulator :
    step (multiplyCore 0x00001810) = .next (after (multiplyCore 0x00001810)) ∧
    (after (multiplyCore 0x00001810)).acc = 0x3FFFFFFF00000001 := ⟨step_after _, by decide⟩

theorem witness_OnlyStoresWriteMemory :
    busyCore.MemoryOk ∧ step busyCore = .next (after busyCore) ∧ (after busyCore).wordAt 4 = 4 :=
  ⟨busyCore_inv.1, step_after _, by decide⟩

/-- A core that increments the pc after the pass, with a word in decode. -/
def lateDecode (w : Word) : State := { pipe small w 0 0 0 0 0 with cfg := { small.cfg with pcIncPhase := .afterPass } }

-- both places of the increment, and with the later one a fatal error
theorem witness_OnlyTransfersRedirectPc :
    ∀ s ∈ [multiplyCore 0x00001810, lateDecode 0, lateDecode 0xFC000000],
     s.LatencyOk ∧ s.halted = false ∧ s.error = none ∧ s.latches.writeBack.map (fun w => isTransfer w.insn) = some false := by
  decide

theorem test_late_error : (after (lateDecode 0xFC000000)).pc = 5 ∧ (after (lateDecode 0)).pc = 6 := by decide

theorem witness_TransferReachesFetchNextCycle :
    busyCore.LatencyOk ∧ busyCore.cfg.pcIncPhase = .beforePass ∧ CleanStep busyCore (after busyCore) ∧
    CleanStep (after busyCore) (after (after busyCore)) ∧ busyCore.latches.writeBack.map (·.insn) = some (.jr 1) :=
  ⟨by decide, rfl, cleanStep_of (by decide), cleanStep_of (by decide), by decide⟩

theorem witness_AccumulatorHasNoHazard : ∀ r ∈ [(0x00001810#32, Instr.mfhi 3), (0x00001812#32, .mflo 3)],
    let s := multiplyCore r.1
    s.LatencyOk ∧ (s.halted = false ∧ (after s).error = none) ∧ ((after s).halted = false ∧ (after (after s)).error = none) ∧
    s.latches.writeBack.map (fun w => isProducer w.insn) = some true ∧ s.latches.memoryAccess.map (·.insn) = some r.2 := by
  decide

-- the store goes to address 5, the pc
theorem witness_FetchSeesEarlierStores :
    let s := pipe (preset small 5 0) 0 0 0xAC210000 0 5 0
    s.Inv ∧ CleanStep s (after s) ∧ CleanStep (after s) (after (after s)) ∧
    s.latches.memoryAccess.map (fun p => (p.insn, lowWord p.result)) = some (.sw 1 0 1, s.pc) ∧ s.latches.fetch = some ⟨4⟩ :=
  ⟨⟨(memoryOk_flat rfl).2 (by decide), by decide, by decide, by decide, by decide, by decide⟩,
    cleanStep_of (by decide), cleanStep_of (by decide), by decide, rfl⟩

theorem witness_RunEndsExactlyOnSystemCall :
    (busyCore.LatencyOk ∧ CleanStep busyCore (after busyCore) ∧ (after busyCore).halted = false) ∧
    (let s := pipe small 0 0 0 0x0000000C 0 0
     s.LatencyOk ∧ CleanStep s (after s) ∧ (after s).halted = true) :=
  ⟨⟨by decide, cleanStep_of (by decide), by decide⟩, by decide, cleanStep_of (by decide), by decide⟩

-- a fatal error in each stage that can raise one: fetch, decode, execute, memory-access
theorem witness_FatalErrorCommitsNothing :
    ∀ r ∈ [({ pipe small 0 0 0 0 0 0 with latches := { small.latches with fetch := some ⟨64⟩ } }, Stage.fetch),
      (pipe small 0xFC000000 0 0 0 0 0, .decode), (pipe small 0 0x0022001B 0 0 0 0, .execute),
      (pipe small 0 0 0x8C220000 0 64 0, .memoryAccess)],
    r.1.LatencyOk ∧ (r.1.mem.wf ∧ r.1.cfg.memKind = .flat ∧ r.1.slots = [] ∧ r.1.mem = []) ∧ r.1.halted = false ∧
    r.1.error = none ∧ (after r.1).error.map (·.stage) = some r.2 := by decide

/-- The state with another address in the fetch latch. -/
def fetching (s : State) (a : Word) : State := { s with latches := { s.latches with fetch := some ⟨a⟩ } }

-- errors in several stages at once: each older one loses to the younger; and none at all; `syscall` in write-back throughout
theorem test_priority :
    (let access := pipe small 0 0 0x8C220000 0x0000000C 64 0
     let divide := pipe small 0 0x0022001B 0x8C220000 0x0000000C 64 0
     let illegal := pipe small 0xFC000000 0x0022001B 0x8C220000 0x0000000C 64 0
     [access, divide, illegal, fetching illegal 64].map (fun s => (after s).error.map (·.stage)) =
       [some .memoryAccess, some .execute, some .decode, some .fetch]) := by decide

/-- States for the clauses: an access out of range, with an undefined division before it, with an illegal word before that, and the access in range. -/
def rivals : List State :=
  [pipe small 0 0 0x8C220000 0x0000000C 64 0, pipe small 0 0x0022001B 0x8C220000 0x0000000C 64 0,
    pipe small 0xFC000000 0x0022001B 0x8C220000 0x0000000C 64 0, pipe small 0 0 0x8C220000 0x0000000C 63 0]

theorem witness_YoungestErrorWins_state : ∀ s ∈ rivals,
    s.LatencyOk ∧ s.LatchesClassified ∧ s.halted = false ∧ s.error = none ∧ s.latches.fetch = some ⟨4⟩ ∧
      s.slotOf 4 < s.unitSize := by decide

-- the premises of the clauses, in their order
theorem witness_YoungestErrorWins :
    (let s := fetching (pipe small 0 0 0 0x0000000C 0 0) 64
     s.latches.fetch = some ⟨64⟩ ∧ s.unitSize ≤ s.slotOf 64) ∧
    rivals.map (fun s => s.latches.decode.map (·.instr)) = [some 0, some 0, some 0xFC000000, some 0] ∧
    rivals.map (fun s => s.latches.execute.map fun e => (e.insn, e.vals)) =
      [some (.sll 0 0 0, .primary 0 0 0), some (.divu 1 2, .primary 0 0 0), some (.divu 1 2, .primary 0 0 0),
        some (.sll 0 0 0, .primary 0 0 0)] ∧
    rivals.map (fun s => s.latches.memoryAccess.map fun p =>
        (isAccess p.insn, decide ((fetchTouched s).slotOf (lowWord p.result) < s.unitSize))) =
      [some (true, false), some (true, false), some (true, false), some (true, true)] ∧
    rivals.map (fun s => s.latches.writeBack.map (·.insn)) = List.replicate 4 (some .syscall) := by decide

theorem witness_YoungestErrorWins_words : Illegal 0xFC000000#32 ∧ ¬ Illegal 0#32 := by decide

theorem witness_YoungestErrorWins_divisions :
    UndefinedDivision (.divu 1 2) 0 0 ∧ UndefinedDivision (.div 1 2) 5 0 ∧ UndefinedDivision (.div 1 2) 0x80000000 0xFFFFFFFF ∧
    ¬ UndefinedDivision (.sll 0 0 0) 0 0 :=
  ⟨.inr ⟨1, 2, rfl, rfl⟩, .inl ⟨1, 2, rfl, .inl rfl⟩, .inl ⟨1, 2, rfl, .inr (by decide)⟩, by simp [UndefinedDivision]⟩

theorem witness_TraceFollowsThePipeline :
    busyCore.LatencyOk ∧ CleanStep busyCore (after busyCore) ∧ (after busyCore).halted = false :=
  ⟨by decide, cleanStep_of (by decide), by decide⟩

-- a block that ends at the last word of memory, one that goes past it, one that starts past it, and one past the largest memory
theorem witness_StoreBlockWritesRun :
    small.cfg.memKind = .flat ∧ small.MemoryOk ∧ small.cfg.memSize ≤ 2 ^ 32 ∧
    (62 : Word).toNat + [1#32, 2#32].length ≤ small.cfg.memSize ∧
    small.cfg.memSize < (63 : Word).toNat + [1#32, 2#32].length ∧ small.cfg.memSize < (70 : Word).toNat + [1#32].length ∧
    State.reset.cfg.memSize ≤ 2 ^ 32 ∧ State.reset.cfg.memSize < (0xFFFFFFFF : Word).toNat + [1#32, 2#32].length :=
  ⟨rfl, small_memoryOk, by decide, by decide, by decide, by decide, by decide, by decide⟩

theorem endsInSyscall_single (w : Word) : EndsInSyscall [w] ↔ IsPrimary 0x0C w := by simp [EndsInSyscall]

/-- A core with a memory of one word. -/
def oneWord : State := State.construct { Config.default with memSize := 1 }

-- an image that ends in a `syscall` word and fills memory, one that gains one, and the same where it does not fit
theorem witness_LoaderPresetsReturnAddress :
    oneWord.cfg.memKind = .flat ∧ oneWord.MemoryOk ∧ oneWord.cfg.memSize ≤ 2 ^ 32 ∧ oneWord.cfg.linkReg ≠ 0 ∧
    EndsInSyscall [0x03FFFFCC#32] ∧ [0x03FFFFCC#32].length ≤ oneWord.cfg.memSize ∧
    ¬ EndsInSyscall [0x20010005#32] ∧ [0x20010005#32].length + 1 ≤ small.cfg.memSize ∧
    oneWord.cfg.memSize < [0x20010005#32].length + 1 :=
  ⟨rfl, (memoryOk_flat rfl).2 (by decide), by decide, by decide, (endsInSyscall_single _).2 (by decide), by decide,
    fun h => absurd ((endsInSyscall_single _).1 h) (by decide), by decide, by decide⟩

end Sys2Proof.Tests
end

section
/-!
PROOFS. The statements about the state (10_state.md): a register read after a write, and the pc of a cycle without a control transfer.
-/

namespace Sys2Proof.Machine

/-! ## Registers -/

/-- Register 0 reads 0 under the hard-wired reading, whatever the register file holds (R22). -/
theorem readReg_zero_hardwired {s : State} (h : s.cfg.r0Policy = .hardwired) : s.readReg 0 = 0 :=
  if_pos ⟨h, rfl⟩

/-- A write is read back, but for register 0 under the hard-wired reading. -/
theorem readReg_writeReg_same {s : State} {r : RegIdx} (v : Word) (h : ¬ (s.cfg.r0Policy = .hardwired ∧ r = 0)) :
    (s.writeReg r v).readReg r = v := by
  unfold State.readReg
  simp only [State.writeReg_cfg, State.writeReg_regs, regsAfterWrite, if_neg h, Vector.getElem_set_self]

theorem readReg_construct (c : Config) (r : RegIdx) : (State.construct c).readReg r = 0 := by
  simp [State.readReg, State.construct]

/-- Settles O31, by the register read and written: the hard-wired register 0, the register written, another one. -/
theorem registerReadAfterWrite : Obligations.RegisterReadAfterWrite := by
  refine ⟨fun c => readReg_construct c 0, fun s r r' v => ?_⟩
  split_ifs with hz hr
  · obtain ⟨hp, rfl⟩ := hz
    exact readReg_zero_hardwired (by simpa using hp)
  · subst hr
    exact readReg_writeReg_same v hz
  · exact readReg_writeReg_ne v hr

/-! ## The pc of a cycle -/

/-- Without a fatal error the end of an unstalled cycle increments the pc where PC_INC_PHASE puts it after the pass; a halted core's pc stays
(R127, R129). -/
theorem finishCycle_pc (s : State) :
    (finishCycle 0 s).pc = if s.halted = false ∧ s.cfg.pcIncPhase = .afterPass then s.pc + 1 else s.pc := by
  cases hh : s.halted
  · cases hp : s.cfg.pcIncPhase
    · simp [finishCycle_pc_before hp]
    · unfold finishCycle retire incrementAfter
      simp only [hh, hp, Bool.false_eq_true, if_false, and_self, if_true]
      split <;> rfl
  · simp [finishCycle_pc_of_halted hh]

theorem finishCycle_error (first : Nat) (s : State) : (finishCycle first s).error = s.error := by
  obtain ⟨-, -, -, -, -, -, -, he, -⟩ := finishCycle_fields first s
  exact he

theorem passStart_cfg (s : State) : (passStart s).cfg = s.cfg := (passStart_fields s).1

/-- Only a control transfer's commit writes the pc (R24, R120). -/
theorem wb_pc_of_not_transfer {i : Instr} {w : WriteBackIn} {s t : State} (hi : Claims.isTransfer i = false)
    (h : (meaning i).wb w s = .ok t) : t.pc = s.pc := by
  cases i
  case jr | jalr | bltz | beq | bne | j | jal => cases hi
  all_goals
    cases h
    rfl

/-- A commit that is no control transfer's leaves the pc. -/
theorem committed_pc_of_not_transfer {s : State} {regs : Vector Word 32} {pc : Word} {acc : DWord} {accWritten : Bool}
    (hw : ∀ w, s.latches.writeBack = some w → Claims.isTransfer w.insn = false)
    (h : Committed s regs pc acc accWritten) : pc = s.pc := by
  unfold Committed at h
  split at h
  · obtain ⟨-, hpc, -⟩ := h
    exact hpc
  next w hl =>
    obtain ⟨u, hu, -, hpc, -⟩ := h
    exact hpc.trans (wb_pc_of_not_transfer (s := s.inPhase .writeBack) (hw w hl) hu)

/-- How the pass of an unstalled cycle ends, for what the pc becomes: a fatal error has halted the core and no stage has written the pc (R129), or
write-back has committed on the pc the pass started with. -/
theorem cycle_pc_cases {s t : State} (hl : s.LatencyOk) (hh : s.halted = false) (h : step s = .next t) :
    ∃ u, t = finishCycle 0 u ∧ u.cfg = s.cfg ∧
      ((u.halted = true ∧ u.error ≠ none ∧ u.pc = (passStart s).pc) ∨
       (u.halted = false ∧ u.error = s.error ∧ ∃ v, v.pc = (passStart s).pc ∧
          v.latches.writeBack = s.latches.writeBack ∧ Committed v u.regs u.pc u.acc u.accWritten)) := by
  have hc := passStart_cfg s
  rcases cycle_cases hl hh h with ⟨x, -, rfl⟩ | ⟨s1, f1, hrest⟩
  · exact ⟨_, rfl, hc, .inl ⟨rfl, by simp, rfl⟩⟩
  rcases hrest with ⟨x, -, rfl⟩ | ⟨s2, f2, hrest⟩
  · exact ⟨_, rfl, f1.cfg.trans hc, .inl ⟨rfl, by simp, f1.pc⟩⟩
  have c2 := f2.cfg.trans (f1.cfg.trans hc)
  have p2 := f2.pc.trans f1.pc
  rcases hrest with ⟨x, -, rfl⟩ | ⟨s3, f3, -, hrest⟩
  · exact ⟨_, rfl, c2, .inl ⟨rfl, by simp, p2⟩⟩
  rcases hrest with ⟨x, -, rfl⟩ | ⟨s4, s5, f4, -, f5, rfl, h5⟩
  · exact ⟨_, rfl, f3.cfg.trans c2, .inl ⟨rfl, by simp, f3.pc.trans p2⟩⟩
  · obtain ⟨-, -, -, -, -, -, hlatches, -, herror, -⟩ := passStart_fields s
    refine ⟨s5, rfl, f5.cfg.trans (f4.cfg.trans (f3.cfg.trans c2)),
      .inr ⟨h5, ?_, s4, f4.pc.trans (f3.pc.trans p2), ?_, f5.commit⟩⟩
    · rw [f5.error, f4.error, f3.error, f2.error, f1.error, herror]
    · rw [f4.latches, f3.latches, f2.latches, f1.latches, hlatches]

/-- Settles O51: the start of the pass and the end of the cycle share one increment between them, and no stage writes the pc in between. -/
theorem onlyTransfersRedirectPc : Obligations.OnlyTransfersRedirectPc := by
  intro s t hl hh he hs hw
  obtain ⟨-, hstart⟩ := passStart_clean hl
  obtain ⟨u, rfl, hcfg, ⟨hu, herr, hpc⟩ | ⟨hu, herr, v, hv, hlatch, hcommit⟩⟩ := cycle_pc_cases hl hh hs
  · rw [finishCycle_pc, finishCycle_error, hcfg, hu, hpc, hstart]
    cases s.cfg.pcIncPhase <;> simp [herr]
  · have hpc : u.pc = (passStart s).pc :=
      (committed_pc_of_not_transfer (fun w hwb => hw w (hlatch ▸ hwb)) hcommit).trans hv
    rw [finishCycle_pc, finishCycle_error, hcfg, hu, hpc, hstart, herr, he]
    cases s.cfg.pcIncPhase <;> simp

end Sys2Proof.Machine
end

section
/-!
PROOFS. The statements about main memory (20_memory.md): the contract of a memory unit, the map of a sparse memory, and a block stored by the host.
-/

namespace Sys2Proof.Machine

/-! ## Loads and stores -/

/-- A load in range (R51). -/
theorem memRead_of_lt {s : State} {a : Word} (h : s.slotOf a < s.unitSize) : s.memRead a = .ok (s.touch a, s.wordAt a) :=
  if_pos (decide_eq_true h)

/-- A load at or above the size (R51). -/
theorem memRead_of_ge {s : State} {a : Word} (h : s.unitSize ≤ s.slotOf a) : s.memRead a = .error (.outOfRange (s.slotOf a)) :=
  if_neg (by simpa [State.inRange] using h)

/-- A store in range (R51). -/
theorem memWrite_of_lt {s : State} {a : Word} (v : Word) (h : s.slotOf a < s.unitSize) : s.memWrite a v = .ok (s.putWord a v) :=
  if_pos (decide_eq_true h)

/-- A store at or above the size (R51). -/
theorem memWrite_of_ge {s : State} {a : Word} (v : Word) (h : s.unitSize ≤ s.slotOf a) :
    s.memWrite a v = .error (.outOfRange (s.slotOf a)) :=
  if_neg (by simpa [State.inRange] using h)

/-- A load that succeeds has mapped its address and done nothing else (R53). -/
theorem memRead_next {s t : State} {a v : Word} (h : s.memRead a = .ok (t, v)) : t = s.touch a := by
  rcases lt_or_ge (s.slotOf a) s.unitSize with hr | hr
  · rw [memRead_of_lt hr] at h
    cases h
    rfl
  · rw [memRead_of_ge hr] at h
    cases h

/-- A store that succeeds has replaced its word. -/
theorem memWrite_next {s t : State} {a v : Word} (h : s.memWrite a v = .ok t) : t = s.putWord a v := by
  rcases lt_or_ge (s.slotOf a) s.unitSize with hr | hr
  · rw [memWrite_of_lt v hr] at h
    cases h
    rfl
  · rw [memWrite_of_ge v hr] at h
    cases h

/-- Where an address lies depends on the configuration and the map only. -/
theorem slotOf_of_eq {s t : State} (hc : t.cfg = s.cfg) (hs : t.slots = s.slots) (a : Word) : t.slotOf a = s.slotOf a := by
  unfold State.slotOf
  rw [hc, hs]

theorem unitSize_of_eq {s t : State} (hc : t.cfg = s.cfg) : t.unitSize = s.unitSize := by
  unfold State.unitSize
  rw [hc]

/-- A store leaves its address in the slot where it put the word. -/
theorem slotOf_putWord_same (s : State) (a v : Word) : (s.putWord a v).slotOf a = s.slotOf a :=
  (slotOf_of_eq (s := s.touch a) (by simp) (by simp) a).trans (slotOf_touch a a (.inl rfl))

/-- A load of an address just stored gives the word stored (R50). -/
theorem memRead_putWord_same {s : State} {a : Word} (v : Word) (hm : s.MemoryOk) (h : s.slotOf a < s.unitSize) :
    (s.putWord a v).memRead a = .ok ((s.putWord a v).touch a, v) := by
  have hr : (s.putWord a v).slotOf a < (s.putWord a v).unitSize := by
    rwa [slotOf_putWord_same, unitSize_of_eq (State.putWord_cfg s a v)]
  rw [memRead_of_lt hr, wordAt_putWord_same hm]

/-- Settles O32, by whether the address is in range. -/
theorem memoryUnitContract : Obligations.MemoryUnitContract := by
  intro s a v hm
  refine ⟨fun h => ⟨memRead_of_ge h, memWrite_of_ge v h⟩, fun h => ⟨⟨s.touch a, memRead_of_lt h, wordAt_touch hm a⟩, ?_⟩⟩
  exact ⟨s.putWord a v, memWrite_of_lt v h, ⟨_, memRead_putWord_same v hm h⟩, fun b hb => wordAt_putWord_other hm a b v hb⟩

/-! ## The map of a sparse memory -/

/-- In a sparse memory an address lies at its place in the order of first touch, a new one at the next (R53). -/
theorem slotOf_sparse {s : State} {n : Nat} (h : s.cfg.memKind = .sparse n) (a : Word) : s.slotOf a = s.slots.idxOf a := by
  unfold State.slotOf
  rw [h]

/-- No two mapped addresses share a slot (R53). -/
theorem slotOf_inj {s : State} {n : Nat} (h : s.cfg.memKind = .sparse n) {a b : Word} (ha : a ∈ s.slots)
    (he : s.slotOf a = s.slotOf b) : a = b := by
  rw [slotOf_sparse h, slotOf_sparse h] at he
  exact (List.idxOf_inj ha).1 he

theorem touch_slots_of_mem {s : State} {a : Word} (ha : a ∈ s.slots) : (s.touch a).slots = s.slots := by
  unfold State.touch
  rw [if_pos ha]
  split <;> rfl

theorem touch_slots_of_not_mem {s : State} {n : Nat} (h : s.cfg.memKind = .sparse n) {a : Word} (ha : a ∉ s.slots) :
    (s.touch a).slots = s.slots ++ [a] := by
  unfold State.touch
  rw [h, if_neg ha]

/-- An access, a load or a store, does to the map what the mapping of its address does (R53). -/
theorem access_slots {s t : State} {a : Word} (h : (∃ v, s.memRead a = .ok (t, v)) ∨ ∃ v, s.memWrite a v = .ok t) :
    t.cfg = s.cfg ∧ t.slots = (s.touch a).slots := by
  rcases h with ⟨v, h⟩ | ⟨v, h⟩
  · rw [memRead_next h]
    exact ⟨State.touch_cfg s a, rfl⟩
  · rw [memWrite_next h]
    exact ⟨State.putWord_cfg s a v, State.putWord_slots s a v⟩

/-- The map of one state is that of another or has grown at its end only. -/
structure MapGrows (s t : State) : Prop where
  cfg : t.cfg = s.cfg
  slots : s.slots <+: t.slots

theorem MapGrows.of_eq {s t : State} (hc : t.cfg = s.cfg) (hs : t.slots = s.slots) : MapGrows s t :=
  ⟨hc, hs ▸ List.prefix_rfl⟩

theorem MapGrows.trans {s t u : State} (h : MapGrows s t) (g : MapGrows t u) : MapGrows s u :=
  ⟨g.cfg.trans h.cfg, h.slots.trans g.slots⟩

/-- An address that is mapped stays so, and keeps its slot, while the map grows (R53). -/
theorem MapGrows.keeps {s t : State} {n : Nat} (h : MapGrows s t) (hk : s.cfg.memKind = .sparse n) {b : Word} (hb : b ∈ s.slots) :
    b ∈ t.slots ∧ t.slotOf b = s.slotOf b := by
  obtain ⟨hc, r, hr⟩ := h
  rw [slotOf_sparse hk, slotOf_sparse (hc ▸ hk), ← hr]
  exact ⟨List.mem_append_left r hb, List.idxOf_append_of_mem hb⟩

theorem mapGrows_touch (s : State) (a : Word) : MapGrows s (s.touch a) := by
  refine ⟨State.touch_cfg s a, ?_⟩
  by_cases ha : a ∈ s.slots
  · rw [touch_slots_of_mem ha]
  · cases hk : s.cfg.memKind with
    | flat => simp [State.touch, hk]
    | sparse n =>
      rw [touch_slots_of_not_mem hk ha]
      exact List.prefix_append _ _

theorem mapGrows_access {s t : State} {a : Word} (h : (∃ v, s.memRead a = .ok (t, v)) ∨ ∃ v, s.memWrite a v = .ok t) :
    MapGrows s t := by
  obtain ⟨hc, hs⟩ := access_slots h
  exact ⟨hc, hs ▸ (mapGrows_touch s a).slots⟩

/-- An access adds its address to the map if it is new, and then at the next slot (R53). -/
theorem access_maps {s t : State} {a : Word} {n : Nat} (hk : s.cfg.memKind = .sparse n)
    (h : (∃ v, s.memRead a = .ok (t, v)) ∨ ∃ v, s.memWrite a v = .ok t) :
    (a ∈ s.slots → t.slots = s.slots) ∧ (a ∉ s.slots → t.slots = s.slots ++ [a] ∧ t.slotOf a = s.slots.length) := by
  obtain ⟨hc, hs⟩ := access_slots h
  refine ⟨fun ha => hs.trans (touch_slots_of_mem ha), fun ha => ⟨hs.trans (touch_slots_of_not_mem hk ha), ?_⟩⟩
  calc t.slotOf a = (s.touch a).slotOf a := slotOf_of_eq (by rw [hc, State.touch_cfg]) hs a
    _ = s.slotOf a := slotOf_touch a a (.inl rfl)
    _ = s.slots.length := by rw [slotOf_sparse hk, List.idxOf_eq_length ha]

/-- The memory-access part of every instruction only lets the map grow: `lw` and `sw` make an access, the others none (R119). -/
theorem mapGrows_mem {i : Instr} {p : MemoryIn} {s t : State} {v : Word} (h : (meaning i).mem p s = .ok (t, v)) : MapGrows s t := by
  cases i
  case lw => exact mapGrows_access (.inl ⟨v, h⟩)
  case sw =>
    simp only [meaning, storeWord, memStore] at h
    split at h
    · split at h
      next hw =>
        cases h
        exact mapGrows_access (.inr ⟨_, hw⟩)
      next => cases h
    · cases h
  all_goals
    cases h
    exact .of_eq rfl rfl

/-- The work of a stage only lets the map grow: fetch and memory-access may map an address, the others map none. -/
theorem mapGrows_produceAccept {st : Stage} {s t : State} (h : produceAccept st s = .next t) : MapGrows s t := by
  cases st with
  | fetch =>
    have f := produceAccept_fetch h
    refine ⟨f.cfg, ?_⟩
    rw [f.slots]
    split
    · exact List.prefix_rfl
    next g hg => exact (mapGrows_touch s g.addr).slots
  | decode => exact .of_eq (produceAccept_decode h).cfg (produceAccept_decode h).slots
  | execute => exact .of_eq (produceAccept_execute h).cfg (produceAccept_execute h).slots
  | memoryAccess =>
    have f := produceAccept_memoryAccess h
    have ha := f.access
    refine ⟨f.cfg, ?_⟩
    unfold Accessed at ha
    split at ha
    · obtain ⟨-, hs⟩ := ha
      rw [hs]
    · obtain ⟨u, v, hm, -, hs⟩ := ha
      rw [hs]
      exact (mapGrows_mem hm).slots
  | writeBack => exact .of_eq (produceAccept_writeBack h).cfg (produceAccept_writeBack h).slots

/-- A turn does nothing, or the work of its stage, or takes a fatal error, which leaves the map. -/
theorem mapGrows_turn {first : Nat} {st : Stage} {s t : State} (h : turn first st s = .next t) : MapGrows s t := by
  obtain ⟨u, hu, hc⟩ := turn_cases first st s
  obtain rfl : t = u := by simpa [h] using hu
  rcases hc with ⟨-, rfl⟩ | ⟨-, -, hp⟩ | ⟨-, -, f, -, rfl⟩
  · exact .of_eq rfl rfl
  · exact mapGrows_produceAccept hp
  · exact .of_eq rfl rfl

/-- Every step only lets the map grow, whatever the latencies are and whether it ends in an error or not (R53). -/
theorem mapGrows_step {s t : State} (h : step s = .next t) : MapGrows s t := by
  cases hh : s.halted
  · obtain ⟨s1, s2, s3, s4, s5, h1, h2, h3, h4, h5, rfl⟩ := step_chain hh h
    obtain ⟨hc0, -, -, -, -, hs0, -⟩ := passStart_fields s
    obtain ⟨hc6, -, -, -, -, hs6, -⟩ := finishCycle_fields (beginCycle s).firstAdvancing s5
    exact (MapGrows.of_eq hc0 hs0).trans <| (mapGrows_turn h1).trans <| (mapGrows_turn h2).trans <| (mapGrows_turn h3).trans <|
      (mapGrows_turn h4).trans <| (mapGrows_turn h5).trans <| .of_eq hc6 hs6
  · rw [step_halted hh] at h
    cases h
    exact .of_eq rfl rfl

/-- Settles O33: an access and a step only let the map grow, at its end, and an address stays where it is while the map grows. -/
theorem sparseSlotsAreStable : Obligations.SparseSlotsAreStable := by
  refine ⟨fun s t a n hk _ h => ⟨fun b hb => ?_, fun b c hb _ he => ?_, access_maps hk h⟩,
    fun s t n hk h b hb => (mapGrows_step h).keeps hk hb⟩
  · obtain ⟨-, hslot⟩ := (mapGrows_access h).keeps hk hb
    exact hslot
  · exact slotOf_inj (n := n) ((mapGrows_access h).cfg ▸ hk) hb he

/-! ## A block stored by the host -/

theorem slotOf_flat {s : State} (h : s.cfg.memKind = .flat) (a : Word) : s.slotOf a = a.toNat := by
  unfold State.slotOf
  rw [h]

theorem unitSize_flat {s : State} (h : s.cfg.memKind = .flat) : s.unitSize = s.cfg.memSize := by
  unfold State.unitSize
  rw [h]

/-- A word of memory after a store (R50). -/
theorem wordAt_putWord {s : State} (hm : s.MemoryOk) (a b v : Word) :
    (s.putWord a v).wordAt b = if b = a then v else s.wordAt b := by
  split_ifs with h
  · rw [h, wordAt_putWord_same hm]
  · exact wordAt_putWord_other hm a b v h

/-- In a flat memory the word addresses are the numbers below 2^32. -/
theorem slotOf_ofNat_flat {s : State} (h : s.cfg.memKind = .flat) {a : Nat} (ha : a < 2 ^ 32) : s.slotOf (BitVec.ofNat 32 a) = a := by
  rw [slotOf_flat h, BitVec.toNat_ofNat, Nat.mod_eq_of_lt ha]

/-- A run whose first address exists stores its first word there and goes on at the next address (R54). -/
theorem storeRun_cons_of_lt {s : State} {a : Nat} (hk : s.cfg.memKind = .flat) (ha : a < 2 ^ 32) (h : a < s.cfg.memSize) (w : Word)
    (ws : List Word) : s.storeRun a (w :: ws) = (s.putWord (BitVec.ofNat 32 a) w).storeRun (a + 1) ws := by
  have hr : s.slotOf (BitVec.ofNat 32 a) < s.unitSize := by rwa [slotOf_ofNat_flat hk ha, unitSize_flat hk]
  rw [State.storeRun, if_pos ha, memWrite_of_lt w hr]

/-- A run whose first address does not exist, in the unit or in the machine, stores nothing (R54, R222). -/
theorem storeRun_cons_of_ge {s : State} {a : Nat} (hk : s.cfg.memKind = .flat) (h : s.cfg.memSize ≤ a) (w : Word) (ws : List Word) :
    s.storeRun a (w :: ws) = (s, some (.outOfRange a)) := by
  rw [State.storeRun]
  split_ifs with ha
  · have hs := slotOf_ofNat_flat hk ha
    rw [memWrite_of_ge w (by rwa [hs, unitSize_flat hk]), hs]
  · rfl

/-- How a run of stores ends: without error if it fits, else at the first address that does not exist. -/
theorem storeRun_error (ws : List Word) (s : State) (a : Nat) (hk : s.cfg.memKind = .flat) (hz : s.cfg.memSize ≤ 2 ^ 32) :
    (s.storeRun a ws).2 =
      if ws = [] ∨ a + ws.length ≤ s.cfg.memSize then none else some (.outOfRange (max a s.cfg.memSize)) := by
  induction ws generalizing s a with
  | nil => rfl
  | cons w ws ih =>
    rcases lt_or_ge a s.cfg.memSize with h | h
    · have hmax : max (a + 1) s.cfg.memSize = max a s.cfg.memSize := by omega
      have hfits : (ws = [] ∨ a + 1 + ws.length ≤ s.cfg.memSize) ↔ (w :: ws = [] ∨ a + (w :: ws).length ≤ s.cfg.memSize) := by
        cases ws <;> simp <;> omega
      rw [storeRun_cons_of_lt hk (by omega) h, ih _ _ (by simpa using hk) (by simpa using hz), State.putWord_cfg, hmax]
      exact if_congr hfits rfl rfl
    · rw [storeRun_cons_of_ge hk h, if_neg (by simp; omega), max_eq_left h]

/-- What a run of stores leaves in memory: its words at the addresses that exist, from the first on, and the old word at every other. -/
theorem wordAt_storeRun (ws : List Word) (s : State) (a : Nat) (hk : s.cfg.memKind = .flat) (hz : s.cfg.memSize ≤ 2 ^ 32)
    (hm : s.MemoryOk) (b : Word) :
    (s.storeRun a ws).1.wordAt b =
      if a ≤ b.toNat ∧ b.toNat < a + ws.length ∧ b.toNat < s.cfg.memSize then ws.getD (b.toNat - a) 0 else s.wordAt b := by
  induction ws generalizing s a with
  | nil => exact (if_neg (by simp; omega)).symm
  | cons w ws ih =>
    rcases lt_or_ge a s.cfg.memSize with h | h
    · have ha : a < 2 ^ 32 := by omega
      have hr : s.inRange (BitVec.ofNat 32 a) = true := by
        simpa [State.inRange, slotOf_ofNat_flat hk ha, unitSize_flat hk] using h
      have hb : b = BitVec.ofNat 32 a ↔ b.toNat = a := by
        rw [← BitVec.toNat_inj, BitVec.toNat_ofNat, Nat.mod_eq_of_lt ha]
      rw [storeRun_cons_of_lt hk ha h, ih _ _ (by simpa using hk) (by simpa using hz) (memoryOk_putWord hm hr), State.putWord_cfg,
        wordAt_putWord hm]
      rcases lt_trichotomy b.toNat a with hlt | heq | hgt
      · rw [if_neg (by omega), if_neg (mt hb.1 (by omega)), if_neg (by omega)]
      · rw [if_neg (by omega), if_pos (hb.2 heq), if_pos (by simp; omega), heq, Nat.sub_self, List.getD_cons_zero]
      · have hnext : b.toNat - a = b.toNat - (a + 1) + 1 := by omega
        rw [if_neg (mt hb.1 (by omega)), hnext, List.getD_cons_succ]
        exact if_congr (by simp; omega) rfl rfl
    · rw [storeRun_cons_of_ge hk h, if_neg (by omega)]

/-- Settles O59, by how the run ends and what it leaves in memory; both clauses cut the run at the size. -/
theorem storeBlockWritesRun : Obligations.StoreBlockWritesRun := by
  intro s a ws hk hm hz
  have hend := storeRun_error ws s a.toNat hk hz
  have hword := wordAt_storeRun ws s a.toNat hk hz hm
  refine ⟨fun h => ⟨_, Prod.ext rfl (hend.trans (if_pos (.inr h))), fun b => (hword b).trans (if_congr ?_ rfl rfl)⟩,
    fun hne h => ⟨_, Prod.ext rfl (hend.trans (if_neg (by simp [hne]; omega))), fun b => (hword b).trans (if_congr ?_ rfl rfl)⟩⟩
  · omega
  · omega

end Sys2Proof.Machine
end

section
/-!
PROOFS. The statements about the encoding (30_encoding.md): a word masked to the bits its instruction uses is the canonical word.
-/

namespace Sys2Proof

open Claims

/-! ## Fields of a masked word -/

/-- A field that the mask keeps whole. -/
theorem slice_and_of_ones {start width : Nat} {u : Word} (h : slice start width u = BitVec.allOnes width) (w : Word) :
    slice start width (w &&& u) = slice start width w := by
  rw [slice, BitVec.extractLsb'_and, ← slice, ← slice, h, BitVec.and_allOnes]

/-- A field that the mask clears. -/
theorem slice_and_of_zero {start width : Nat} {u : Word} (h : slice start width u = 0) (w : Word) :
    slice start width (w &&& u) = 0 := by
  rw [slice, BitVec.extractLsb'_and, ← slice, ← slice, h]
  exact BitVec.and_zero

theorem opcodeOf_and_usedBits (w : Word) (m : Mnemonic) : opcodeOf (w &&& usedBits m) = opcodeOf w :=
  slice_and_of_ones (by cases m <;> decide) w

/-- Every mask keeps the function code, those of the other two formats as part of an operand field. -/
theorem functOf_and_usedBits (w : Word) (m : Mnemonic) : functOf (w &&& usedBits m) = functOf w :=
  slice_and_of_ones (by cases m <;> decide) w

theorem classify_and_usedBits (w : Word) (m : Mnemonic) : classify (w &&& usedBits m) = classify w := by
  rw [classify, classify, opcodeOf_and_usedBits]

theorem functionMnemonic_and_usedBits (w : Word) (m : Mnemonic) : functionMnemonic (w &&& usedBits m) = functionMnemonic w := by
  rw [functionMnemonic, functionMnemonic, functOf_and_usedBits]

/-- An instruction's operands lie in the bits it uses. -/
theorem instrOf_and_usedBits (m : Mnemonic) (w : Word) : instrOf m (w &&& usedBits m) = instrOf m w := by
  cases m <;> simp (disch := decide) only [instrOf, usedBits, rsOf, rtOf, rdOf, shamtOf, imm16Of, tgt26Of, slice_and_of_ones]

/-! ## The decoder by mnemonics -/

/-- The two tables give the word this mnemonic (R82). -/
def HasMnemonic (w : Word) (m : Mnemonic) : Prop :=
  classify w = some (.mnemonic m) ∨ (classify w = some .primary ∧ functionMnemonic w = some m)

theorem decode_eq_ok_iff {w : Word} {i : Instr} : decode w = .ok i ↔ ∃ m, HasMnemonic w m ∧ instrOf m w = i := by
  unfold decode HasMnemonic
  rcases classify w with _ | _ | m
  · simp
  · rcases functionMnemonic w with _ | m <;> simp
  · simp

theorem instrOf_mnemonic (m : Mnemonic) (w : Word) : (instrOf m w).mnemonic = m := by cases m <;> rfl

theorem hasMnemonic_and_usedBits {w : Word} {m : Mnemonic} : HasMnemonic (w &&& usedBits m) m ↔ HasMnemonic w m := by
  rw [HasMnemonic, classify_and_usedBits, functionMnemonic_and_usedBits, HasMnemonic]

/-- Words that agree on the bits a mnemonic uses have it or not together, and are then the same instruction (R86). -/
theorem decode_of_and_usedBits_eq {w w' : Word} {m : Mnemonic} (hm : HasMnemonic w m) (h : w &&& usedBits m = w' &&& usedBits m) :
    decode w' = .ok (instrOf m w) := by
  have hm' : HasMnemonic w' m := hasMnemonic_and_usedBits.1 (h ▸ hasMnemonic_and_usedBits.2 hm)
  have hi : instrOf m w' = instrOf m w := by rw [← instrOf_and_usedBits m w', ← h, instrOf_and_usedBits]
  exact decode_eq_ok_iff.2 ⟨m, hm', hi⟩

/-! ## A word from its fields -/

/-- Two adjacent fields are one. -/
theorem slice_append_slice (w : Word) {a b width width' : Nat} (h : b = a + width) :
    slice b width' w ++ slice a width w = slice a (width' + width) w := by
  unfold slice
  rw [BitVec.extractLsb'_append_extractLsb'_eq_extractLsb' h]

/-- A word of the primary format is laid out from its fields. -/
theorem primaryWord_eq_of_fields {w : Word} {rs rt rd : RegIdx} {shamt : BitVec 5} {funct : BitVec 6} (ho : opcodeOf w = 0)
    (hrs : rsOf w = rs) (hrt : rtOf w = rt) (hrd : rdOf w = rd) (hshamt : shamtOf w = shamt) (hfunct : functOf w = funct) :
    primaryWord rs rt rd shamt funct = w := by
  subst hrs hrt hrd hshamt hfunct
  rw [primaryWord, ← ho, opcodeOf, rsOf, rtOf, rdOf, shamtOf, functOf, slice_append_slice w (rfl : 26 = 21 + 5),
    slice_append_slice w (rfl : 21 = 16 + 5), slice_append_slice w (rfl : 16 = 11 + 5), slice_append_slice w (rfl : 11 = 6 + 5),
    slice_append_slice w (rfl : 6 = 0 + 6)]
  exact BitVec.extractLsb'_eq_self

theorem immediateWord_eq_of_fields {w : Word} {opcode : BitVec 6} {rs rt : RegIdx} {imm : BitVec 16} (ho : opcodeOf w = opcode)
    (hrs : rsOf w = rs) (hrt : rtOf w = rt) (himm : imm16Of w = imm) : immediateWord opcode rs rt imm = w := by
  subst ho hrs hrt himm
  rw [immediateWord, opcodeOf, rsOf, rtOf, imm16Of, slice_append_slice w (rfl : 26 = 21 + 5),
    slice_append_slice w (rfl : 21 = 16 + 5), slice_append_slice w (rfl : 16 = 0 + 16)]
  exact BitVec.extractLsb'_eq_self

theorem jumpWord_eq_of_fields {w : Word} {opcode : BitVec 6} {field : BitVec 26} (ho : opcodeOf w = opcode)
    (hfield : tgt26Of w = field) : jumpWord opcode field = w := by
  subst ho hfield
  rw [jumpWord, opcodeOf, tgt26Of, slice_append_slice w (rfl : 26 = 0 + 26)]
  exact BitVec.extractLsb'_eq_self

/-! ## The canonical word -/

/-- What a table answers is one of its rows. -/
theorem mem_of_tableLookup {α : Type} {key : BitVec 6} {v : α} {table : List (BitVec 6 × α)}
    (h : tableLookup key table = some v) : (key, v) ∈ table := by
  induction table with
  | nil => cases h
  | cons row rest ih =>
    rw [tableLookup] at h
    split at h
    next hk =>
      cases h
      exact hk ▸ List.mem_cons_self
    next => exact List.mem_cons_of_mem _ (ih h)

theorem opcodeOf_of_classify_primary {w : Word} (h : classify w = some .primary) : opcodeOf w = 0 := by
  simpa [opcodeTable] using mem_of_tableLookup h

/-- The encoder writes the opcode 0, the function code of the mnemonic's row, and each operand field either as the word has it, where the mask keeps
it, or as 0, where the mask clears it (R84, R90). -/
theorem encode_instrOf_primary {w : Word} {m : Mnemonic} (ho : opcodeOf w = 0) (hf : (functOf w, m) ∈ functTable) :
    encode (instrOf m w) = w &&& usedBits m := by
  rw [← opcodeOf_and_usedBits w m] at ho
  rw [← functOf_and_usedBits w m] at hf
  cases m
  all_goals simp only [functTable, List.mem_cons, List.not_mem_nil, Prod.mk.injEq, reduceCtorEq, and_true, and_false, or_false,
    false_or] at hf
  all_goals
    refine primaryWord_eq_of_fields ho ?_ ?_ ?_ ?_ hf
    all_goals
      simp (disch := decide) only [usedBits, rsOf, rtOf, rdOf, shamtOf, slice_and_of_ones, slice_and_of_zero]

/-- The same for the two formats that the opcode alone classifies (R83, R90). -/
theorem encode_instrOf_mnemonic {w : Word} {m : Mnemonic} (ho : (opcodeOf w, OpClass.mnemonic m) ∈ opcodeTable) :
    encode (instrOf m w) = w &&& usedBits m := by
  rw [← opcodeOf_and_usedBits w m] at ho
  cases m
  all_goals simp only [opcodeTable, List.mem_cons, List.not_mem_nil, Prod.mk.injEq, OpClass.mnemonic.injEq, reduceCtorEq, and_true,
    and_false, or_false, false_or] at ho
  case j | jal => exact jumpWord_eq_of_fields ho (slice_and_of_ones (by decide) w)
  all_goals
    refine immediateWord_eq_of_fields ho ?_ ?_ ?_
    all_goals
      simp (disch := decide) only [usedBits, rsOf, rtOf, imm16Of, slice_and_of_ones, slice_and_of_zero]

/-- The canonical word of what a word decodes to is the word masked to the used bits (R90). -/
theorem encode_instrOf {w : Word} {m : Mnemonic} (h : HasMnemonic w m) : encode (instrOf m w) = w &&& usedBits m := by
  rcases h with hc | ⟨hc, hf⟩
  · exact encode_instrOf_mnemonic (mem_of_tableLookup hc)
  · exact encode_instrOf_primary (opcodeOf_of_classify_primary hc) (mem_of_tableLookup hf)

/-- Settles O2: the masks keep the opcode, the function code and the operands, which is all the decoder reads, and the encoder writes just these. -/
theorem ignoredFieldsChangeNothing : Obligations.IgnoredFieldsChangeNothing := by
  intro w i h
  obtain ⟨m, hm, rfl⟩ := decode_eq_ok_iff.1 h
  rw [instrOf_mnemonic]
  exact ⟨fun _ hw => decode_of_and_usedBits_eq hm hw, encode_instrOf hm⟩

end Sys2Proof
end

section
/-!
PROOFS. The statements about the pipeline orchestrator (40_pipeline_orchestrator.md): the low bits of the pc, the stage contract, and what a cycle
commits.
-/

namespace Sys2Proof.Machine

/-! ## The low bits of the pc -/

/-- The mask of `set_low_bits` has the bits below `n` set, as far as a word has them (R123). -/
theorem getLsbD_lowMask (n k : Nat) : (BitVec.ofNat 32 (2 ^ n - 1)).getLsbD k = (decide (k < 32) && decide (k < n)) := by
  rw [BitVec.getLsbD_ofNat, Nat.testBit_two_pow_sub_one]

theorem getLsbD_replaceLowBits (a v : Word) (n k : Nat) :
    (replaceLowBits a v n).getLsbD k = if k < n then v.getLsbD k else a.getLsbD k := by
  simp only [replaceLowBits, BitVec.getLsbD_or, BitVec.getLsbD_and, BitVec.getLsbD_not, getLsbD_lowMask]
  rcases lt_or_ge k 32 with hk | hk
  · by_cases hn : k < n <;> simp [hk, hn]
  · simp [BitVec.getLsbD_of_ge a k hk, BitVec.getLsbD_of_ge v k hk]

/-- Settles O34, bit by bit. -/
theorem setLowBitsSplices : Obligations.SetLowBitsSplices := by
  intro s v n k _
  rw [State.pcSetLowBits_pc, getLsbD_replaceLowBits]

/-! ## The stage contract -/

@[simp] theorem PerStage.get_set_same {α : Type} (p : PerStage α) (st : Stage) (v : α) : (p.set st v).get st = v := by
  cases st <;> rfl

theorem PerStage.get_set_ne {α : Type} (p : PerStage α) {st st' : Stage} (v : α) (h : st' ≠ st) :
    (p.set st v).get st' = p.get st' := by
  cases st <;> cases st' <;> simp [PerStage.get, PerStage.set] at h ⊢

theorem tickAll_lat_get (s : State) (st : Stage) : s.tickAll.lat.get st = s.lat.get st - 1 := by
  cases st <;> rfl

theorem busy_iff (s : State) (st : Stage) : s.busy st = true ↔ 0 < s.lat.get st := decide_eq_true_iff

theorem busy_eq_false_iff (s : State) (st : Stage) : s.busy st = false ↔ s.lat.get st = 0 := by
  rw [← Bool.not_eq_true, busy_iff, Nat.pos_iff_ne_zero, not_not]

/-- A busy stage's `accept` is the contract violation (R115). -/
theorem accept_of_busy {s : State} {st : Stage} (h : 0 < s.lat.get st) : s.accept st = .fault (.stageContractViolation st) :=
  if_pos ((busy_iff s st).2 h)

/-- An idle stage's `accept` latches its input and sets its latency (R112). -/
theorem accept_of_idle {s : State} {st : Stage} (h : s.lat.get st = 0) :
    s.accept st = .next { s.latchInput st with lat := s.lat.set st Config.stageLatency } :=
  if_neg (by simp [(busy_eq_false_iff s st).2 h])

/-- Settles O35: `accept` sets the latency 1 of its own stage and no other's, and one tick takes it back to 0. -/
theorem acceptTickContract : Obligations.AcceptTickContract := by
  intro s st
  refine ⟨busy_iff s st, fun h => ⟨_, accept_of_idle h, ?_⟩, accept_of_busy, tickAll_lat_get s st⟩
  have hlat : (s.lat.set st Config.stageLatency).get st = 1 := PerStage.get_set_same _ _ _
  refine ⟨hlat, ?busy, ?tick, fun st' hne => PerStage.get_set_ne _ _ hne, ?latches⟩
  case busy => rw [busy_iff, hlat]; exact Nat.one_pos
  case tick => rw [busy_eq_false_iff, tickAll_lat_get, hlat]
  case latches => cases st <;> simp [State.latchInput]

/-! ## What a cycle commits -/

/-- Two states agree in all that write-back reads: the configuration, the registers, the pc, the accumulator and the latch of write-back (R120). -/
structure SameForCommit (s t : State) : Prop where
  cfg : t.cfg = s.cfg
  regs : t.regs = s.regs
  pc : t.pc = s.pc
  acc : t.acc = s.acc
  accWritten : t.accWritten = s.accWritten
  writeBack : t.latches.writeBack = s.latches.writeBack

theorem SameForCommit.trans {s t u : State} (h : SameForCommit s t) (g : SameForCommit t u) : SameForCommit s u :=
  ⟨g.cfg.trans h.cfg, g.regs.trans h.regs, g.pc.trans h.pc, g.acc.trans h.acc, g.accWritten.trans h.accWritten,
    g.writeBack.trans h.writeBack⟩

theorem FetchTurn.sameForCommit {s t : State} (h : FetchTurn s t) : SameForCommit s t :=
  ⟨h.cfg, h.regs, h.pc, h.acc, h.accWritten, by rw [h.latches]⟩

theorem DecodeTurn.sameForCommit {s t : State} (h : DecodeTurn s t) : SameForCommit s t :=
  ⟨h.cfg, h.regs, h.pc, h.acc, h.accWritten, by rw [h.latches]⟩

theorem ExecuteTurn.sameForCommit {s t : State} (h : ExecuteTurn s t) : SameForCommit s t :=
  ⟨h.cfg, h.regs, h.pc, h.acc, h.accWritten, by rw [h.latches]⟩

theorem AccessTurn.sameForCommit {s t : State} (h : AccessTurn s t) : SameForCommit s t :=
  ⟨h.cfg, h.regs, h.pc, h.acc, h.accWritten, by rw [h.latches]⟩

/-- A cycle without fatal error is one commit between the start of the pass and the end of the cycle: the stages before write-back change nothing
that it reads (R124). -/
theorem clean_cycle_commits {s t : State} (hl : s.LatencyOk) (h : Claims.CleanStep s t) : ∃ m u : State,
    SameForCommit (passStart s) m ∧ Committed m u.regs u.pc u.acc u.accWritten ∧ u.cfg = m.cfg ∧ u.halted = false ∧
    t = finishCycle 0 u := by
  obtain ⟨hh, hs, he⟩ := h
  obtain ⟨s1, s2, s3, s4, s5, f1, f2, f3, f4, f5, rfl, h5⟩ := clean_cycle hl hh hs he
  exact ⟨s4, s5, f1.sameForCommit.trans (f2.sameForCommit.trans (f3.sameForCommit.trans f4.sameForCommit)), f5.commit, f5.cfg,
    h5, rfl⟩

/-- A bubble in write-back commits nothing (R114). -/
theorem committed_of_bubble {s : State} {regs : Vector Word 32} {pc : Word} {acc : DWord} {accWritten : Bool}
    (hw : s.latches.writeBack = none) (h : Committed s regs pc acc accWritten) :
    regs = s.regs ∧ pc = s.pc ∧ acc = s.acc ∧ accWritten = s.accWritten := by
  simpa only [Committed, hw] using h

/-- What write-back commits is what `exec` leaves when asked for that part of the instruction in the latch (R120). -/
theorem exec_of_committed {s : State} {w : WriteBackIn} {regs : Vector Word 32} {pc : Word} {acc : DWord} {accWritten : Bool}
    (hw : s.latches.writeBack = some w) (h : Committed s regs pc acc accWritten) :
    ∃ v, exec w.insn (s.committing w) = .next v ∧ regs = v.regs ∧ pc = v.pc ∧ acc = v.acc ∧ accWritten = v.accWritten := by
  simp only [Committed, hw, inPhase_committing hw] at h
  obtain ⟨u, hu, hcommit⟩ := h
  have hexec : exec w.insn (s.committing w) = .next (u.emitRetired (some ⟨w.addr, decide (w.insn = .syscall)⟩)) := by
    rw [exec_committing, hu]
  exact ⟨_, hexec, hcommit⟩

/-- Settles O47: the commit of the cycle is that of the latched instruction, between the two places of the increment (R127). -/
theorem cycleCommitsWriteBack : Obligations.CycleCommitsWriteBack := by
  intro s t hl h
  obtain ⟨m, u, hm, hcommit, hcfg, hu, rfl⟩ := clean_cycle_commits hl h
  obtain ⟨scfg, sregs, sacc, saccWritten, -, -, slatches, -⟩ := passStart_fields s
  obtain ⟨-, tregs, tacc, taccWritten, -⟩ := finishCycle_fields 0 u
  have mcfg : m.cfg = s.cfg := hm.cfg.trans scfg
  have mpc : m.pc = if s.cfg.pcIncPhase = .beforePass then s.pc + 1 else s.pc := hm.pc.trans (passStart_clean hl).2
  have tpc : (finishCycle 0 u).pc = if s.cfg.pcIncPhase = .afterPass then u.pc + 1 else u.pc := by
    simp [finishCycle_pc, hu, hcfg, mcfg]
  have mlatch : m.latches.writeBack = s.latches.writeBack := hm.writeBack.trans (by rw [slatches])
  have mregs := hm.regs.trans sregs
  have macc := hm.acc.trans sacc
  have maccWritten := hm.accWritten.trans saccWritten
  refine ⟨fun hw => ?bubble, fun w hw => ?instruction⟩
  case bubble =>
    obtain ⟨hregs, hpc, hacc, haccWritten⟩ := committed_of_bubble (mlatch.trans hw) hcommit
    refine ⟨tregs.trans (hregs.trans mregs), tacc.trans (hacc.trans macc), taccWritten.trans (haccWritten.trans maccWritten), ?_⟩
    rw [tpc, hpc, mpc]
    cases s.cfg.pcIncPhase <;> rfl
  case instruction =>
    obtain ⟨v, hv, hregs, hpc, hacc, haccWritten⟩ := exec_of_committed (mlatch.trans hw) hcommit
    refine ⟨m, v, mcfg, mregs, macc, maccWritten, ?start, hv, tregs.trans hregs, tacc.trans hacc, taccWritten.trans haccWritten, ?stop⟩
    case start =>
      rw [mpc]
      cases s.cfg.pcIncPhase <;> rfl
    case stop =>
      rw [tpc, hpc]
      cases s.cfg.pcIncPhase <;> rfl

end Sys2Proof.Machine
end

section
/-!
PROOFS. The statements about register-register arithmetic, logic, shifts and comparisons (41_alu_register.md): the model's word operators as exact
arithmetic, and one passage for the whole family.
-/

namespace Sys2Proof.Machine

open Claims

/-! ## Word operators as exact arithmetic modulo 2^32 -/

theorem mod32_natCast (n : Nat) : mod32 n = BitVec.ofNat 32 n := BitVec.ofInt_natCast 32 n

@[simp] theorem mod32_toNat (a : Word) : mod32 a.toNat = a := by
  rw [mod32_natCast, BitVec.ofNat_toNat, BitVec.setWidth_eq]

@[simp] theorem mod32_toInt (a : Word) : mod32 a.toInt = a := BitVec.ofInt_toInt

theorem mod32_add (m n : Int) : mod32 (m + n) = mod32 m + mod32 n := BitVec.ofInt_add m n

theorem mod32_sub (m n : Int) : mod32 (m - n) = mod32 m - mod32 n := by
  rw [Int.sub_eq_add_neg, mod32_add, BitVec.sub_eq_add_neg]
  exact congrArg _ BitVec.ofInt_neg

theorem add_eq_mod32 (a b : Word) : a + b = mod32 (a.toNat + b.toNat) := by
  rw [mod32_add, mod32_toNat, mod32_toNat]

theorem sub_eq_mod32 (a b : Word) : a - b = mod32 (a.toNat - b.toNat) := by
  rw [mod32_sub, mod32_toNat, mod32_toNat]

/-- A left shift multiplies by a power of two (R158). -/
theorem shiftLeft_eq_mod32 (b : Word) (n : Nat) : b <<< n = mod32 (b.toNat * 2 ^ n) := by
  have hcast : (b.toNat * 2 ^ n : Int) = (b.toNat * 2 ^ n : Nat) := by push_cast; rfl
  rw [hcast, mod32_natCast]
  apply BitVec.eq_of_toNat_eq
  rw [BitVec.toNat_shiftLeft, Nat.shiftLeft_eq, BitVec.toNat_ofNat]

/-- A logical right shift divides the unsigned number (R159). -/
theorem ushiftRight_eq_mod32 (b : Word) (n : Nat) : b >>> n = mod32 (b.toNat / 2 ^ n : Nat) := by
  rw [← Nat.shiftRight_eq_div_pow, ← BitVec.toNat_ushiftRight, mod32_toNat]

/-- An arithmetic right shift divides the signed number, rounding down (R160). -/
theorem sshiftRight_eq_mod32 (b : Word) (n : Nat) : b.sshiftRight n = mod32 (b.toInt.fdiv (2 ^ n)) := by
  have hdiv : b.toInt.fdiv (2 ^ n) = (b.sshiftRight n).toInt := by
    rw [Int.fdiv_eq_ediv_of_nonneg _ (by positivity), BitVec.toInt_sshiftRight, Int.shiftRight_eq_div_pow]
    push_cast
    rfl
  rw [hdiv, mod32_toInt]

/-- The amount of a variable shift is the register modulo 32 (R85, R161). -/
theorem shiftAmount_toNat (a : Word) : (shiftAmount a).toNat = a.toNat % 32 := BitVec.extractLsb'_toNat 0 5 a

theorem boolWord_decide (p : Prop) [Decidable p] : boolWord (decide p) = oneIf p := by
  simp [boolWord, oneIf]

/-! ## A word from its bits -/

/-- A word whose bits are given by a function is any word with these bits. -/
theorem eq_ofFnLE {a : Word} {bit : Fin 32 → Bool} (h : ∀ k : Fin 32, a[k] = bit k) : a = BitVec.ofFnLE bit := by
  apply BitVec.eq_of_getElem_eq
  intro k hk
  rw [BitVec.getElem_ofFnLE, ← h]
  rfl

/-! ## The passage of the family -/

/-- The function-code table holds primary-format instructions only (R84). -/
theorem format_of_functTable {funct : BitVec 6} {m : Mnemonic} (h : tableLookup funct functTable = some m) : m.format = .primary := by
  have hrows : ∀ row ∈ functTable, row.2.format = .primary := by decide
  exact hrows _ (mem_of_tableLookup h)

/-- A word with opcode 0 and a function code of the table is that row's instruction (R82). -/
theorem decode_of_isPrimary {funct : BitVec 6} {m : Mnemonic} {w : Word} (h : IsPrimary funct w)
    (hrow : tableLookup funct functTable = some m) : decode w = .ok (instrOf m w) :=
  have ⟨hopcode, hfunct⟩ := h
  decode_eq_ok_iff.2 ⟨m, .inr (Laws.Classified.primary_of hopcode hfunct hrow), rfl⟩

/-- An instruction of the family passes its stages on any payload: execute computes on the registers as decode read them, and write-back commits
the result (R166). -/
theorem passes_of_aluRegister {i : Instr} {rd : RegIdx} {f : Word → Word → Word} (hm : meaning i = aluRegister i rd f)
    (hp : i.format = .primary) (d : DecodeIn) (sD sE sM sW : State) :
    Passes i d sD sE sM sW id (fun t => t.writeReg rd (f (xRs sD d.instr) (xRt sD d.instr))) false := by
  refine passes_of_parts (.plain (zext64 (f (xRs sD d.instr) (xRt sD d.instr)))) 0 ?quit ?execute ?access ?commit
  case quit => rw [← meaning_quit, hm]; rfl
  case execute =>
    intro e _ hv
    rw [hp] at hv
    simp only [hm, aluRegister, exPrimary, hv, State.loadOperands]
    rfl
  case access => intros; rw [hm]; rfl
  case commit =>
    intro w _ hr _ _
    rw [hm]
    simp [aluRegister, wbResult, hr, ExecuteResult.plain]

/-- A row of the function-code table whose meaning is of the family is a register operation on `rd`, with the value the meaning computes. -/
theorem registerOp_of_aluRegister {funct : BitVec 6} (m : Mnemonic) {f : Word → Word → Word → Word} {val : State → Word → Word}
    (hrow : tableLookup funct functTable = some m)
    (hm : ∀ w, meaning (instrOf m w) = aluRegister (instrOf m w) (rdOf w) (f w))
    (hval : ∀ s w, f w (xRs s w) (xRt s w) = val s w) : RegisterOp (IsPrimary funct) (instrOf m) rdDest val := by
  intro d sD sE sM sW h
  have hp : (instrOf m d.instr).format = .primary := by
    rw [Instr.format, instrOf_mnemonic, format_of_functTable hrow]
  refine ⟨decode_of_isPrimary h hrow, ?_⟩
  rw [← hval]
  exact passes_of_aluRegister (hm d.instr) hp d sD sE sM sW

/-! ## The instructions -/

/-- Settles O5: addition and subtraction of words are those of the numbers modulo 2^32. -/
theorem addAndSubtractWrap : Obligations.AddAndSubtractWrap :=
  ⟨registerOp_of_aluRegister .add rfl (fun _ => rfl) fun _ _ => add_eq_mod32 _ _,
    registerOp_of_aluRegister .addu rfl (fun _ => rfl) fun _ _ => add_eq_mod32 _ _,
    registerOp_of_aluRegister .sub rfl (fun _ => rfl) fun _ _ => sub_eq_mod32 _ _,
    registerOp_of_aluRegister .subu rfl (fun _ => rfl) fun _ _ => sub_eq_mod32 _ _⟩

/-- Settles O6, bit by bit. -/
theorem logicIsBitByBit : Obligations.LogicIsBitByBit :=
  ⟨registerOp_of_aluRegister .and rfl (fun _ => rfl) fun _ _ => eq_ofFnLE fun _ => BitVec.getElem_and _,
    registerOp_of_aluRegister .or rfl (fun _ => rfl) fun _ _ => eq_ofFnLE fun _ => BitVec.getElem_or _,
    registerOp_of_aluRegister .xor rfl (fun _ => rfl) fun _ _ => eq_ofFnLE fun _ => BitVec.getElem_xor _,
    registerOp_of_aluRegister .nor rfl (fun _ => rfl) fun _ _ => eq_ofFnLE fun _ => by
      rw [Fin.getElem_fin, BitVec.getElem_not, BitVec.getElem_or]
      rfl⟩

/-- Settles O7: a shift by `shamt` is a multiplication or a division by its power of two. -/
theorem constantShifts : Obligations.ConstantShifts :=
  ⟨registerOp_of_aluRegister .sll rfl (fun _ => rfl) fun _ _ => shiftLeft_eq_mod32 _ _,
    registerOp_of_aluRegister .srl rfl (fun _ => rfl) fun _ _ => ushiftRight_eq_mod32 _ _,
    registerOp_of_aluRegister .sra rfl (fun _ => rfl) fun _ _ => sshiftRight_eq_mod32 _ _⟩

/-- Settles O8: as the constant shifts, with the amount `x[rs]` modulo 32. -/
theorem variableShifts : Obligations.VariableShifts := by
  refine ⟨registerOp_of_aluRegister .sllv rfl (fun _ => rfl) fun s w => ?left,
    registerOp_of_aluRegister .srlv rfl (fun _ => rfl) fun s w => ?right,
    registerOp_of_aluRegister .srav rfl (fun _ => rfl) fun s w => ?arithmetic⟩
  case left => rw [shiftLeft_eq_mod32, shiftAmount_toNat]
  case right => rw [ushiftRight_eq_mod32, shiftAmount_toNat]
  case arithmetic => rw [sshiftRight_eq_mod32, shiftAmount_toNat]

/-- Settles O9: the two comparisons are those of the signed and of the unsigned numbers. -/
theorem setOnLessThan : Obligations.SetOnLessThan :=
  ⟨registerOp_of_aluRegister .slt rfl (fun _ => rfl) fun _ _ => boolWord_decide _,
    registerOp_of_aluRegister .sltu rfl (fun _ => rfl) fun _ _ => boolWord_decide _⟩

end Sys2Proof.Machine
end

section
/-!
PROOFS. The statements about multiply, divide and the accumulator (42_muldiv_accumulator.md): the products as exact arithmetic, the halves of the
accumulator as quotient and remainder by 2^32, and one passage each for the producers and the retrievals.
-/

namespace Sys2Proof.Machine

open Claims

/-! ## Products -/

theorem unsignedProduct_eq_ofNat (a b : Word) : unsignedProduct a b = BitVec.ofNat 64 (a.toNat * b.toNat) := by
  rw [BitVec.ofNat_mul, BitVec.ofNat_toNat, BitVec.ofNat_toNat]
  rfl

/-- The product of two signed words lies between -2^62 and 2^62, so 64 bits hold it (R171). -/
theorem toInt_signedProduct (a b : Word) : (signedProduct a b).toInt = a.toInt * b.toInt := by
  have hge : -2 ^ 62 ≤ a.toInt * b.toInt := BitVec.le_toInt_mul_toInt
  have hle : a.toInt * b.toInt ≤ 2 ^ 62 := BitVec.toInt_mul_toInt_le
  exact BitVec.toInt_ofInt_eq_self (by decide) (by omega) (by omega)

/-- The product of two unsigned words is below 2^64 (R172). -/
theorem toNat_unsignedProduct (a b : Word) : (unsignedProduct a b).toNat = a.toNat * b.toNat := by
  rw [unsignedProduct_eq_ofNat, BitVec.toNat_ofNat]
  exact Nat.mod_eq_of_lt BitVec.toNat_mul_toNat_lt

/-! ## Halves of the accumulator -/

theorem highWord_eq_ofNat (v : DWord) : highWord v = BitVec.ofNat 32 (v.toNat / 2 ^ 32) := by
  rw [← Nat.shiftRight_eq_div_pow]
  rfl

theorem lowWord_eq_ofNat (v : DWord) : lowWord v = BitVec.ofNat 32 (v.toNat % 2 ^ 32) := by
  apply BitVec.eq_of_toNat_eq
  rw [lowWord, BitVec.extractLsb'_toNat, Nat.shiftRight_zero, BitVec.toNat_ofNat, Nat.mod_mod]

/-- Before any producer has committed, the accumulator is the free value (R226 (c), D15). -/
theorem State.readAcc_of_unwritten {s : State} (h : s.accWritten = false) : s.readAcc = Config.accAtReset := by
  rw [State.readAcc, h]
  rfl

/-! ## The passages of the family -/

/-- A producer whose execute part has a result on the registers as decode read them passes its stages, and write-back puts the result into the
accumulator (R170). -/
theorem passes_of_accProducer {i : Instr} {f : ExecuteIn → Word → Word → Except Fault DWord} {r : DWord} (hm : meaning i = accProducer i f)
    (hp : i.format = .primary) (d : DecodeIn) (sD sE sM sW : State) (hf : ∀ e, f e (xRs sD d.instr) (xRt sD d.instr) = .ok r) :
    Passes i d sD sE sM sW id (fun t => t.writeAcc r) false := by
  refine passes_of_parts (.plain r) 0 ?quit ?execute ?access ?commit
  case quit => rw [← meaning_quit, hm]; rfl
  case execute =>
    intro e _ hv
    rw [hp] at hv
    have hfe : f e (sD.readReg (rsOf d.instr)) (sD.readReg (rtOf d.instr)) = .ok r := hf e
    simp only [hm, accProducer, exPrimary, hv, State.loadOperands, hfe]
  case access => intros; rw [hm]; rfl
  case commit =>
    intro w _ hr _ _
    rw [hm]
    simp [accProducer, hr, ExecuteResult.plain]

/-- A row of the function-code table whose meaning is a producer is an accumulator operation, with the value the meaning computes on the admitted
operands. -/
theorem accumulatorOp_of_accProducer {funct : BitVec 6} (m : Mnemonic) {f : ExecuteIn → Word → Word → Except Fault DWord}
    {admitted : Word → Word → Prop} {val : Word → Word → DWord} (hrow : tableLookup funct functTable = some m)
    (hm : ∀ w, meaning (instrOf m w) = accProducer (instrOf m w) f) (hval : ∀ e a b, admitted a b → f e a b = .ok (val a b)) :
    AccumulatorOp (IsPrimary funct) (instrOf m) admitted val := by
  intro d sD sE sM sW h
  have hp : (instrOf m d.instr).format = .primary := by
    rw [Instr.format, instrOf_mnemonic, format_of_functTable hrow]
  exact ⟨decode_of_isPrimary h hrow, fun hadm => passes_of_accProducer (hm d.instr) hp d sD sE sM sW fun e => hval e _ _ hadm⟩

/-- A retrieval passes its stages, and write-back puts a half of the accumulator, as this write-back sees it, into `rd` (R170). -/
theorem passes_of_accRetrieval {i : Instr} {rd : RegIdx} {half : DWord → Word} (hm : meaning i = accRetrieval i rd half) (d : DecodeIn)
    (sD sE sM sW : State) : Passes i d sD sE sM sW id (fun t => t.writeReg rd (half sW.readAcc)) false := by
  refine passes_of_parts (.plain 0) 0 ?quit ?execute ?access ?commit
  case quit => rw [← meaning_quit, hm]; rfl
  all_goals intros; rw [hm]; rfl

/-! ## The instructions -/

/-- Settles O10: each product is that of the numbers, which 64 bits always hold. -/
theorem multiplyGivesFullProduct : Obligations.MultiplyGivesFullProduct := by
  refine ⟨accumulatorOp_of_accProducer .mult rfl (fun _ => rfl) fun _ _ _ _ => rfl,
    accumulatorOp_of_accProducer .multu rfl (fun _ => rfl) fun _ a b _ => congrArg _ (unsignedProduct_eq_ofNat a b),
    fun a b => ⟨toInt_signedProduct a b, ?_⟩⟩
  rw [← unsignedProduct_eq_ofNat, toNat_unsignedProduct]

/-- Settles O14: the two retrievals read the free value and take its high and its low half. -/
theorem unwrittenAccumulatorIsFree : Obligations.UnwrittenAccumulatorIsFree := by
  intro d sD sE sM sW h
  rw [← State.readAcc_of_unwritten h, ← highWord_eq_ofNat, ← lowWord_eq_ofNat]
  exact ⟨fun hw => ⟨decode_of_isPrimary hw (m := .mfhi) rfl, passes_of_accRetrieval rfl d sD sE sM sW⟩,
    fun hw => ⟨decode_of_isPrimary hw (m := .mflo) rfl, passes_of_accRetrieval rfl d sD sE sM sW⟩⟩

end Sys2Proof.Machine
end

section
/-!
PROOFS. The statements about arithmetic and logic with an immediate (43_alu_immediate.md): the three readings of the immediate as exact arithmetic
and as half-words, and one passage for the whole family.
-/

namespace Sys2Proof.Machine

open Claims

/-! ## The immediate, sign-extended -/

/-- The sign-extended immediate is the signed number it stands for, modulo 2^32 (R85). -/
theorem sext32_eq_mod32 (imm : BitVec 16) : sext32 imm = mod32 imm.toInt := rfl

theorem toInt_sext32 (imm : BitVec 16) : (sext32 imm).toInt = imm.toInt := BitVec.toInt_signExtend_of_le (by decide)

/-- Read as unsigned, the sign-extended immediate stands for 0 to 0x7FFF and 0xFFFF8000 to 0xFFFFFFFF (R184). -/
theorem toNat_sext32 (imm : BitVec 16) :
    (sext32 imm).toNat = if imm.toNat < 0x8000 then imm.toNat else imm.toNat + 0xFFFF0000 := by
  have hwidth : (imm.setWidth 32).toNat = imm.toNat := BitVec.toNat_setWidth_of_le (by decide)
  rw [sext32, BitVec.toNat_signExtend, hwidth, BitVec.msb_eq_decide]
  by_cases hpos : imm.toNat < 0x8000
  · simp [hpos, Nat.not_le.2 hpos]
  · simp [hpos, Nat.not_lt.1 hpos]

theorem add_sext32_eq_mod32 (a : Word) (imm : BitVec 16) : a + sext32 imm = mod32 (a.toNat + imm.toInt) := by
  rw [mod32_add, mod32_toNat, sext32_eq_mod32]

/-! ## The immediate as a half-word -/

/-- A word is its two halves. -/
theorem append_halves (a : Word) : a.extractLsb' 16 16 ++ a.extractLsb' 0 16 = a :=
  (slice_append_slice a (rfl : 16 = 0 + 16)).trans BitVec.extractLsb'_eq_self

/-- The zero-extended immediate has a zero upper half (R85). -/
theorem zext32_eq_append (imm : BitVec 16) : zext32 imm = (0 : BitVec 16) ++ imm :=
  BitVec.setWidth_eq_append (by decide)

theorem and_zext32 (a : Word) (imm : BitVec 16) : a &&& zext32 imm = (0 : BitVec 16) ++ (a.extractLsb' 0 16 &&& imm) := by
  conv_lhs => rw [← append_halves a, zext32_eq_append, BitVec.and_append]
  exact congrArg (· ++ _) BitVec.and_zero

theorem or_zext32 (a : Word) (imm : BitVec 16) : a ||| zext32 imm = a.extractLsb' 16 16 ++ (a.extractLsb' 0 16 ||| imm) := by
  conv_lhs => rw [← append_halves a, zext32_eq_append, BitVec.or_append]
  exact congrArg (· ++ _) BitVec.or_zero

theorem xor_zext32 (a : Word) (imm : BitVec 16) : a ^^^ zext32 imm = a.extractLsb' 16 16 ++ (a.extractLsb' 0 16 ^^^ imm) := by
  conv_lhs => rw [← append_halves a, zext32_eq_append, BitVec.xor_append]
  exact congrArg (· ++ _) BitVec.xor_zero

/-- The immediate in the high half-word is its product with 2^16, which a word always holds (R188). -/
theorem upperImmediate_eq_mod32 (imm : BitVec 16) : upperImmediate imm = mod32 (imm.toNat * 2 ^ 16) := by
  have hcast : (imm.toNat * 2 ^ 16 : Int) = (imm.toNat * 2 ^ 16 : Nat) := by push_cast; rfl
  rw [hcast, mod32_natCast]
  apply BitVec.eq_of_toNat_eq
  rw [upperImmediate, BitVec.toNat_append, BitVec.toNat_ofNat, Nat.shiftLeft_eq, Nat.mod_eq_of_lt (by omega)]
  exact Nat.or_zero _

/-! ## The passage of the family -/

/-- A word whose opcode the opcode table gives a mnemonic is that row's instruction (R83). -/
theorem decode_of_isOpcode {opcode : BitVec 6} {m : Mnemonic} {w : Word} (h : IsOpcode opcode w)
    (hrow : tableLookup opcode opcodeTable = some (.mnemonic m)) : decode w = .ok (instrOf m w) :=
  decode_eq_ok_iff.2 ⟨m, .inl (Laws.Classified.opcode_of h hrow), rfl⟩

/-- An instruction of the family passes its stages on any payload: execute computes on `x[rs]` as decode read it, and write-back commits the result
to the configured destination (R180). -/
theorem passes_of_aluImmediate {i : Instr} {rt : RegIdx} {f : Word → Word} (hm : meaning i = aluImmediate i rt f)
    (hp : i.format = .immediate) (d : DecodeIn) (sD sE sM sW : State) :
    Passes i d sD sE sM sW id (fun t => t.writeReg (immDest t.cfg rt) (f (xRs sD d.instr))) false := by
  refine passes_of_parts (.plain (zext64 (f (xRs sD d.instr)))) 0 ?quit ?execute ?access ?commit
  case quit => rw [← meaning_quit, hm]; rfl
  case execute =>
    intro e _ hv
    rw [hp] at hv
    simp only [hm, aluImmediate, exImmediate, hv, State.loadOperands]
    rfl
  case access => intros; rw [hm]; rfl
  case commit =>
    intro w _ hr _ _
    rw [hm]
    simp [aluImmediate, wbImmResult, hr, ExecuteResult.plain]

/-- A row of the opcode table whose meaning is of the family is a register operation on the configured destination, with the value the meaning
computes. -/
theorem registerOp_of_aluImmediate {opcode : BitVec 6} (m : Mnemonic) {f : Word → Word → Word} {val : State → Word → Word}
    (hrow : tableLookup opcode opcodeTable = some (.mnemonic m)) (hp : m.format = .immediate)
    (hm : ∀ w, meaning (instrOf m w) = aluImmediate (instrOf m w) (rtOf w) (f w))
    (hval : ∀ s w, f w (xRs s w) = val s w) : RegisterOp (IsOpcode opcode) (instrOf m) rtDest val := by
  intro d sD sE sM sW h
  have hformat : (instrOf m d.instr).format = .immediate := by rw [Instr.format, instrOf_mnemonic, hp]
  refine ⟨decode_of_isOpcode h hrow, ?_⟩
  rw [← hval]
  exact passes_of_aluImmediate (hm d.instr) hformat d sD sE sM sW

/-! ## The instructions -/

/-- Settles O15: both additions are the sum with the signed immediate modulo 2^32. -/
theorem addImmediateWraps : Obligations.AddImmediateWraps :=
  ⟨registerOp_of_aluImmediate .addi rfl rfl (fun _ => rfl) fun _ _ => add_sext32_eq_mod32 _ _,
    registerOp_of_aluImmediate .addiu rfl rfl (fun _ => rfl) fun _ _ => add_sext32_eq_mod32 _ _⟩

/-- Settles O16: the two comparisons are with the sign-extended immediate, read as signed and as unsigned. -/
theorem setOnLessThanImmediate : Obligations.SetOnLessThanImmediate := by
  refine ⟨registerOp_of_aluImmediate .slti rfl rfl (fun _ => rfl) fun s w => ?signed,
    registerOp_of_aluImmediate .sltiu rfl rfl (fun _ => rfl) fun s w => ?unsigned⟩
  case signed => rw [lessSigned, boolWord_decide, toInt_sext32]
  case unsigned => rw [lessUnsigned, boolWord_decide, toNat_sext32]

/-- Settles O17, half by half: the upper half of the immediate is zero. -/
theorem logicImmediateZeroExtends : Obligations.LogicImmediateZeroExtends :=
  ⟨registerOp_of_aluImmediate .andi rfl rfl (fun _ => rfl) fun _ _ => and_zext32 _ _,
    registerOp_of_aluImmediate .ori rfl rfl (fun _ => rfl) fun _ _ => or_zext32 _ _,
    registerOp_of_aluImmediate .xori rfl rfl (fun _ => rfl) fun _ _ => xor_zext32 _ _⟩

/-- Settles O18: the value does not depend on `x[rs]`. -/
theorem loadUpperPlacesImmediateHigh : Obligations.LoadUpperPlacesImmediateHigh :=
  registerOp_of_aluImmediate .lui rfl rfl (fun _ => rfl) fun _ _ => upperImmediate_eq_mod32 _

end Sys2Proof.Machine
end

section
/-!
PROOFS. The statements about control transfer (45_control_transfer.md): the three kinds of target and the link as exact arithmetic, and one passage for
each shape of transfer.
-/

namespace Sys2Proof.Machine

open Claims

/-! ## The link and the targets -/

/-- The link is the exact sum of the pc and 2, modulo 2^32 (R203). -/
theorem State.linkAddress_eq_mod32 (s : State) : s.linkAddress = mod32 (s.pc.toNat + 2) := by
  rw [mod32_add, mod32_toNat]
  rfl

/-- A zero-extended branch target is the number the immediate is (R197, D8). -/
theorem branchTarget_zext {c : Config} (h : c.branchImmExt = .zext) (imm : BitVec 16) :
    branchTarget c imm = BitVec.ofNat 32 imm.toNat := by
  rw [branchTarget, h, BitVec.ofNat_toNat]
  rfl

/-- A sign-extended branch target is the signed number the immediate is, modulo 2^32 (R197, D8). -/
theorem branchTarget_sext {c : Config} (h : c.branchImmExt = .sext) (imm : BitVec 16) :
    branchTarget c imm = BitVec.ofInt 32 imm.toInt := by
  rw [branchTarget, h]
  rfl

/-- Below bit 2 the offset of an absolute jump is 0, and above it is the field (R201). -/
theorem getLsbD_jumpOffset (field : BitVec 26) {k : Nat} (hk : k < 32) :
    (jumpOffset field).getLsbD k = if k < 2 then false else field.getLsbD (k - 2) := by
  by_cases h : k < 2 <;> simp [jumpOffset, Config.jumpShift, hk, h]

/-- An absolute jump keeps the top four bits of the pc and replaces the others by the field and two zeros (R201). -/
theorem jumpAbsolute_eq_pcSet (s : State) (field : BitVec 26) :
    s.jumpAbsolute field = s.pcSet (s.pc.extractLsb' 28 4 ++ field ++ (0 : BitVec 2)) := by
  refine congrArg s.pcSet (BitVec.eq_of_getLsbD_eq fun k hk => ?_)
  rw [getLsbD_replaceLowBits, getLsbD_jumpOffset field hk, BitVec.getLsbD_append, BitVec.getLsbD_append]
  rcases lt_or_ge k 2 with hlow | hlow
  · simp [hlow, Config.jumpBits, show k < 28 by omega]
  rcases lt_or_ge k 28 with hmid | hmid
  · simp [hlow.not_gt, hmid, Config.jumpBits, show k - 2 < 26 by omega]
  · simp [hlow.not_gt, hmid.not_gt, Config.jumpBits, show ¬ k - 2 < 26 by omega, show k - 2 - 26 < 4 by omega,
      show 28 + (k - 2 - 26) = k by omega]

/-! ## Indirect jumps -/

/-- Execute passes on `x[rs]` as decode read it (R195). -/
theorem exSource_of_loaded {e : ExecuteIn} {s : State} {w : Word} (hv : e.vals = s.loadOperands .primary w) :
    exSource e = .ok (.plain (zext64 (xRs s w))) := by
  rw [exSource, exPrimary, hv]
  rfl

/-- An indirect jump passes its stages, and write-back sets the pc to `x[rs]` as decode read it (R195). -/
theorem passes_jr (rs : RegIdx) (d : DecodeIn) (sD sE sM sW : State) :
    Passes (.jr rs) d sD sE sM sW id (fun t => t.pcSet (xRs sD d.instr)) false := by
  refine passes_of_parts (.plain (zext64 (xRs sD d.instr))) 0 (meaning_quit (.jr rs)) (fun e _ hv => exSource_of_loaded hv)
    (fun _ _ _ _ => rfl) fun w _ hr _ _ => ?_
  simp only [meaning, jumpRegister, hr, ExecuteResult.plain, lowWord_zext64]

/-- The linking indirect jump also carries the pc of its execute stage plus 2 to write-back, which writes it where JALR_LINK_DEST says (R196, R203). -/
theorem passes_jalr (rd rs : RegIdx) (d : DecodeIn) (sD sE sM sW : State) :
    Passes (.jalr rd rs) d sD sE sM sW id
      (fun t => (t.pcSet (xRs sD d.instr)).writeJalrLink rd (mod32 (sE.pc.toNat + 2))) false := by
  refine passes_of_parts ⟨zext64 (xRs sD d.instr), mod32 (sE.pc.toNat + 2)⟩ 0 (meaning_quit (.jalr rd rs)) (fun e _ hv => ?execute)
    (fun _ _ _ _ => rfl) fun w _ hr hlink _ => ?commit
  case execute =>
    simp only [meaning, jumpLinkRegister, exSource_of_loaded hv, State.linkAddress_eq_mod32]
    rfl
  case commit => simp only [meaning, jumpLinkRegister, hr, hlink, lowWord_zext64]

/-- Settles O22, by the passage of each of the two jumps. -/
theorem indirectJumps : Obligations.IndirectJumps := fun d sD sE sM sW =>
  ⟨fun h => ⟨decode_of_isPrimary h (m := .jr) rfl, passes_jr _ d sD sE sM sW⟩,
    fun h => ⟨decode_of_isPrimary h (m := .jalr) rfl, passes_jalr _ _ d sD sE sM sW⟩⟩

/-! ## Conditional branches -/

/-- The predicate a branch carries as its result is nonzero exactly when it holds (R197). -/
theorem zext64_boolWord_ne_zero (b : Bool) : zext64 (boolWord b) ≠ 0 ↔ b = true := by
  cases b <;> decide

/-- A branch passes its stages; write-back sets the pc to the target or changes nothing, as the condition on the registers read in decode says (R197). -/
theorem passes_of_branch {i : Instr} {imm : BitVec 16} {cond : Word → Word → Bool} {wb : State → State} (hm : meaning i = branch i imm cond)
    (hp : i.format = .immediate) (d : DecodeIn) (sD sE sM sW : State)
    (hwb : ∀ t, (if cond (xRs sD d.instr) (xRt sD d.instr) then t.pcSet (branchTarget t.cfg imm) else t) = wb t) :
    Passes i d sD sE sM sW id wb false := by
  refine passes_of_parts (.plain (zext64 (boolWord (cond (xRs sD d.instr) (xRt sD d.instr))))) 0 ?quit ?execute ?access ?commit
  case quit => rw [← meaning_quit, hm]; rfl
  case execute =>
    intro e _ hv
    rw [hp] at hv
    simp only [hm, branch, exImmediate, hv, State.loadOperands]
    rfl
  case access => intros; rw [hm]; rfl
  case commit =>
    intro w _ hr _ _
    simp only [hm, branch, hr, ExecuteResult.plain, zext64_boolWord_ne_zero, hwb]

/-- A row of the opcode table whose meaning is a branch is a branch operation on the meaning's condition. -/
theorem branchOp_of_branch {opcode : BitVec 6} (m : Mnemonic) {cond : Word → Word → Bool} {taken : State → Word → Prop}
    (hrow : tableLookup opcode opcodeTable = some (.mnemonic m)) (hp : m.format = .immediate)
    (hm : ∀ w, meaning (instrOf m w) = branch (instrOf m w) (imm16Of w) cond)
    (htaken : ∀ s w, cond (xRs s w) (xRt s w) = true ↔ taken s w) : BranchOp (IsOpcode opcode) (instrOf m) taken := by
  intro d sD sE sM sW h
  have hformat : (instrOf m d.instr).format = .immediate := by rw [Instr.format, instrOf_mnemonic, hp]
  refine ⟨decode_of_isOpcode h hrow, fun ht => passes_of_branch (hm _) hformat d sD sE sM sW fun t => ?taken,
    fun ht => passes_of_branch (hm _) hformat d sD sE sM sW fun t => if_neg (mt (htaken _ _).1 ht)⟩
  rw [if_pos ((htaken _ _).2 ht)]
  cases hext : t.cfg.branchImmExt with
  | zext => rw [branchTarget_zext hext]
  | sext => rw [branchTarget_sext hext]

/-- Settles O23: the three conditions are equality, inequality and the sign. -/
theorem conditionalBranches : Obligations.ConditionalBranches :=
  ⟨branchOp_of_branch .beq rfl rfl (fun _ => rfl) fun _ _ => decide_eq_true_iff,
    branchOp_of_branch .bne rfl rfl (fun _ => rfl) fun _ _ => decide_eq_true_iff,
    branchOp_of_branch .bltz rfl rfl (fun _ => rfl) fun _ _ => decide_eq_true_iff⟩

/-! ## Absolute jumps -/

/-- An absolute jump passes its stages, and write-back replaces the low 28 bits of the pc as it finds it (R201, R202). -/
theorem passes_j (field : BitVec 26) (d : DecodeIn) (sD sE sM sW : State) :
    Passes (.j field) d sD sE sM sW id (fun t => t.jumpAbsolute field) false :=
  passes_of_parts (.plain 0) 0 (meaning_quit (.j field)) (fun _ _ _ => rfl) (fun _ _ _ _ => rfl) fun _ _ _ _ _ => rfl

/-- The linking absolute jump also carries the pc of its execute stage plus 2 to write-back, which writes it to the link register (R203, R204). -/
theorem passes_jal (field : BitVec 26) (d : DecodeIn) (sD sE sM sW : State) :
    Passes (.jal field) d sD sE sM sW id
      (fun t => (t.jumpAbsolute field).writeReg t.cfg.linkReg (mod32 (sE.pc.toNat + 2))) false := by
  refine passes_of_parts (.plain (zext64 sE.linkAddress)) 0 (meaning_quit (.jal field)) (fun _ _ _ => rfl) (fun _ _ _ _ => rfl)
    fun w _ hr _ _ => ?_
  simp only [meaning, jumpLink, hr, ExecuteResult.plain, lowWord_zext64, State.linkAddress_eq_mod32]

/-- Settles O24: write-back's replacement of the low bits is the target the statement writes. -/
theorem absoluteJumps : Obligations.AbsoluteJumps := by
  intro d sD sE sM sW
  simp only [← jumpAbsolute_eq_pcSet]
  exact ⟨fun h => ⟨decode_of_isOpcode h (m := .j) rfl, passes_j _ d sD sE sM sW⟩,
    fun h => ⟨decode_of_isOpcode h (m := .jal) rfl, passes_jal _ d sD sE sM sW⟩⟩

end Sys2Proof.Machine
end

section
/-!
PROOFS. The statements about exceptions (60_exceptions.md): what each stage raises, that the first error of the pass is the one recorded, and the
normal end of a run.
-/

namespace Sys2Proof.Machine

open Claims

/-! ## The conditions of the errors -/

/-- The opcode table lacks exactly the absent opcodes (R87). -/
theorem opcodeTable_none_iff : ∀ opcode : BitVec 6, tableLookup opcode opcodeTable = none ↔ absentOpcode opcode.toNat := by decide

/-- The opcode table gives the primary format to opcode 0 alone (R83). -/
theorem opcodeTable_primary_iff : ∀ opcode : BitVec 6, tableLookup opcode opcodeTable = some .primary ↔ opcode = 0 := by decide

/-- The function-code table lacks exactly the absent function codes (R87). -/
theorem functTable_none_iff : ∀ funct : BitVec 6, tableLookup funct functTable = none ↔ absentFunct funct.toNat := by decide

/-- A word decodes to an instruction exactly when it is not illegal (R87). -/
theorem illegal_iff_no_decode (w : Word) : Illegal w ↔ ∀ i, decode w ≠ .ok i := by
  rw [Illegal, ← opcodeTable_none_iff, ← opcodeTable_primary_iff, ← functTable_none_iff]
  change classify w = none ∨ (classify w = some .primary ∧ functionMnemonic w = none) ↔ _
  unfold decode
  rcases classify w with _ | _ | m
  · simp
  · rcases functionMnemonic w with _ | m <;> simp
  · simp

/-- The bit patterns `div` tests are the numbers of R226 (a) and (b). -/
theorem signedDivisionUndefined_iff (a b : Word) :
    signedDivisionUndefined a b = true ↔ b.toInt = 0 ∨ (a.toInt = -2 ^ 31 ∧ b.toInt = -1) := by
  have hzero : b = 0 ↔ b.toInt = 0 := BitVec.toInt_inj.symm
  have hleast : a = 0x80000000#32 ↔ a.toInt = -2 ^ 31 := BitVec.toInt_inj.symm
  have hminus : b = 0xFFFFFFFF#32 ↔ b.toInt = -1 := BitVec.toInt_inj.symm
  rw [← hzero, ← hleast, ← hminus]
  simp [signedDivisionUndefined]

theorem undefinedDivision_iff (i : Instr) (a b : Word) : UndefinedDivision i a b ↔
    (∃ rs rt, i = .div rs rt ∧ signedDivisionUndefined a b = true) ∨ ∃ rs rt, i = .divu rs rt ∧ b = 0 := by
  have hzero : b = 0 ↔ b.toNat = 0 := BitVec.toNat_inj.symm
  simp only [UndefinedDivision, signedDivisionUndefined_iff, hzero]

theorem isAccess_iff (i : Instr) : isAccess i = true ↔ (∃ rt imm rs, i = .lw rt imm rs) ∨ ∃ rt imm rs, i = .sw rt imm rs := by
  cases i <;> simp [isAccess]

/-! ## What each stage raises -/

/-- The errors a stage raises on the payload in its latch; write-back raises none (R222, R223, R226). -/
def Raises (s : State) : Stage → Fault → Prop
  | .fetch, x => ∃ f, s.latches.fetch = some f ∧ s.unitSize ≤ s.slotOf f.addr ∧ x = .outOfRange (s.slotOf f.addr)
  | .decode, x => ∃ d, s.latches.decode = some d ∧ Illegal d.instr ∧ x = .unknownEncoding d.addr d.instr
  | .execute, x => ∃ e a b c, s.latches.execute = some e ∧ e.vals = .primary a b c ∧ UndefinedDivision e.insn a b ∧
      x = .undefinedArithmetic e.addr a b
  | .memoryAccess, x => ∃ p, s.latches.memoryAccess = some p ∧ isAccess p.insn = true ∧
      s.unitSize ≤ s.slotOf (lowWord p.result) ∧ x = .outOfRange (s.slotOf (lowWord p.result))
  | .writeBack, _ => False

/-- Two states have the same payload in the latch of a stage. -/
def SameLatch (s t : State) : Stage → Prop
  | .fetch => t.latches.fetch = s.latches.fetch
  | .decode => t.latches.decode = s.latches.decode
  | .execute => t.latches.execute = s.latches.execute
  | .memoryAccess => t.latches.memoryAccess = s.latches.memoryAccess
  | .writeBack => t.latches.writeBack = s.latches.writeBack

theorem sameLatch_of_eq {s t : State} (h : t.latches = s.latches) (st : Stage) : SameLatch s t st := by
  cases st <;> simp only [SameLatch, h]

theorem SameLatch.trans {s t u : State} {st : Stage} (h : SameLatch s t st) (g : SameLatch t u st) : SameLatch s u st := by
  cases st <;> exact Eq.trans g h

/-- A stage that latches its input leaves the latches of the others. -/
theorem sameLatch_of_latchInput {s t : State} {st st' : Stage} (h : t.latches = (s.latchInput st).latches) (hne : st' ≠ st) :
    SameLatch s t st' := by
  cases st <;> cases st' <;> simp [SameLatch, h, State.latchInput] at hne ⊢

/-- The values in the latch of a stage whose work depends on their format have the format of the instruction (R117). -/
def OperandsFit (s : State) : Stage → Prop
  | .execute => ∀ e ∈ s.latches.execute, e.vals.format = e.insn.format
  | .memoryAccess => ∀ p ∈ s.latches.memoryAccess, p.vals.format = p.insn.format
  | _ => True

theorem operandsFit_of_classified {s : State} (h : s.LatchesClassified) (st : Stage) : OperandsFit s st := by
  obtain ⟨he, hp, -⟩ := h
  cases st with
  | execute => exact fun e hm => (he e hm).2
  | memoryAccess => exact fun p hm => (hp p hm).2
  | fetch | decode | writeBack => trivial

theorem OperandsFit.of_sameLatch {s t : State} {st : Stage} (h : OperandsFit s st) (g : SameLatch s t st) : OperandsFit t st := by
  cases st with
  | execute => exact fun e he => h e (g ▸ he)
  | memoryAccess => exact fun p hp => h p (g ▸ hp)
  | fetch | decode | writeBack => trivial

/-- What a stage raises when it produces is one of its errors. -/
theorem raises_of_produce_fault {s : State} {st : Stage} {x : Fault} (hc : OperandsFit s st) (h : produce st s = .fault x) :
    Raises s st x := by
  cases st with
  | fetch => exact produceFetch_fault h
  | decode =>
    obtain ⟨d, hd, hi, rfl⟩ := produceDecode_fault h
    exact ⟨d, hd, (illegal_iff_no_decode _).2 hi, rfl⟩
  | execute =>
    obtain ⟨e, a, b, c, he, hv, rfl, hu⟩ := produceExecute_fault hc h
    exact ⟨e, a, b, c, he, hv, (undefinedDivision_iff _ _ _).2 hu, rfl⟩
  | memoryAccess =>
    obtain ⟨p, hp, hi, hr, rfl⟩ := produceMemoryAccess_fault hc h
    exact ⟨p, hp, (isAccess_iff _).2 hi, hr, rfl⟩
  | writeBack => exact absurd h (produceWriteBack_no_fault s x)

theorem produce_execute {s : State} {e : ExecuteIn} (he : s.latches.execute = some e) :
    produce .execute s = exec e.insn (s.executing e) := by
  rw [← inPhase_executing he, produce, produceExecute, he]

theorem produce_memoryAccess {s : State} {p : MemoryIn} (hp : s.latches.memoryAccess = some p) :
    produce .memoryAccess s = exec p.insn (s.accessing p) := by
  rw [← inPhase_accessing hp, produce, produceMemoryAccess, hp]

/-- An undefined division raises the error in execute (R226). -/
theorem produceExecute_of_raises {s : State} {x : Fault} (h : Raises s .execute x) : produce .execute s = .fault x := by
  obtain ⟨e, a, b, c, he, hv, hu, rfl⟩ := h
  rw [produce_execute he, exec_executing]
  rcases (undefinedDivision_iff _ _ _).1 hu with ⟨rs, rt, hi, hu⟩ | ⟨rs, rt, hi, rfl⟩
  · simp [hi, meaning, accProducer, exPrimary, hv, hu]
  · simp [hi, meaning, accProducer, exPrimary, hv]

/-- A `lw` or `sw` out of range raises the error in memory-access, where its values are of the immediate format (R222). -/
theorem produceMemoryAccess_of_raises {s : State} {x : Fault} (hc : OperandsFit s .memoryAccess) (h : Raises s .memoryAccess x) :
    produce .memoryAccess s = .fault x := by
  obtain ⟨p, hp, hi, hr, rfl⟩ := h
  have hf := hc p hp
  have hr' : (s.accessing p).unitSize ≤ (s.accessing p).slotOf (lowWord p.result) := hr
  rw [produce_memoryAccess hp, exec_accessing]
  rcases (isAccess_iff _).1 hi with ⟨rt, imm, rs, hi⟩ | ⟨rt, imm, rs, hi⟩
  · simp only [hi, meaning, loadWord, memLoad, memRead_of_ge hr']
    rfl
  · rcases hv : p.vals with _ | ⟨a, b⟩ | _ <;> rw [hi, hv] at hf
    · cases hf
    · simp only [hi, meaning, storeWord, memStore, hv, memWrite_of_ge _ hr']
      rfl
    · cases hf

/-- A stage raises exactly its errors (R222, R223, R226). -/
theorem produce_fault_iff {s : State} {st : Stage} (hc : OperandsFit s st) (x : Fault) : produce st s = .fault x ↔ Raises s st x := by
  refine ⟨raises_of_produce_fault hc, fun h => ?_⟩
  cases st with
  | fetch =>
    obtain ⟨f, hf, hr, rfl⟩ := h
    simp only [produce, produceFetch, hf, memRead_of_ge hr]
  | decode =>
    obtain ⟨d, hd, hi, rfl⟩ := h
    simp only [produce, produceDecode, hd]
    split
    · rfl
    next i hdec => exact absurd hdec ((illegal_iff_no_decode _).1 hi i)
  | execute => exact produceExecute_of_raises h
  | memoryAccess => exact produceMemoryAccess_of_raises hc h
  | writeBack => exact h.elim

/-- A stage has at most one error to raise. -/
theorem Raises.unique {s : State} {st : Stage} {x y : Fault} (h : Raises s st x) (hc : OperandsFit s st) (g : Raises s st y) : x = y := by
  rw [← produce_fault_iff hc] at h g
  exact Host.Outcome.fault.inj (h.symm.trans g)

theorem FetchTurn.not_raises {s t : State} (h : FetchTurn s t) (x : Fault) : ¬ Raises s .fetch x := by
  rintro ⟨f, hf, hr, -⟩
  exact absurd (of_decide_eq_true (h.inRange f hf)) (not_lt.2 hr)

theorem DecodeTurn.not_raises {s t : State} (h : DecodeTurn s t) (x : Fault) : ¬ Raises s .decode x := by
  rintro ⟨d, hd, hi, -⟩
  obtain ⟨o, -, ho, hdec⟩ := h.outs
  obtain ⟨e, rfl, rfl⟩ := Option.map_eq_some_iff.1 (ho.trans hd)
  exact (illegal_iff_no_decode _).1 hi e.insn (hdec e rfl).1

/-! ## The first error of a cycle -/

/-- Two states in which a stage raises the same: they agree in the configuration, the sparse map and the latch of the stage. -/
structure SameForErrors (s t : State) (st : Stage) : Prop where
  cfg : t.cfg = s.cfg
  slots : t.slots = s.slots
  latch : SameLatch s t st

theorem SameForErrors.raises_iff {s t : State} {st : Stage} (h : SameForErrors s t st) (x : Fault) : Raises t st x ↔ Raises s st x := by
  have hunit := unitSize_of_eq h.cfg
  have hslot := slotOf_of_eq h.cfg h.slots
  have hlatch := h.latch
  cases st <;> simp only [SameLatch] at hlatch <;> simp only [Raises, hlatch, hunit, hslot]

theorem fetchTouched_latches (s : State) : (fetchTouched s).latches = s.latches := by
  unfold fetchTouched
  split <;> simp

theorem fetchTouched_cfg (s : State) : (fetchTouched s).cfg = s.cfg := by
  unfold fetchTouched
  split <;> simp

/-- The map after an access depends on the configuration and the map before. -/
theorem touch_slots_of_eq {s t : State} (hc : t.cfg = s.cfg) (hs : t.slots = s.slots) (a : Word) : (t.touch a).slots = (s.touch a).slots := by
  unfold State.touch
  rw [hc, hs]
  repeat' split
  all_goals simp [hs]

/-- The state a stage finds in a cycle that starts in `s`, as far as its errors depend on it: behind fetch, a sparse map has the fetched
address (R53). -/
def foundBy (s : State) : Stage → State
  | .fetch => s
  | _ => fetchTouched s

theorem foundBy_latches (s : State) (st : Stage) : (foundBy s st).latches = s.latches := by
  cases st with
  | fetch => rfl
  | decode | execute | memoryAccess | writeBack => exact fetchTouched_latches s

theorem Stage.index_injective : Function.Injective Stage.index := by
  intro st st' h
  cases st <;> cases st' <;> simp [Stage.index] at h ⊢

theorem Stage.index_lt (st : Stage) : st.index < 5 := by
  cases st <;> decide

/-- No stage before the one with index `n` raises an error in a cycle that starts in `s`. -/
def NoErrorBefore (s : State) (n : Nat) : Prop := ∀ st, st.index < n → ∀ x, ¬ Raises (foundBy s st) st x

theorem noErrorBefore_zero (s : State) : NoErrorBefore s 0 := fun _ h => absurd h (Nat.not_lt_zero _)

theorem NoErrorBefore.succ {s : State} {st : Stage} (h : NoErrorBefore s st.index) (hst : ∀ x, ¬ Raises (foundBy s st) st x) :
    NoErrorBefore s (st.index + 1) := by
  intro st' hlt
  rcases Nat.lt_succ_iff_lt_or_eq.1 hlt with hlt | heq
  · exact h st' hlt
  · obtain rfl := Stage.index_injective heq
    exact hst

theorem operandsFit_foundBy {s : State} (hc : s.LatchesClassified) (st : Stage) : OperandsFit (foundBy s st) st :=
  (operandsFit_of_classified hc st).of_sameLatch (sameLatch_of_eq (foundBy_latches s st) st)

/-- In a state that agrees with the one a stage finds, the stage raises the errors of the cycle. -/
theorem SameForErrors.produce_fault_iff {s m : State} {st : Stage} (h : SameForErrors (foundBy s st) m st) (hc : s.LatchesClassified)
    (x : Fault) : produce st m = .fault x ↔ Raises (foundBy s st) st x := by
  rw [Machine.produce_fault_iff ((operandsFit_foundBy hc st).of_sameLatch h.latch), h.raises_iff]

/-- Decode finds what fetch leaves, and so does every stage behind it whose own turn is still to come. -/
theorem FetchTurn.sameForErrors {s t : State} {st : Stage} (h : FetchTurn (passStart s) t) (hne : st ≠ .fetch) :
    SameForErrors (fetchTouched s) t st := by
  obtain ⟨hcfg, -, -, -, -, hslots, hlatches, -⟩ := passStart_fields s
  refine ⟨h.cfg.trans (hcfg.trans (fetchTouched_cfg s).symm), ?map, ?latch⟩
  case map =>
    rw [h.slots, hlatches, fetchTouched]
    cases s.latches.fetch with
    | none => exact hslots
    | some f => exact touch_slots_of_eq hcfg hslots f.addr
  case latch =>
    exact (sameLatch_of_eq (hlatches.trans (fetchTouched_latches s).symm) st).trans (sameLatch_of_latchInput (st := .fetch) h.latches hne)

theorem DecodeTurn.sameForErrors {s t u : State} {st : Stage} (h : DecodeTurn t u) (hne : st ≠ .decode) (g : SameForErrors s t st) :
    SameForErrors s u st :=
  ⟨h.cfg.trans g.cfg, h.slots.trans g.slots, g.latch.trans (sameLatch_of_latchInput (st := .decode) h.latches hne)⟩

theorem ExecuteTurn.sameForErrors {s t u : State} {st : Stage} (h : ExecuteTurn t u) (hne : st ≠ .execute) (g : SameForErrors s t st) :
    SameForErrors s u st :=
  ⟨h.cfg.trans g.cfg, h.slots.trans g.slots, g.latch.trans (sameLatch_of_latchInput (st := .execute) h.latches hne)⟩

theorem finishCycle_takeFatalError (s : State) (st : Stage) (x : Fault) :
    (finishCycle 0 (s.takeFatalError st x)).error = some ⟨x, st⟩ ∧ (finishCycle 0 (s.takeFatalError st x)).halted = true :=
  ⟨finishCycle_error _ _, by rw [finishCycle_halted]; rfl⟩

/-- The error of a cycle is the first of the pass, in the order of the stages; if no stage raises one there is none (R228). -/
theorem cycle_first_error {s t : State} (hl : s.LatencyOk) (hc : s.LatchesClassified) (hh : s.halted = false) (he : s.error = none)
    (hs : step s = .next t) :
    (∃ st x, NoErrorBefore s st.index ∧ Raises (foundBy s st) st x ∧ t.error = some ⟨x, st⟩ ∧ t.halted = true) ∨
    (NoErrorBefore s 5 ∧ t.error = none) := by
  obtain ⟨hcfg, -, -, -, -, hslots, hlatches, -, herror, -⟩ := passStart_fields s
  have v0 : SameForErrors (foundBy s .fetch) (passStart s) .fetch := ⟨hcfg, hslots, sameLatch_of_eq hlatches _⟩
  rcases cycle_cases hl hh hs with ⟨x, hx, rfl⟩ | ⟨s1, f1, hrest⟩
  · exact .inl ⟨.fetch, x, noErrorBefore_zero s, (v0.produce_fault_iff hc x).1 hx, finishCycle_takeFatalError _ _ _⟩
  have n1 := (noErrorBefore_zero s).succ (st := .fetch) fun x => mt (v0.raises_iff x).2 (f1.not_raises x)
  have v1 : SameForErrors (foundBy s .decode) s1 .decode := f1.sameForErrors (by decide)
  rcases hrest with ⟨x, hx, rfl⟩ | ⟨s2, f2, hrest⟩
  · exact .inl ⟨.decode, x, n1, (v1.produce_fault_iff hc x).1 hx, finishCycle_takeFatalError _ _ _⟩
  have n2 := n1.succ (st := .decode) fun x => mt (v1.raises_iff x).2 (f2.not_raises x)
  have v2 : SameForErrors (foundBy s .execute) s2 .execute := f2.sameForErrors (by decide) (f1.sameForErrors (by decide))
  rcases hrest with ⟨x, hx, rfl⟩ | ⟨s3, f3, hne, hrest⟩
  · exact .inl ⟨.execute, x, n2, (v2.produce_fault_iff hc x).1 hx, finishCycle_takeFatalError _ _ _⟩
  have n3 := n2.succ (st := .execute) fun x => mt (v2.produce_fault_iff hc x).2 (hne x)
  have v3 : SameForErrors (foundBy s .memoryAccess) s3 .memoryAccess :=
    f3.sameForErrors (by decide) (f2.sameForErrors (by decide) (f1.sameForErrors (by decide)))
  rcases hrest with ⟨x, hx, rfl⟩ | ⟨s4, s5, f4, hne, f5, rfl, -⟩
  · exact .inl ⟨.memoryAccess, x, n3, (v3.produce_fault_iff hc x).1 hx, finishCycle_takeFatalError _ _ _⟩
  have n4 := n3.succ (st := .memoryAccess) fun x => mt (v3.produce_fault_iff hc x).2 (hne x)
  refine .inr ⟨n4.succ (st := .writeBack) fun _ => id, ?_⟩
  rw [finishCycle_error, f5.error, f4.error, f3.error, f2.error, f1.error, herror, he]

/-- An error of a stage is recorded if no stage before it raises one, whatever the stages behind it hold (R228). -/
theorem first_error_recorded {s t : State} (hl : s.LatencyOk) (hc : s.LatchesClassified) (hh : s.halted = false) (he : s.error = none)
    (hs : step s = .next t) {st : Stage} {x : Fault} (hb : NoErrorBefore s st.index) (hx : Raises (foundBy s st) st x) :
    t.error = some ⟨x, st⟩ ∧ t.halted = true := by
  rcases cycle_first_error hl hc hh he hs with ⟨st', x', hb', hx', ht⟩ | ⟨hb', -⟩
  · rcases lt_trichotomy st.index st'.index with hlt | heq | hgt
    · exact absurd hx (hb' st hlt x)
    · obtain rfl := Stage.index_injective heq
      exact hx.unique (operandsFit_foundBy hc st) hx' ▸ ht
    · exact absurd hx' (hb st' hgt x')
  · exact absurd hx (hb' st st.index_lt x)

/-- A cycle in which no stage raises an error records none. -/
theorem no_error_recorded {s t : State} (hl : s.LatencyOk) (hc : s.LatchesClassified) (hh : s.halted = false) (he : s.error = none)
    (hs : step s = .next t) (hb : NoErrorBefore s Stage.writeBack.index) : t.error = none := by
  rcases cycle_first_error hl hc hh he hs with ⟨st, x, -, hx, -⟩ | ⟨-, ht⟩
  · exact absurd hx (hb.succ (st := .writeBack) (fun _ => id) st st.index_lt x)
  · exact ht

/-! ## The normal end -/

/-- Write-back's output carries a true termination flag exactly for a `syscall` (R120 (g)). -/
theorem WriteBackTurn.quitFlag_iff {s t : State} (h : WriteBackTurn s t) :
    t.quitFlag = true ↔ ∃ w, s.latches.writeBack = some w ∧ w.insn = .syscall := by
  rw [State.quitFlag, h.outs]
  cases s.latches.writeBack <;> simp

/-- Settles O55: the flag of the cycle is that of the instruction in write-back, whose latch the stages before it leave alone. -/
theorem runEndsExactlyOnSystemCall : Obligations.RunEndsExactlyOnSystemCall := by
  rintro s t hl ⟨hh, hs, he⟩
  obtain ⟨s1, s2, s3, s4, s5, f1, f2, f3, f4, f5, rfl, h5⟩ := clean_cycle hl hh hs he
  have hm := f1.sameForCommit.trans (f2.sameForCommit.trans (f3.sameForCommit.trans f4.sameForCommit))
  obtain ⟨-, -, -, -, -, -, hlatches, -⟩ := passStart_fields s
  rw [finishCycle_halted, h5, Bool.false_or, f5.quitFlag_iff, hm.writeBack, hlatches]

/-! ## The order of detection -/

/-- Decode's error in a cycle, by the word in its latch at the start of the cycle. -/
theorem raises_foundBy_decode (s : State) (x : Fault) : Raises (foundBy s .decode) .decode x ↔
    ∃ d, s.latches.decode = some d ∧ Illegal d.instr ∧ x = .unknownEncoding d.addr d.instr := by
  simp only [Raises, foundBy_latches]

theorem raises_foundBy_execute (s : State) (x : Fault) : Raises (foundBy s .execute) .execute x ↔
    ∃ e a b c, s.latches.execute = some e ∧ e.vals = .primary a b c ∧ UndefinedDivision e.insn a b ∧
      x = .undefinedArithmetic e.addr a b := by
  simp only [Raises, foundBy_latches]

theorem raises_foundBy_memoryAccess (s : State) (x : Fault) : Raises (foundBy s .memoryAccess) .memoryAccess x ↔
    ∃ p, s.latches.memoryAccess = some p ∧ isAccess p.insn = true ∧ s.unitSize ≤ (fetchTouched s).slotOf (lowWord p.result) ∧
      x = .outOfRange ((fetchTouched s).slotOf (lowWord p.result)) := by
  change Raises (fetchTouched s) .memoryAccess x ↔ _
  simp only [Raises, fetchTouched_latches, unitSize_of_eq (fetchTouched_cfg s)]

theorem noErrorBefore_decode {s : State} (hf : FetchFits s) : NoErrorBefore s Stage.decode.index :=
  (noErrorBefore_zero s).succ (st := .fetch) fun _ ⟨f, hl, hr, _⟩ => absurd (hf f hl) (not_lt.2 hr)

theorem noErrorBefore_execute {s : State} (hf : FetchFits s) (hd : DecodeFits s) : NoErrorBefore s Stage.execute.index := by
  refine (noErrorBefore_decode hf).succ (st := .decode) fun x hx => ?_
  obtain ⟨d, hl, hi, -⟩ := (raises_foundBy_decode s x).1 hx
  exact hd d hl hi

theorem noErrorBefore_memoryAccess {s : State} (hf : FetchFits s) (hd : DecodeFits s) (he : ExecuteFits s) :
    NoErrorBefore s Stage.memoryAccess.index := by
  refine (noErrorBefore_execute hf hd).succ (st := .execute) fun x hx => ?_
  obtain ⟨e, a, b, c, hl, hv, hu, -⟩ := (raises_foundBy_execute s x).1 hx
  exact he e a b c hl hv hu

theorem noErrorBefore_writeBack {s : State} (hf : FetchFits s) (hd : DecodeFits s) (he : ExecuteFits s) (ha : AccessFits s) :
    NoErrorBefore s Stage.writeBack.index := by
  refine (noErrorBefore_memoryAccess hf hd he).succ (st := .memoryAccess) fun x hx => ?_
  obtain ⟨p, hl, hi, hr, -⟩ := (raises_foundBy_memoryAccess s x).1 hx
  exact absurd (ha p hl hi) (not_lt.2 hr)

/-- Settles O57: the error recorded is the first of the pass, and where the four stages that can raise one raise none, the cycle ends as O55 says. -/
theorem youngestErrorWins : Obligations.YoungestErrorWins := by
  intro s t hl hc hh hn hs
  have recorded {st : Stage} {x : Fault} := first_error_recorded hl hc hh hn hs (st := st) (x := x)
  refine ⟨fun f hlatch hr => ?fetch, fun d hf hlatch hi => ?decode, fun e a b c hf hd hlatch hv hu => ?execute,
    fun p hf hd he hlatch hi hr => ?memoryAccess, fun hf hd he ha => ?none⟩
  case fetch => exact recorded (noErrorBefore_zero s) ⟨f, hlatch, hr, rfl⟩
  case decode => exact recorded (noErrorBefore_decode hf) ((raises_foundBy_decode s _).2 ⟨d, hlatch, hi, rfl⟩)
  case execute => exact recorded (noErrorBefore_execute hf hd) ((raises_foundBy_execute s _).2 ⟨e, a, b, c, hlatch, hv, hu, rfl⟩)
  case memoryAccess =>
    exact recorded (noErrorBefore_memoryAccess hf hd he) ((raises_foundBy_memoryAccess s _).2 ⟨p, hlatch, hi, hr, rfl⟩)
  case none =>
    have herr : t.error = none := no_error_recorded hl hc hh hn hs (noErrorBefore_writeBack hf hd he ha)
    exact ⟨herr, runEndsExactlyOnSystemCall s t hl ⟨hh, hs, herr⟩⟩

/-! ## The error without a case -/

theorem not_raises_unimplemented {s : State} {st : Stage} {a w : Word} : ¬ Raises s st (.unimplementedOperation a w) := by
  cases st <;> simp [Raises]

theorem produceAccept_latches {st : Stage} {s t : State} (h : produceAccept st s = .next t) : t.latches = (s.latchInput st).latches := by
  cases st with
  | fetch => exact (produceAccept_fetch h).latches
  | decode => exact (produceAccept_decode h).latches
  | execute => exact (produceAccept_execute h).latches
  | memoryAccess => exact (produceAccept_memoryAccess h).latches
  | writeBack => exact (produceAccept_writeBack h).latches

theorem produceAccept_keeps {st : Stage} {s t : State} (h : produceAccept st s = .next t) : StageKeeps s t := by
  cases st with
  | fetch => exact (produceAccept_fetch h).toStageKeeps
  | decode => exact (produceAccept_decode h).toStageKeeps
  | execute => exact (produceAccept_execute h).toStageKeeps
  | memoryAccess => exact (produceAccept_memoryAccess h).toStageKeeps
  | writeBack => exact (produceAccept_writeBack h).toStageKeeps

/-- An error of a turn is the contract violation of `accept` or one of producing (R114, R115). -/
theorem produceAccept_fault_cases {st : Stage} {s : State} {x : Fault} (h : produceAccept st s = .fault x) :
    x = .stageContractViolation st ∨ produce st s = .fault x := by
  unfold produceAccept andThen at h
  split at h
  next v _ =>
    change (v.spend st).accept st = _ at h
    unfold State.accept at h
    split at h <;> cases h
    exact .inl rfl
  next f hf =>
    cases h
    exact .inr hf
  next => cases h

/-- A turn leaves the latches of the other stages, whether it ends in an error or not. -/
theorem turn_sameLatch {first : Nat} {st st' : Stage} {s t : State} (h : turn first st s = .next t) (hne : st' ≠ st) : SameLatch s t st' := by
  obtain ⟨u, hu, hc⟩ := turn_cases first st s
  obtain rfl : t = u := by simpa [h] using hu
  rcases hc with ⟨-, rfl⟩ | ⟨-, -, hp⟩ | ⟨-, -, f, -, rfl⟩
  · exact sameLatch_of_eq rfl _
  · exact sameLatch_of_latchInput (produceAccept_latches hp) hne
  · exact sameLatch_of_eq rfl _

/-- No turn of a stage with operands of the right format records an UnimplementedOperation (R224). -/
theorem turn_unimplemented {first : Nat} {st st' : Stage} {s t : State} {a w : Word} (hc : OperandsFit s st)
    (h : turn first st s = .next t) (he : t.error = some ⟨.unimplementedOperation a w, st'⟩) :
    s.error = some ⟨.unimplementedOperation a w, st'⟩ := by
  obtain ⟨u, hu, hcases⟩ := turn_cases first st s
  obtain rfl : t = u := by simpa [h] using hu
  rcases hcases with ⟨-, rfl⟩ | ⟨-, -, hp⟩ | ⟨-, -, f, hf, rfl⟩
  · exact he
  · exact (produceAccept_keeps hp).error ▸ he
  · cases he
    rcases produceAccept_fault_cases hf with hf | hf
    · cases hf
    · exact absurd ((produce_fault_iff hc _).1 hf) not_raises_unimplemented

/-- Settles O44: execute and memory-access, whose errors depend on the format of their operands, find the latches the cycle started with. -/
theorem unimplementedOperationUnreachable : Obligations.UnimplementedOperationUnreachable := by
  intro s t a w st hc hh hn hs herr
  obtain ⟨s1, s2, s3, s4, s5, h1, h2, h3, h4, h5, rfl⟩ := step_chain hh hs
  obtain ⟨-, -, -, -, -, -, hlatches, -, herror, -⟩ := passStart_fields s
  have behindDecode {st : Stage} (hfetch : st ≠ .fetch) (hdecode : st ≠ .decode) : OperandsFit s2 st :=
    (operandsFit_of_classified hc st).of_sameLatch
      ((sameLatch_of_eq hlatches st).trans ((turn_sameLatch h1 hfetch).trans (turn_sameLatch h2 hdecode)))
  have hexecute : OperandsFit s2 .execute := behindDecode (by decide) (by decide)
  have haccess : OperandsFit s3 .memoryAccess := (behindDecode (by decide) (by decide)).of_sameLatch (turn_sameLatch h3 (by decide))
  rw [finishCycle_error] at herr
  have herr4 := turn_unimplemented (st := .writeBack) trivial h5 herr
  have herr2 := turn_unimplemented hexecute h3 (turn_unimplemented haccess h4 herr4)
  have herr1 := turn_unimplemented (st := .decode) trivial h2 herr2
  have herr0 := turn_unimplemented (st := .fetch) trivial h1 herr1
  rw [herror, hn] at herr0
  cases herr0

end Sys2Proof.Machine
end

section
/-!
PROOFS. The statement about the host's set-up (70_reset_and_hazards.md): the standard load as a block of the loaded image stored at address 0,
followed by writes to registers.
-/

namespace Sys2Proof.Machine

open Claims

/-! ## The loaded image -/

theorem isSyscallWord_iff (w : Word) : isSyscallWord w = true ↔ IsPrimary 0x0C w := by
  simp [isSyscallWord]

theorem loadedImage_of_endsInSyscall {image : List Word} (h : EndsInSyscall image) : loadedImage image = image := by
  obtain ⟨w, hlast, hw⟩ := h
  simp only [loadedImage, hlast, if_pos ((isSyscallWord_iff w).2 hw)]

theorem loadedImage_of_not_endsInSyscall {image : List Word} (h : ¬ EndsInSyscall image) :
    loadedImage image = image ++ [0x0000000C#32] := by
  unfold loadedImage
  split
  next w hlast => exact if_neg fun hw => h ⟨w, hlast, (isSyscallWord_iff w).1 hw⟩
  next hlast => simp [List.getLast?_eq_none_iff.1 hlast]

/-- What is appended lies behind the image, so the image's own words keep their places. -/
theorem getD_loadedImage {image : List Word} {k : Nat} (h : k < image.length) : (loadedImage image).getD k 0 = image.getD k 0 := by
  by_cases hends : EndsInSyscall image
  · rw [loadedImage_of_endsInSyscall hends]
  · rw [loadedImage_of_not_endsInSyscall hends, List.getD_append _ _ _ _ h]

/-- The word behind an image without a terminating `syscall` word (R251 step 3). -/
theorem getD_loadedImage_length {image : List Word} (h : ¬ EndsInSyscall image) :
    (loadedImage image).getD image.length 0 = 0x0000000C := by
  rw [loadedImage_of_not_endsInSyscall h, List.getD_append_right _ _ _ _ le_rfl]
  simp

theorem length_loadedImage_of_not_endsInSyscall {image : List Word} (h : ¬ EndsInSyscall image) :
    (loadedImage image).length = image.length + 1 := by
  rw [loadedImage_of_not_endsInSyscall h, List.length_append, List.length_singleton]

theorem length_le_loadedImage (image : List Word) : image.length ≤ (loadedImage image).length := by
  by_cases hends : EndsInSyscall image
  · rw [loadedImage_of_endsInSyscall hends]
  · rw [length_loadedImage_of_not_endsInSyscall hends]
    exact Nat.le_succ _

theorem loadedImage_ne_nil (image : List Word) : loadedImage image ≠ [] := by
  by_cases hends : EndsInSyscall image
  · rw [loadedImage_of_endsInSyscall hends]
    rintro rfl
    obtain ⟨w, hlast, -⟩ := hends
    cases hlast
  · rw [loadedImage_of_not_endsInSyscall hends]
    exact List.append_ne_nil_of_right_ne_nil _ (List.cons_ne_nil _ _)

/-! ## Preset registers -/

theorem presetRegs_cons_zero (s : State) (v : Word) (rest : List (RegIdx × Word)) :
    s.presetRegs ((0, v) :: rest) = s.presetRegs rest := rfl

theorem presetRegs_cons_of_ne {s : State} {r : RegIdx} (h : r ≠ 0) (v : Word) (rest : List (RegIdx × Word)) :
    s.presetRegs ((r, v) :: rest) = (s.writeReg r v).presetRegs rest := by
  rw [State.presetRegs, if_neg h]

/-- Presetting changes the register file and nothing else. -/
theorem presetRegs_eq (regs : List (RegIdx × Word)) (s : State) :
    s.presetRegs regs = { s with regs := (s.presetRegs regs).regs } := by
  induction regs generalizing s with
  | nil => rfl
  | cons preset rest ih =>
    obtain ⟨r, v⟩ := preset
    by_cases hr : r = 0
    · rw [hr, presetRegs_cons_zero]
      exact ih s
    · rw [presetRegs_cons_of_ne hr]
      exact ih (s.writeReg r v)

@[simp] theorem presetRegs_cfg (s : State) (regs : List (RegIdx × Word)) : (s.presetRegs regs).cfg = s.cfg := by
  rw [presetRegs_eq]

@[simp] theorem presetRegs_pc (s : State) (regs : List (RegIdx × Word)) : (s.presetRegs regs).pc = s.pc := by
  rw [presetRegs_eq]

@[simp] theorem wordAt_presetRegs (s : State) (regs : List (RegIdx × Word)) (a : Word) : (s.presetRegs regs).wordAt a = s.wordAt a := by
  rw [presetRegs_eq]
  rfl

/-- Register 0, and a register without a preset, is left alone. -/
theorem readReg_presetRegs_of_unset {regs : List (RegIdx × Word)} {r : RegIdx} (h : r = 0 ∨ ∀ v, (r, v) ∉ regs) (s : State) :
    (s.presetRegs regs).readReg r = s.readReg r := by
  induction regs generalizing s with
  | nil => rfl
  | cons preset rest ih =>
    obtain ⟨k, w⟩ := preset
    have hrest : r = 0 ∨ ∀ v, (r, v) ∉ rest := h.imp_right fun hall v hv => hall v (List.mem_cons_of_mem _ hv)
    by_cases hk : k = 0
    · rw [hk, presetRegs_cons_zero, ih hrest]
    · have hne : r ≠ k := by
        rintro rfl
        exact h.elim hk fun hall => hall w List.mem_cons_self
      rw [presetRegs_cons_of_ne hk, ih hrest, readReg_writeReg_ne w hne]

/-- A register all of whose presets agree reads what they say, whichever is the last. -/
theorem readReg_presetRegs_of_set {regs : List (RegIdx × Word)} {r : RegIdx} {v : Word} (hr : r ≠ 0) (hmem : (r, v) ∈ regs)
    (hall : ∀ v', (r, v') ∈ regs → v' = v) (s : State) : (s.presetRegs regs).readReg r = v := by
  induction regs generalizing s with
  | nil => cases hmem
  | cons preset rest ih =>
    by_cases hrest : (r, v) ∈ rest
    · exact ih hrest (fun v' hv' => hall v' (List.mem_cons_of_mem _ hv')) _
    · obtain rfl : (r, v) = preset := (List.mem_cons.1 hmem).resolve_right hrest
      have hunset : ∀ v', (r, v') ∉ rest := fun v' hv' => hrest (hall v' (List.mem_cons_of_mem _ hv') ▸ hv')
      rw [presetRegs_cons_of_ne hr, readReg_presetRegs_of_unset (.inr hunset), readReg_writeReg_same v fun hz => hr hz.2]

/-! ## A block at address 0 -/

/-- A stored block changes main memory only (R54). -/
theorem storeBlock_fields {s : State} (hm : s.MemoryOk) (a : Word) (ws : List Word) :
    (s.storeBlock a ws).1.cfg = s.cfg ∧ (s.storeBlock a ws).1.regs = s.regs ∧ (s.storeBlock a ws).1.pc = s.pc := by
  obtain ⟨-, haccess⟩ := storeRun_keeps ws s a.toNat hm
  rw [State.storeBlock, haccess]
  exact ⟨rfl, rfl, rfl⟩

/-- How a block stored at address 0 ends: without error if it fits, else at the address that is the size (R54). -/
theorem storeBlock_zero_error {s : State} {ws : List Word} (hk : s.cfg.memKind = .flat) (hz : s.cfg.memSize ≤ 2 ^ 32) (hne : ws ≠ []) :
    (s.storeBlock 0 ws).2 = if ws.length ≤ s.cfg.memSize then none else some (.outOfRange s.cfg.memSize) := by
  have h := storeRun_error ws s 0 hk hz
  rw [Nat.zero_add, Nat.zero_max] at h
  exact h.trans (if_congr (or_iff_right hne) rfl rfl)

/-- A block that fits at address 0 is what memory holds below its length. -/
theorem wordAt_storeBlock_zero {s : State} {ws : List Word} (hk : s.cfg.memKind = .flat) (hz : s.cfg.memSize ≤ 2 ^ 32) (hm : s.MemoryOk)
    (hfits : ws.length ≤ s.cfg.memSize) (b : Word) :
    (s.storeBlock 0 ws).1.wordAt b = if b.toNat < ws.length then ws.getD b.toNat 0 else s.wordAt b := by
  have h := wordAt_storeRun ws s 0 hk hz hm b
  rw [Nat.sub_zero] at h
  exact h.trans (if_congr (by omega) rfl rfl)

/-! ## The standard load -/

/-- The load ends as storing the loaded image ends. -/
theorem standardLoad_error {s : State} (hk : s.cfg.memKind = .flat) (hz : s.cfg.memSize ≤ 2 ^ 32) (image : List Word)
    (regs : List (RegIdx × Word)) :
    (s.standardLoad image regs).2 = if (loadedImage image).length ≤ s.cfg.memSize then none else some (.outOfRange s.cfg.memSize) :=
  storeBlock_zero_error hk hz (loadedImage_ne_nil image)

theorem standardLoad_pc {s : State} (hm : s.MemoryOk) (image : List Word) (regs : List (RegIdx × Word)) :
    (s.standardLoad image regs).1.pc = s.pc := by
  obtain ⟨-, -, hpc⟩ := storeBlock_fields hm 0 (loadedImage image)
  rw [State.standardLoad, presetRegs_pc, presetRegs_pc, hpc]

/-- A loaded image that fits is what memory holds below its length; presets leave memory alone. -/
theorem wordAt_standardLoad {s : State} {image : List Word} (hk : s.cfg.memKind = .flat) (hz : s.cfg.memSize ≤ 2 ^ 32) (hm : s.MemoryOk)
    (hfits : (loadedImage image).length ≤ s.cfg.memSize) (regs : List (RegIdx × Word)) (b : Word) :
    (s.standardLoad image regs).1.wordAt b =
      if b.toNat < (loadedImage image).length then (loadedImage image).getD b.toNat 0 else s.wordAt b := by
  rw [State.standardLoad, wordAt_presetRegs, wordAt_presetRegs, wordAt_storeBlock_zero hk hz hm hfits]

/-- The return-address register holds the address of the last word loaded, whatever the host presets (R251, D12). -/
theorem readReg_standardLoad_linkReg {s : State} (h : s.cfg.linkReg ≠ 0) (image : List Word) (regs : List (RegIdx × Word)) :
    (s.standardLoad image regs).1.readReg s.cfg.linkReg = BitVec.ofNat 32 ((loadedImage image).length - 1) :=
  readReg_presetRegs_of_set h List.mem_cons_self (by simp) _

/-- Every other register holds what the host's presets alone make of it. -/
theorem readReg_standardLoad_of_ne {s : State} {r : RegIdx} (h : r ≠ s.cfg.linkReg) (image : List Word)
    (regs : List (RegIdx × Word)) :
    (s.standardLoad image regs).1.readReg r = ((s.storeBlock 0 (loadedImage image)).1.presetRegs regs).readReg r :=
  readReg_presetRegs_of_unset (.inr (by simp [h])) _

/-- A register the host gives nothing, or register 0, reads after the load what it read before, the return-address register apart. -/
theorem readReg_standardLoad_of_unset {s : State} {r : RegIdx} {regs : List (RegIdx × Word)} (hm : s.MemoryOk) (hl : r ≠ s.cfg.linkReg)
    (hunset : r = 0 ∨ ∀ v, (r, v) ∉ regs) (image : List Word) : (s.standardLoad image regs).1.readReg r = s.readReg r := by
  obtain ⟨hcfg, hregs, -⟩ := storeBlock_fields hm 0 (loadedImage image)
  rw [readReg_standardLoad_of_ne hl, readReg_presetRegs_of_unset hunset, readReg_of_eq hcfg hregs]

/-- Settles O60: n is the length of the loaded image, which the load stores as one block at address 0; the host's presets and then the preset of the
return-address register say what the registers hold. -/
theorem loaderPresetsReturnAddress : Obligations.LoaderPresetsReturnAddress := by
  intro s image regs n hk hm hz hlink hends hnot
  obtain rfl : n = (loadedImage image).length := by
    by_cases h : EndsInSyscall image
    · rw [loadedImage_of_endsInSyscall h, hends h]
    · rw [length_loadedImage_of_not_endsInSyscall h, hnot h]
  refine ⟨fun hfits => ?_, fun hexceeds => ⟨_, Prod.ext rfl ((standardLoad_error hk hz image regs).trans (if_neg hexceeds.not_ge))⟩⟩
  have hword := wordAt_standardLoad hk hz hm hfits regs
  refine ⟨_, Prod.ext rfl ((standardLoad_error hk hz image regs).trans (if_pos hfits)), standardLoad_pc hm image regs,
    fun b hb => ?image, fun hne b hb => ?appended, fun b hb => ?beyond, ?linkRegister, fun r v hv hr hl hall => ?given,
    fun r hl hunset => readReg_standardLoad_of_unset hm hl hunset image⟩
  case image => rw [hword, if_pos (hb.trans_le (length_le_loadedImage image)), getD_loadedImage hb]
  case appended =>
    have hlength := length_loadedImage_of_not_endsInSyscall hne
    rw [hword, if_pos (by omega), hb, getD_loadedImage_length hne]
  case beyond => rw [hword, if_neg hb.not_gt]
  case linkRegister =>
    have hpos := List.length_pos_of_ne_nil (loadedImage_ne_nil image)
    rw [readReg_standardLoad_linkReg hlink, BitVec.toNat_ofNat, Nat.mod_eq_of_lt (by omega)]
  case given => rw [readReg_standardLoad_of_ne hl, readReg_presetRegs_of_set hr hv hall]

end Sys2Proof.Machine
end

section
/-!
PROOFS. The remaining statements about the encoding (30_encoding.md): the decoder inverts the encoder, the illegal words, and the words of the listings.
-/

namespace Sys2Proof.Machine

open Claims

/-- The two tables find every instruction's canonical word (R83, R84). -/
theorem classified_encode : ∀ i : Instr, Laws.Classified.Statement i
  | .sll .. => Laws.Classified.sll .. | .srl .. => Laws.Classified.srl .. | .sra .. => Laws.Classified.sra ..
  | .sllv .. => Laws.Classified.sllv .. | .srlv .. => Laws.Classified.srlv .. | .srav .. => Laws.Classified.srav ..
  | .jr .. => Laws.Classified.jr .. | .jalr .. => Laws.Classified.jalr .. | .syscall => Laws.Classified.syscall
  | .mfhi .. => Laws.Classified.mfhi .. | .mflo .. => Laws.Classified.mflo ..
  | .mult .. => Laws.Classified.mult .. | .multu .. => Laws.Classified.multu ..
  | .div .. => Laws.Classified.div .. | .divu .. => Laws.Classified.divu ..
  | .add .. => Laws.Classified.add .. | .addu .. => Laws.Classified.addu ..
  | .sub .. => Laws.Classified.sub .. | .subu .. => Laws.Classified.subu ..
  | .and .. => Laws.Classified.and .. | .or .. => Laws.Classified.or ..
  | .xor .. => Laws.Classified.xor .. | .nor .. => Laws.Classified.nor ..
  | .slt .. => Laws.Classified.slt .. | .sltu .. => Laws.Classified.sltu ..
  | .bltz .. => Laws.Classified.bltz .. | .beq .. => Laws.Classified.beq .. | .bne .. => Laws.Classified.bne ..
  | .addi .. => Laws.Classified.addi .. | .addiu .. => Laws.Classified.addiu ..
  | .slti .. => Laws.Classified.slti .. | .sltiu .. => Laws.Classified.sltiu ..
  | .andi .. => Laws.Classified.andi .. | .ori .. => Laws.Classified.ori ..
  | .xori .. => Laws.Classified.xori .. | .lui .. => Laws.Classified.lui ..
  | .lw .. => Laws.Classified.lw .. | .sw .. => Laws.Classified.sw ..
  | .j .. => Laws.Classified.j .. | .jal .. => Laws.Classified.jal ..

theorem hasMnemonic_encode (i : Instr) : HasMnemonic (encode i) i.mnemonic := by
  obtain ⟨-, h⟩ := classified_encode i
  split at h
  · exact .inr h
  · exact .inl h
  · exact .inl h

/-- The fields of an instruction's canonical word are its operands (R81, R90). -/
theorem instrOf_encode (i : Instr) : instrOf i.mnemonic (encode i) = i := by
  cases i with
  | bltz | beq | bne | addi | addiu | slti | sltiu | andi | ori | xori | lui | lw | sw =>
    simp only [Instr.mnemonic, instrOf, encode, rsOf_immediateWord, rtOf_immediateWord, imm16Of_immediateWord]
  | j | jal => simp only [Instr.mnemonic, instrOf, encode, tgt26Of_jumpWord]
  | _ =>
    simp only [Instr.mnemonic, instrOf, encode, rsOf_primaryWord, rtOf_primaryWord, rdOf_primaryWord, shamtOf_primaryWord]

/-- Settles O1: the tables find the mnemonic in the canonical word, and its fields are the operands. -/
theorem decodeOfEncodeIsIdentity : Obligations.DecodeOfEncodeIsIdentity := fun i =>
  decode_eq_ok_iff.2 ⟨i.mnemonic, hasMnemonic_encode i, instrOf_encode i⟩

/-- Settles O3: the words that decode to nothing are the illegal ones, and these are decode's errors. -/
theorem illegalWordsRaiseUnknownEncoding : Obligations.IllegalWordsRaiseUnknownEncoding := fun w =>
  ⟨illegal_iff_no_decode w, fun _ f hlatch hw => (produce_fault_iff (st := .decode) trivial _).2 ⟨⟨f, w⟩, hlatch, hw, rfl⟩⟩

/-- Settles O4, word by word. -/
theorem listedWordsDecode : Obligations.ListedWordsDecode := by
  unfold Obligations.ListedWordsDecode
  decide

end Sys2Proof.Machine
end

section
/-!
PROOFS. What one part of an instruction can change, said once: the registers a commit may write, the access of `lw` and `sw`, and from both the frame
of `exec`. The frames of the instructions are its cases.
-/

namespace Sys2Proof.Machine

open Claims

/-! ## What a commit changes -/

/-- The registers an instruction may write in write-back: at most one (R23, R120, R180, R196, R204). -/
def commitDests (c : Config) (i : Instr) : List RegIdx :=
  match i with
  | .jalr rd _ =>
    match c.jalrLinkDest with
    | .rd => [rd]
    | .linkReg => [c.linkReg]
    | .none => []
  | .jal _ => [c.linkReg]
  | _ => (primaryDest i).toList ++ ((immediateDest i).map (immDest c)).toList

theorem sameRegsBut_of_eq {s t : State} (hc : t.cfg = s.cfg) (hr : t.regs = s.regs) (dests : List RegIdx) : SameRegsBut dests s t :=
  fun r _ => readReg_of_eq hc hr r

/-- A commit leaves the register file, or writes one register, a destination of its instruction. -/
theorem wb_regs {i : Instr} {w : WriteBackIn} {s t : State} (h : (meaning i).wb w s = .ok t) :
    t.regs = s.regs ∨ ∃ r ∈ commitDests s.cfg i, ∃ v, t.regs = (s.writeReg r v).regs := by
  cases i
  case jalr rd rs =>
    cases h
    cases hdest : s.cfg.jalrLinkDest <;>
      simp only [State.writeJalrLink, State.pcSet_cfg, commitDests, hdest]
    · exact .inr ⟨rd, List.mem_singleton_self _, w.link, rfl⟩
    · exact .inr ⟨s.cfg.linkReg, List.mem_singleton_self _, w.link, rfl⟩
    · exact .inl rfl
  case bltz | beq | bne =>
    cases h
    split <;> exact .inl rfl
  case jr | j | syscall | mult | multu | div | divu | sw =>
    cases h
    exact .inl rfl
  all_goals
    cases h
    exact .inr ⟨_, List.mem_singleton_self _, _, rfl⟩

theorem wb_sameRegsBut {i : Instr} {w : WriteBackIn} {s t : State} (h : (meaning i).wb w s = .ok t) :
    SameRegsBut (commitDests s.cfg i) s t := by
  have hcfg : t.cfg = s.cfg := by rw [wb_commitOnly h]
  rcases wb_regs h with hregs | ⟨r, hr, v, hregs⟩
  · exact sameRegsBut_of_eq hcfg hregs _
  · intro r' hr'
    exact (readReg_of_eq (s := s.writeReg r v) hcfg hregs r').trans (readReg_writeReg_ne v fun he => hr' (he ▸ hr))

/-- Only a producer's commit writes the accumulator, and with its whole result (R170). -/
theorem wb_acc {i : Instr} {w : WriteBackIn} {s t : State} (h : (meaning i).wb w s = .ok t) :
    if isProducer i = true then t.acc = w.result ∧ t.accWritten = true else SameAcc s t := by
  cases i
  case jalr =>
    cases h
    simp [isProducer, SameAcc]
  case bltz | beq | bne =>
    cases h
    simp only [isProducer, Bool.false_eq_true, if_false]
    split <;> exact ⟨rfl, rfl⟩
  all_goals
    cases h
    exact ⟨rfl, rfl⟩

/-! ## What an access changes -/

theorem stored_immediate (c : Config) (a b : Word) : stored c (.immediate a b) = storeData c a b := by
  cases h : c.swDataIndex <;> simp [stored, storeData, h]

/-- A load succeeds exactly in range; it maps its address and gives the word there (R51, R53). -/
theorem memRead_eq_ok_iff {s t : State} {a v : Word} :
    s.memRead a = .ok (t, v) ↔ s.inRange a = true ∧ t = s.touch a ∧ v = s.wordAt a := by
  unfold State.memRead
  split
  next hr => simp [hr, eq_comm]
  next hr => simp [hr]

/-- A store succeeds exactly in range, and replaces its word (R50, R51). -/
theorem memWrite_eq_ok_iff {s t : State} {a v : Word} : s.memWrite a v = .ok t ↔ s.inRange a = true ∧ t = s.putWord a v := by
  unfold State.memWrite
  split
  next hr => simp [hr, eq_comm]
  next hr => simp [hr]

/-- The memory-access part of an instruction: `lw` loads, `sw` stores the value SW_DATA_INDEX picks, each in range; the others do nothing (R119). -/
theorem mem_cases {i : Instr} {p : MemoryIn} {s t : State} {v : Word} (h : (meaning i).mem p s = .ok (t, v)) :
    (isAccess i = false ∧ t = s) ∨
    (∃ rt imm rs, i = .lw rt imm rs ∧ s.inRange (lowWord p.result) = true ∧ t = s.touch (lowWord p.result)) ∨
    (∃ rt imm rs, i = .sw rt imm rs ∧ s.inRange (lowWord p.result) = true ∧
      t = s.putWord (lowWord p.result) (stored s.cfg p.vals)) := by
  cases i
  case lw rt imm rs =>
    obtain ⟨hr, rfl, -⟩ := memRead_eq_ok_iff.1 h
    exact .inr (.inl ⟨rt, imm, rs, rfl, hr, rfl⟩)
  case sw rt imm rs =>
    simp only [meaning, storeWord, memStore] at h
    split at h
    next a b hv =>
      split at h
      next u hu =>
        obtain ⟨hr, rfl⟩ := memWrite_eq_ok_iff.1 hu
        cases h
        exact .inr (.inr ⟨rt, imm, rs, rfl, hr, by rw [hv, stored_immediate]⟩)
      next => cases h
    next => cases h
  all_goals
    cases h
    exact .inl ⟨rfl, rfl⟩

/-- An access keeps the form of main memory (R53). -/
theorem mem_memoryOk {i : Instr} {p : MemoryIn} {s t : State} {v : Word} (hm : s.MemoryOk) (h : (meaning i).mem p s = .ok (t, v)) :
    t.MemoryOk := by
  rcases mem_cases h with ⟨-, rfl⟩ | ⟨_, _, _, -, hr, rfl⟩ | ⟨_, _, _, -, hr, rfl⟩
  · exact hm
  · exact memoryOk_touch hm hr
  · exact memoryOk_putWord hm hr

/-- No access but that of a `sw` changes a word (R55). -/
theorem mem_wordAt {i : Instr} {p : MemoryIn} {s t : State} {v : Word} (hm : s.MemoryOk) (hi : ∀ rt imm rs, i ≠ .sw rt imm rs)
    (h : (meaning i).mem p s = .ok (t, v)) (a : Word) : t.wordAt a = s.wordAt a := by
  rcases mem_cases h with ⟨-, rfl⟩ | ⟨_, _, _, -, -, rfl⟩ | ⟨_, _, _, rfl, -, -⟩
  · rfl
  · exact wordAt_touch hm _ a
  · exact absurd rfl (hi _ _ _)

/-- The access of a `sw` stores one word at its effective address (R191). -/
theorem mem_wordAt_sw {rt rs : RegIdx} {imm : BitVec 16} {p : MemoryIn} {s t : State} {v : Word} (hm : s.MemoryOk)
    (h : (meaning (.sw rt imm rs)).mem p s = .ok (t, v)) :
    t.wordAt (lowWord p.result) = stored s.cfg p.vals ∧ ∀ a, a ≠ lowWord p.result → t.wordAt a = s.wordAt a := by
  rcases mem_cases h with ⟨hi, -⟩ | ⟨_, _, _, hi, -, -⟩ | ⟨_, _, _, -, -, rfl⟩
  · cases hi
  · cases hi
  · exact ⟨wordAt_putWord_same hm _ _, fun a ha => wordAt_putWord_other hm _ a _ ha⟩

/-! ## The frame of exec -/

/-- In every stage the fields that no instruction changes stay. -/
theorem exec_sameElsewhere {i : Instr} {s t : State} (h : exec i s = .next t) : SameElsewhere s t := by
  rcases exec_next h with ⟨-, o, rfl⟩ | ⟨-, o, rfl⟩ | ⟨-, u, o, hu, rfl⟩ | ⟨-, u, o, hu, rfl⟩
  · exact ⟨rfl, rfl, rfl, rfl, rfl, rfl, rfl⟩
  · exact ⟨rfl, rfl, rfl, rfl, rfl, rfl, rfl⟩
  · rw [hu]
    exact ⟨rfl, rfl, rfl, rfl, rfl, rfl, rfl⟩
  · rw [hu]
    exact ⟨rfl, rfl, rfl, rfl, rfl, rfl, rfl⟩

/-- What an instruction leaves unchanged in every stage: all registers but its destinations, the pc unless it is a transfer, the accumulator unless it
is a producer, main memory unless it is an access, and the rest. -/
structure Frame (i : Instr) (s t : State) : Prop where
  regs : SameRegsBut (commitDests s.cfg i) s t
  pc : isTransfer i = false → t.pc = s.pc
  acc : isProducer i = false → SameAcc s t
  memory : isAccess i = false → SameMemory s t
  elsewhere : SameElsewhere s t

theorem sameMemory_of_eq {s t : State} (hc : t.cfg = s.cfg) (hm : t.mem = s.mem) (hs : t.slots = s.slots) : SameMemory s t :=
  ⟨hm, hs, wordAt_of_eq hc hm hs⟩

/-- What `exec` does to main memory: nothing, or in memory-access the access of its meaning on the latched payload. -/
theorem exec_memory {i : Instr} {s t : State} (h : exec i s = .next t) :
    SameMemory s t ∨ (s.phase = .memoryAccess ∧ ∃ p u v, s.latches.memoryAccess = some p ∧ (meaning i).mem p s = .ok (u, v) ∧
      SameMemory u t) := by
  obtain ⟨hcfg, -⟩ := exec_sameElsewhere h
  rcases exec_effect h with ⟨-, -, -, -, hmem, hslots⟩ | ⟨hphase, p, u, v, hlatch, hu, -, -, -, -, hmem, hslots⟩ |
    ⟨-, w, u, -, -, -, -, -, -, hmem, hslots⟩
  · exact .inl (sameMemory_of_eq hcfg hmem hslots)
  · have hucfg : u.cfg = s.cfg := by rw [mem_accessOnly hu]
    exact .inr ⟨hphase, p, u, v, hlatch, hu, sameMemory_of_eq (hcfg.trans hucfg.symm) hmem hslots⟩
  · exact .inl (sameMemory_of_eq hcfg hmem hslots)

theorem exec_frame {i : Instr} {s t : State} (h : exec i s = .next t) : Frame i s t := by
  have helse := exec_sameElsewhere h
  have ⟨hcfg, _⟩ := helse
  have hmemory : isAccess i = false → SameMemory s t := by
    intro hi
    rcases exec_memory h with hsame | ⟨-, p, u, v, -, hu, hsame⟩
    · exact hsame
    · rcases mem_cases hu with ⟨-, rfl⟩ | ⟨_, _, _, rfl, -⟩ | ⟨_, _, _, rfl, -⟩
      · exact hsame
      · cases hi
      · cases hi
  rcases exec_effect h with ⟨hregs, hpc, hacc, hwritten, -⟩ | ⟨-, p, u, v, -, -, hregs, hpc, hacc, hwritten, -⟩ |
    ⟨-, w, u, -, hu, hregs, hpc, hacc, hwritten, -⟩
  · exact ⟨sameRegsBut_of_eq hcfg hregs _, fun _ => hpc, fun _ => ⟨hacc, hwritten⟩, hmemory, helse⟩
  · exact ⟨sameRegsBut_of_eq hcfg hregs _, fun _ => hpc, fun _ => ⟨hacc, hwritten⟩, hmemory, helse⟩
  · have hucfg : u.cfg = s.cfg := by rw [wb_commitOnly hu]
    refine ⟨fun r hr => ?regs, fun hi => hpc.trans (wb_pc_of_not_transfer hi hu), fun hi => ?acc, hmemory, helse⟩
    case regs => exact (readReg_of_eq (hcfg.trans hucfg.symm) hregs r).trans (wb_sameRegsBut hu r hr)
    case acc =>
      have heffect := wb_acc hu
      rw [hi] at heffect
      obtain ⟨huacc, huwritten⟩ := heffect
      exact ⟨hacc.trans huacc, hwritten.trans huwritten⟩

/-! ## The frames of the instructions -/

theorem commitDests_of_primaryDest {i : Instr} {rd : RegIdx} (h : primaryDest i = some rd) (c : Config) : commitDests c i = [rd] := by
  cases i <;> cases h <;> rfl

theorem commitDests_of_immediateDest {i : Instr} {rt : RegIdx} (h : immediateDest i = some rt) (c : Config) :
    commitDests c i = [immDest c rt] := by
  cases i <;> cases h <;> rfl

/-- An instruction that writes its primary-format destination changes nothing else. -/
theorem kind_of_primaryDest {i : Instr} {rd : RegIdx} (h : primaryDest i = some rd) :
    isTransfer i = false ∧ isProducer i = false ∧ isAccess i = false := by
  cases i <;> cases h <;> exact ⟨rfl, rfl, rfl⟩

/-- Nor does one that writes its immediate-format destination, and none of these is a `sw`. -/
theorem kind_of_immediateDest {i : Instr} {rt : RegIdx} (h : immediateDest i = some rt) :
    isTransfer i = false ∧ isProducer i = false ∧ ∀ rt imm rs, i ≠ .sw rt imm rs := by
  cases i <;> cases h <;> exact ⟨rfl, rfl, nofun⟩

/-- Settles O26: the frame of `exec`, whose only destination is `rd`. -/
theorem primaryWritersFrame : Obligations.PrimaryWritersFrame := by
  intro i rd s t hi h
  obtain ⟨htransfer, hproducer, haccess⟩ := kind_of_primaryDest hi
  have hf := exec_frame h
  exact ⟨commitDests_of_primaryDest hi s.cfg ▸ hf.regs, hf.pc htransfer, hf.acc hproducer, hf.memory haccess, hf.elsewhere⟩

/-- An instruction that is no `sw` changes no word of memory in any stage, though a `lw` may map an address (R53). -/
theorem exec_words {i : Instr} {s t : State} (hm : s.MemoryOk) (hi : ∀ rt imm rs, i ≠ .sw rt imm rs) (h : exec i s = .next t) :
    t.mem = s.mem ∧ ∀ a, t.wordAt a = s.wordAt a := by
  rcases exec_memory h with ⟨hmem, -, hwords⟩ | ⟨-, p, u, v, -, hu, hmem, -, hwords⟩
  · exact ⟨hmem, hwords⟩
  · refine ⟨hmem.trans ?_, fun a => (hwords a).trans (mem_wordAt hm hi hu a)⟩
    rcases mem_cases hu with ⟨-, rfl⟩ | ⟨_, _, _, -, -, rfl⟩ | ⟨_, _, _, rfl, -⟩
    · rfl
    · exact State.touch_mem s _
    · exact absurd rfl (hi _ _ _)

/-- Settles O27: the frame of `exec`, whose only destination is the configured slice of `rt`; the mapping of a load changes no word. -/
theorem immediateWritersFrame : Obligations.ImmediateWritersFrame := by
  intro i rt s t hi hm h
  obtain ⟨htransfer, hproducer, hsw⟩ := kind_of_immediateDest hi
  have hf := exec_frame h
  obtain ⟨hmem, hwords⟩ := exec_words hm hsw h
  exact ⟨commitDests_of_immediateDest hi s.cfg ▸ hf.regs, hf.pc htransfer, hf.acc hproducer, hmem, hwords, hf.elsewhere⟩

/-- Settles O28: neither a producer nor `syscall` has a destination register. -/
theorem producersAndSystemCallFrame : Obligations.ProducersAndSystemCallFrame := by
  intro i s t hi h
  have hf := exec_frame h
  have hkind : commitDests s.cfg i = [] ∧ isTransfer i = false ∧ isAccess i = false := by
    rcases hi with hi | rfl
    · cases i <;> cases hi <;> exact ⟨rfl, rfl, rfl⟩
    · exact ⟨rfl, rfl, rfl⟩
  obtain ⟨hdests, htransfer, haccess⟩ := hkind
  refine ⟨hdests ▸ hf.regs, hf.pc htransfer, hf.memory haccess, hf.elsewhere, ?_⟩
  rintro rfl
  exact hf.acc rfl

theorem kind_of_isPlainTransfer {i : Instr} (h : isPlainTransfer i = true) (c : Config) :
    commitDests c i = [] ∧ isProducer i = false ∧ isAccess i = false := by
  cases i <;> cases h <;> exact ⟨rfl, rfl, rfl⟩

/-- Settles O29: the frame of `exec`, with the destinations of the two linking jumps. -/
theorem transfersFrame : Obligations.TransfersFrame := by
  refine fun s t => ⟨fun i hi h => ?_, fun rd rs h => ?_, fun field h => ?_⟩
  · obtain ⟨hdests, hproducer, haccess⟩ := kind_of_isPlainTransfer hi s.cfg
    have hf := exec_frame h
    exact ⟨hdests ▸ hf.regs, hf.acc hproducer, hf.memory haccess, hf.elsewhere⟩
  · have hf := exec_frame h
    exact ⟨hf.regs, hf.acc rfl, hf.memory rfl, hf.elsewhere⟩
  · have hf := exec_frame h
    exact ⟨hf.regs, hf.acc rfl, hf.memory rfl, hf.elsewhere⟩

/-- Settles O30: memory changes only by the access, which a bubble and the other stages do not make. -/
theorem storeFrame : Obligations.StoreFrame := by
  intro rt rs imm s t hm h
  have hf := exec_frame h
  refine ⟨hf.regs, hf.pc rfl, hf.acc rfl, hf.elsewhere, ?access, ?still⟩
  case access =>
    intro p hphase hlatch
    have hs : s.accessing p = s := by simp [State.accessing, ← hphase, ← hlatch]
    rw [← hs, exec_accessing, hs] at h
    split at h
    next => cases h
    next u v hu =>
      cases h
      exact mem_wordAt_sw (t := u) hm hu
  case still =>
    intro hno
    rcases exec_memory h with ⟨-, -, hwords⟩ | ⟨hphase, p, u, v, hlatch, -⟩
    · exact hwords
    · rcases hno with hno | hno
      · exact absurd hphase hno
      · cases hlatch.symm.trans hno

end Sys2Proof.Machine
end

section
/-!
PROOFS. The remaining statements about single instructions: division and the retrievals (42_muldiv_accumulator.md), the destination slice
(43_alu_immediate.md), `lw` and `sw` (44_load_store.md), and `syscall` (46_system.md).
-/

namespace Sys2Proof.Machine

open Claims

/-! ## Division -/

/-- The signed quotient of a defined division fits a word: it is the library's signed division (R173). -/
theorem toInt_mod32_tdiv {a b : Word} (h : ¬ (a.toInt = -2 ^ 31 ∧ b.toInt = -1)) :
    (mod32 (a.toInt.tdiv b.toInt)).toInt = a.toInt.tdiv b.toInt := by
  have hdefined : a ≠ BitVec.intMin 32 ∨ b ≠ -1#32 := by
    rw [← not_and_or]
    rintro ⟨rfl, rfl⟩
    exact h ⟨by decide, by decide⟩
  rw [← BitVec.toInt_sdiv_of_ne_or_ne a b hdefined, mod32_toInt]

/-- What division leaves of the dividend is the remainder of rounding toward zero. -/
theorem sub_tdiv_mul_eq_tmod (a b : Int) : a - a.tdiv b * b = a.tmod b := by
  rw [Int.tmod_def, mul_comm]

/-- The remainder is smaller than the divisor. -/
theorem natAbs_tmod_lt (a : Int) {b : Int} (h : b ≠ 0) : (a.tmod b).natAbs < b.natAbs := by
  rw [Int.natAbs_tmod]
  exact Nat.mod_lt _ (Int.natAbs_pos.2 h)

/-- The remainder is 0 or has the sign of the dividend. -/
theorem tmod_eq_zero_or_sign_eq (a b : Int) : a.tmod b = 0 ∨ (a.tmod b).sign = a.sign := by
  rw [Int.sign_tmod]
  split
  next h => exact .inl (Int.tmod_eq_zero_of_dvd h)
  next => exact .inr rfl

theorem unsignedDivision_eq (a b : Word) :
    unsignedDivision a b = mod32 (a.toNat % b.toNat : Nat) ++ mod32 (a.toNat / b.toNat : Nat) := by
  rw [Nat.mod_eq_sub_div_mul]
  rfl

/-- Settles O11: the operands admitted are those for which execute raises nothing, and its results are packed as the statement packs them. -/
theorem dividePacksQuotientAndRemainder : Obligations.DividePacksQuotientAndRemainder := by
  refine ⟨accumulatorOp_of_accProducer .div rfl (fun _ => rfl) fun e a b hadm => ?signed,
    accumulatorOp_of_accProducer .divu rfl (fun _ => rfl) fun e a b hadm => ?unsigned,
    fun a b hb hdefined => ⟨toInt_mod32_tdiv hdefined, ?remainder, ?sign⟩⟩
  case signed => exact if_neg fun hu => ((signedDivisionUndefined_iff a b).1 hu).elim hadm.1 hadm.2
  case unsigned =>
    have hb : ¬ (b == 0) = true := fun hb => hadm (by rw [eq_of_beq hb]; rfl)
    rw [if_neg hb, unsignedDivision_eq]
  case remainder =>
    rw [sub_tdiv_mul_eq_tmod]
    exact natAbs_tmod_lt _ hb
  case sign =>
    rw [sub_tdiv_mul_eq_tmod]
    exact tmod_eq_zero_or_sign_eq _ _

/-- A producer whose execute part raises an error on the registers as decode read them passes decode and raises it (R118, R170). -/
theorem executeRaises_of_accProducer {i : Instr} {f : ExecuteIn → Word → Word → Except Fault DWord} {x : Fault} {d : DecodeIn} {sD : State}
    (hm : meaning i = accProducer i f) (hp : i.format = .primary) (sE : State)
    (hf : ∀ e, e.toDecodeIn = d → f e (xRs sD d.instr) (xRt sD d.instr) = .error x) : ExecuteRaises i d sD sE x := by
  refine ⟨⟨d, i, sD.loadOperands .primary d.instr⟩, rfl, rfl, ?decode, ?execute⟩
  case decode => rw [exec_decoding, hp]
  case execute =>
    have hfe (e : ExecuteIn) (he : e.toDecodeIn = d) : f e (sD.readReg (rsOf d.instr)) (sD.readReg (rtOf d.instr)) = .error x := hf e he
    simp only [exec_executing, hm, accProducer, exPrimary, State.loadOperands, hfe]

/-- Settles O12: the operands the statement names are those that `div` and `divu` test for. -/
theorem undefinedDivisionsRaise : Obligations.UndefinedDivisionsRaise := by
  refine fun d sD sE => ⟨fun _ hu => ?signed, fun _ hu => ?unsigned⟩
  case signed =>
    refine executeRaises_of_accProducer rfl rfl sE fun e he => ?_
    rw [if_pos ((signedDivisionUndefined_iff _ _).2 hu), he]
  case unsigned =>
    have hzero : xRt sD d.instr = 0 := BitVec.eq_of_toNat_eq hu
    refine executeRaises_of_accProducer rfl rfl sE fun e he => ?_
    rw [if_pos (by rw [hzero]; rfl), he]

/-! ## Retrievals -/

/-- Once a producer has committed, a retrieval sees the accumulator (R175). -/
theorem State.readAcc_of_written {s : State} (h : s.accWritten = true) : s.readAcc = s.acc := if_pos h

/-- Settles O13: the two retrievals take the high and the low half of the accumulator. -/
theorem retrievalReadsAccumulatorHalf : Obligations.RetrievalReadsAccumulatorHalf := by
  intro d sD sE sM sW h
  rw [← State.readAcc_of_written h, ← highWord_eq_ofNat, ← lowWord_eq_ofNat]
  exact ⟨fun hw => ⟨decode_of_isPrimary hw (m := .mfhi) rfl, passes_of_accRetrieval rfl d sD sE sM sW⟩,
    fun hw => ⟨decode_of_isPrimary hw (m := .mflo) rfl, passes_of_accRetrieval rfl d sD sE sM sW⟩⟩

/-! ## The destination of the immediate format -/

/-- The slice of a word in which the field `rt` lies at its place, bits 16 to 20, is that slice of the field (R81, D14). -/
theorem toNat_immDest {c : Config} (h : c.wbImmDestSlice.withinImmDest = true) (rt : RegIdx) :
    (immDest c rt).toNat = rt.toNat / 2 ^ (c.wbImmDestSlice.start - 16) % 2 ^ (c.wbImmDestSlice.stop - c.wbImmDestSlice.start) := by
  obtain ⟨⟨hstart, hlt⟩, hstop⟩ : (16 ≤ c.wbImmDestSlice.start ∧ c.wbImmDestSlice.start < c.wbImmDestSlice.stop) ∧
      c.wbImmDestSlice.stop ≤ 21 := by simpa [BitSlice.withinImmDest] using h
  have hfield : ((rt.setWidth 32 : Word) <<< 16).toNat = rt.toNat * 2 ^ 16 := by
    rw [BitVec.toNat_shiftLeft, BitVec.toNat_setWidth_of_le (by decide), Nat.shiftLeft_eq, Nat.mod_eq_of_lt (by omega)]
  have hshift : rt.toNat * 2 ^ 16 / 2 ^ c.wbImmDestSlice.start = rt.toNat / 2 ^ (c.wbImmDestSlice.start - 16) := by
    rw [← Nat.sub_add_cancel hstart, pow_add, Nat.mul_div_mul_right _ _ (by positivity), Nat.add_sub_cancel]
  have hwidth : 2 ^ (c.wbImmDestSlice.stop - c.wbImmDestSlice.start) ≤ 2 ^ 5 := Nat.pow_le_pow_right (by decide) (by omega)
  rw [immDest, BitVec.toNat_setWidth, BitVec.extractLsb'_toNat, hfield, Nat.shiftRight_eq_div_pow, hshift,
    Nat.mod_eq_of_lt (lt_of_lt_of_le (Nat.mod_lt _ (by positivity)) hwidth)]

/-- Settles O19: the whole field is the slice that drops no bit. -/
theorem immediateDestinationSlice : Obligations.ImmediateDestinationSlice := by
  refine fun c rt => ⟨fun h => BitVec.eq_of_toNat_eq ?_, fun h => toNat_immDest h rt⟩
  rw [toNat_immDest (by rw [h]; rfl), h]
  exact (Nat.mod_eq_of_lt (by simpa using rt.isLt)).trans (Nat.div_one _)

/-! ## Loads and stores -/

/-- Execute computes the effective address on `x[rs]` as decode read it (R192). -/
theorem exEffectiveAddress_of_loaded {e : ExecuteIn} {s : State} {w : Word} (hv : e.vals = s.loadOperands .immediate w) (t : State) :
    exEffectiveAddress (imm16Of w) e t = .ok (.plain (zext64 (ea s w))) := by
  rw [exEffectiveAddress, exImmediate, hv, ea, ← add_sext32_eq_mod32]
  rfl

/-- The passage up to memory-access, from the two parts: the way to prove an `AccessRaises`. -/
theorem accessRaises_of_parts {i : Instr} {d : DecodeIn} {sD sE sM : State} {x : Fault} (r : ExecuteResult)
    (hex : ∀ e : ExecuteIn, e.vals = sD.loadOperands i.format d.instr → (meaning i).ex e (sE.executing e) = .ok r)
    (hmem : ∀ p : MemoryIn, p.vals = sD.loadOperands i.format d.instr → p.result = r.result →
      (meaning i).mem p (sM.accessing p) = .error x) : AccessRaises i d sD sE sM x := by
  refine ⟨⟨d, i, sD.loadOperands i.format d.instr⟩, ⟨⟨d, i, _⟩, r.result, r.link⟩, rfl, rfl, rfl, exec_decoding i sD d, ?_, ?_⟩
  · rw [exec_executing, hex _ rfl]
  · rw [exec_accessing, hmem _ rfl rfl]

/-- A `lw` in range passes its stages: memory-access maps its address, and write-back writes the word there to the configured destination (R190). -/
theorem passes_lw {d : DecodeIn} {sD sM : State} (hr : sM.slotOf (ea sD d.instr) < sM.unitSize) (rt rs : RegIdx) (sE sW : State) :
    Passes (.lw rt (imm16Of d.instr) rs) d sD sE sM sW (fun t => t.touch (ea sD d.instr))
      (fun t => t.writeReg (immDest t.cfg rt) (sM.wordAt (ea sD d.instr))) false := by
  refine passes_of_parts (.plain (zext64 (ea sD d.instr))) (sM.wordAt (ea sD d.instr)) rfl
    (fun e _ hv => exEffectiveAddress_of_loaded hv (sE.executing e)) (fun p _ _ hresult => ?access) fun w _ _ _ hloaded => ?commit
  case access =>
    simp only [meaning, loadWord, memLoad, hresult, ExecuteResult.plain, lowWord_zext64]
    exact memRead_of_lt (s := sM.accessing p) hr
  case commit => simp only [meaning, loadWord, hloaded]

/-- A `lw` out of range raises OutOfRange in memory-access (R190, R222). -/
theorem accessRaises_lw {d : DecodeIn} {sD sM : State} (hr : sM.unitSize ≤ sM.slotOf (ea sD d.instr)) (rt rs : RegIdx) (sE : State) :
    AccessRaises (.lw rt (imm16Of d.instr) rs) d sD sE sM (.outOfRange (sM.slotOf (ea sD d.instr))) := by
  refine accessRaises_of_parts (.plain (zext64 (ea sD d.instr))) (fun e hv => exEffectiveAddress_of_loaded hv (sE.executing e))
    fun p _ hresult => ?_
  simp only [meaning, loadWord, memLoad, hresult, ExecuteResult.plain, lowWord_zext64]
  exact memRead_of_ge (s := sM.accessing p) hr

/-- A `sw` in range passes its stages: memory-access stores the register that SW_DATA_INDEX picks, and write-back does nothing (R191). -/
theorem passes_sw {d : DecodeIn} {sD sM : State} (hr : sM.slotOf (ea sD d.instr) < sM.unitSize) (rt rs : RegIdx) (sE sW : State) :
    Passes (.sw rt (imm16Of d.instr) rs) d sD sE sM sW
      (fun t => t.putWord (ea sD d.instr) (storeData sM.cfg (xRs sD d.instr) (xRt sD d.instr))) id false := by
  refine passes_of_parts (.plain (zext64 (ea sD d.instr))) 0 rfl (fun e _ hv => exEffectiveAddress_of_loaded hv (sE.executing e))
    (fun p _ hv hresult => ?_) fun _ _ _ _ _ => rfl
  simp only [meaning, storeWord, memStore, hv, hresult, ExecuteResult.plain, lowWord_zext64, State.loadOperands, Instr.format,
    Instr.mnemonic, Mnemonic.format]
  rw [memWrite_of_lt (s := sM.accessing p) _ hr]
  rfl

/-- A `sw` out of range raises OutOfRange in memory-access (R191, R222). -/
theorem accessRaises_sw {d : DecodeIn} {sD sM : State} (hr : sM.unitSize ≤ sM.slotOf (ea sD d.instr)) (rt rs : RegIdx) (sE : State) :
    AccessRaises (.sw rt (imm16Of d.instr) rs) d sD sE sM (.outOfRange (sM.slotOf (ea sD d.instr))) := by
  refine accessRaises_of_parts (.plain (zext64 (ea sD d.instr))) (fun e hv => exEffectiveAddress_of_loaded hv (sE.executing e))
    fun p hv hresult => ?_
  simp only [meaning, storeWord, memStore, hv, hresult, ExecuteResult.plain, lowWord_zext64, State.loadOperands, Instr.format,
    Instr.mnemonic, Mnemonic.format]
  rw [memWrite_of_ge (s := sM.accessing p) _ hr]
  rfl

/-! ## The system instruction -/

/-- Settles O25: no part of a `syscall` changes anything, and its output carries the flag. -/
theorem systemCallOnlyQuits : Obligations.SystemCallOnlyQuits := fun _ _ _ _ _ h =>
  ⟨decode_of_isPrimary h (m := .syscall) rfl,
    passes_of_parts (.plain 0) 0 rfl (fun _ _ _ => rfl) (fun _ _ _ _ => rfl) fun _ _ _ _ _ => rfl⟩

end Sys2Proof.Machine

/-! The two statements whose names are those of the model's meanings `loadWord` and `storeWord` stand outside the model's namespace. -/

namespace Sys2Proof

open Machine

/-- Settles O20, by whether the address is in range. -/
theorem loadWord : Obligations.LoadWord := fun d _ sE _ sW hop =>
  ⟨decode_of_isOpcode hop (m := .lw) rfl, fun hr => passes_lw hr (rtOf d.instr) (rsOf d.instr) sE sW,
    fun hr => accessRaises_lw hr (rtOf d.instr) (rsOf d.instr) sE⟩

/-- Settles O21, by whether the address is in range. -/
theorem storeWord : Obligations.StoreWord := fun d _ sE _ sW hop =>
  ⟨decode_of_isOpcode hop (m := .sw) rfl, fun hr => passes_sw hr (rtOf d.instr) (rsOf d.instr) sE sW,
    fun hr => accessRaises_sw hr (rtOf d.instr) (rsOf d.instr) sE⟩

end Sys2Proof
end

section
/-!
PROOFS. What every step keeps (40_pipeline_orchestrator.md): one induction over the five turns of a cycle, stalled or not, ended by an error or not,
from it the outcome of a step and the latencies, and the unreachable contract violation.
-/

namespace Sys2Proof.Machine

open Claims

/-! ## One induction for a step -/

/-- What a turn can do, for what it leaves: nothing, the work of its stage, or a fatal error of a stage past the stall boundary. -/
theorem turn_next {first : Nat} {st : Stage} {s t : State} (h : turn first st s = .next t) :
    t = s ∨ produceAccept st s = .next t ∨
      ∃ x, first ≤ st.index ∧ produceAccept st s = .fault x ∧ t = s.takeFatalError st x := by
  obtain ⟨u, hu, hc⟩ := turn_cases first st s
  obtain rfl : t = u := by simpa [h] using hu
  rcases hc with ⟨-, ht⟩ | ⟨-, -, hp⟩ | ⟨-, hf, x, hx, ht⟩
  · exact .inl ht
  · exact .inr (.inl hp)
  · exact .inr (.inr ⟨x, hf, hx, ht⟩)

/-- What the work of a stage and a fatal error keep, a turn keeps. -/
theorem turn_induction {P : State → Prop} (work : ∀ {st s t}, P s → produceAccept st s = .next t → P t)
    (error : ∀ {s} st x, P s → P (s.takeFatalError st x)) {first : Nat} {st : Stage} {s t : State} (hs : P s)
    (h : turn first st s = .next t) : P t := by
  rcases turn_next h with rfl | hp | ⟨x, -, -, rfl⟩
  · exact hs
  · exact work hs hp
  · exact error st x hs

/-- A running core's step reaches only states with a property that holds at the start of the pass and that the work of every stage, a fatal error and
the end of the cycle keep. -/
theorem step_induction {P : State → Prop} (work : ∀ {st s t}, P s → produceAccept st s = .next t → P t)
    (error : ∀ {s} st x, P s → P (s.takeFatalError st x)) (finish : ∀ {s} first, P s → P (finishCycle first s)) {s t : State}
    (hh : s.halted = false) (start : P (passStart s)) (h : step s = .next t) : P t := by
  obtain ⟨s1, s2, s3, s4, s5, h1, h2, h3, h4, h5, rfl⟩ := step_chain hh h
  have keep {st u v} (hu : P u) (ht : turn (beginCycle s).firstAdvancing st u = .next v) : P v := turn_induction work error hu ht
  exact finish _ (keep (keep (keep (keep (keep start h1) h2) h3) h4) h5)

/-- What the start of a pass keeps too, every step keeps. -/
theorem step_keeps {P : State → Prop} (start : ∀ {s}, P s → P (passStart s))
    (work : ∀ {st s t}, P s → produceAccept st s = .next t → P t) (error : ∀ {s} st x, P s → P (s.takeFatalError st x))
    (finish : ∀ {s} first, P s → P (finishCycle first s)) {s t : State} (hs : P s) (h : step s = .next t) : P t := by
  cases hh : s.halted
  · exact step_induction work error finish hh (start hs) h
  · rw [step_halted hh] at h
    cases h
    exact hs

/-! ## The outcome of a step -/

theorem step_cfg {s t : State} (h : step s = .next t) : t.cfg = s.cfg := (mapGrows_step h).cfg

/-- A running core's step counts its cycle: the start of the pass raises the count, and no stage changes it (R32). -/
theorem step_cycle {s t : State} (hh : s.halted = false) (h : step s = .next t) : t.cycle = s.cycle + 1 := by
  obtain ⟨-, -, -, -, -, -, -, -, -, hcycle, -⟩ := passStart_fields s
  refine step_induction (P := fun u => u.cycle = s.cycle + 1) (fun hu hp => (produceAccept_keeps hp).cycle.trans hu)
    (fun _ _ hu => hu) (fun {u} first hu => ?_) hh hcycle h
  obtain ⟨-, -, -, -, -, -, -, -, hfinish, -⟩ := finishCycle_fields first u
  exact hfinish.trans hu

/-- Settles O39, by what a running core's step does and a halted core's does not. -/
theorem stepOutcome : Obligations.StepOutcome := by
  intro s
  obtain ⟨t, h⟩ := step_next s
  refine ⟨t, h, step_cfg h, fun hh => step_cycle hh h, fun hh => ?_⟩
  rw [step_halted hh] at h
  cases h
  rfl

/-! ## Latencies -/

theorem latencyOk_iff (s : State) : s.LatencyOk ↔ ∀ st, s.lat.get st ≤ 1 := by
  refine ⟨fun ⟨h0, h1, h2, h3, h4⟩ st => ?_, fun h => ⟨h .fetch, h .decode, h .execute, h .memoryAccess, h .writeBack⟩⟩
  cases st <;> assumption

/-- The work of a stage sets its own latency (R112). -/
theorem produceAccept_lat {st : Stage} {s t : State} (h : produceAccept st s = .next t) : t.lat = s.lat.set st Config.stageLatency := by
  cases st with
  | fetch => exact (produceAccept_fetch h).lat
  | decode => exact (produceAccept_decode h).lat
  | execute => exact (produceAccept_execute h).lat
  | memoryAccess => exact (produceAccept_memoryAccess h).lat
  | writeBack => exact (produceAccept_writeBack h).lat

theorem produceAccept_latencyOk {st : Stage} {s t : State} (hs : s.LatencyOk) (h : produceAccept st s = .next t) : t.LatencyOk := by
  rw [latencyOk_iff] at hs ⊢
  intro st'
  rw [produceAccept_lat h]
  by_cases hst : st' = st
  · rw [hst, PerStage.get_set_same]
    exact le_rfl
  · rw [PerStage.get_set_ne _ _ hst]
    exact hs st'

theorem passStart_latencyOk {s : State} (hs : s.LatencyOk) : (passStart s).LatencyOk := by
  obtain ⟨-, -, -, -, -, -, -, -, -, -, hlat⟩ := passStart_fields s
  rw [latencyOk_iff] at hs ⊢
  intro st
  rw [hlat, tickAll_lat_get]
  exact (Nat.sub_le _ _).trans (hs st)

theorem finishCycle_lat (first : Nat) (s : State) : (finishCycle first s).lat = s.lat := by
  obtain ⟨-, -, -, -, -, -, -, -, -, hlat, -⟩ := finishCycle_fields first s
  exact hlat

/-- Every step keeps the latencies legal (R126). -/
theorem step_latencyOk {s t : State} (hs : s.LatencyOk) (h : step s = .next t) : t.LatencyOk :=
  step_keeps (P := State.LatencyOk) passStart_latencyOk produceAccept_latencyOk (fun _ _ hu => hu)
    (fun first hu => by rwa [State.LatencyOk, finishCycle_lat]) hs h

/-- Settles O42: a latency of at most 1 is 0 after the tick, and a stage's work sets it to 1 again. -/
theorem noStageEverStalls : Obligations.NoStageEverStalls := fun _ _ hl => ⟨firstAdvancing_zero hl, step_latencyOk hl⟩

/-! ## The contract violation -/

/-- An `EX:` on the values of the primary format raises what its function does, or has no case (R118, R224). -/
theorem exPrimary_error {f : Word → Word → Except Fault DWord} {e : ExecuteIn} {x : Fault} (h : exPrimary f e = .error x) :
    x = .unimplementedOperation e.addr e.instr ∨ ∃ a b, f a b = .error x := by
  unfold exPrimary at h
  split at h
  next a b _ _ =>
    split at h
    next => cases h
    next hf =>
      cases h
      exact .inr ⟨a, b, hf⟩
  next =>
    cases h
    exact .inl rfl

/-- An `EX:` on the values of the immediate format raises nothing, or has no case (R118, R224). -/
theorem exImmediate_error {f : Word → Word → DWord} {e : ExecuteIn} {x : Fault} (h : exImmediate f e = .error x) :
    x = .unimplementedOperation e.addr e.instr := by
  unfold exImmediate at h
  split at h <;> cases h
  rfl

/-- Execute raises an error for operands of another format and for an undefined division, no other (R118, R226). -/
theorem ex_fault_kinds {i : Instr} {e : ExecuteIn} {s : State} {x : Fault} (h : (meaning i).ex e s = .error x) :
    x = .unimplementedOperation e.addr e.instr ∨ ∃ a b, x = .undefinedArithmetic e.addr a b := by
  cases i with
  | syscall | mfhi | mflo | j | jal => cases h
  | bltz | beq | bne | addi | addiu | slti | sltiu | andi | ori | xori | lui | lw | sw => exact .inl (exImmediate_error h)
  | jalr =>
    simp only [meaning, jumpLinkRegister] at h
    split at h <;> cases h
    next hx =>
      refine (exPrimary_error hx).imp_right fun ⟨_, _, hf⟩ => ?_
      cases hf
  | div | divu =>
    refine (exPrimary_error h).imp_right fun ⟨a, b, hf⟩ => ⟨a, b, ?_⟩
    dsimp only at hf
    split at hf <;> cases hf
    rfl
  | _ =>
    simp only [meaning, aluRegister, accProducer, jumpRegister, exSource] at h
    refine (exPrimary_error h).imp_right fun ⟨_, _, hf⟩ => ?_
    cases hf

/-- A load that fails is out of range (R51). -/
theorem memRead_error {s : State} {a : Word} {x : Fault} (h : s.memRead a = .error x) : x = .outOfRange (s.slotOf a) := by
  unfold State.memRead at h
  split at h <;> cases h
  rfl

/-- A store that fails is out of range (R51). -/
theorem memWrite_error {s : State} {a v : Word} {x : Fault} (h : s.memWrite a v = .error x) : x = .outOfRange (s.slotOf a) := by
  unfold State.memWrite at h
  split at h <;> cases h
  rfl

/-- Memory-access raises an error for operands of another format and for an address out of range, no other (R119, R222). -/
theorem mem_fault_kinds {i : Instr} {p : MemoryIn} {s : State} {x : Fault} (h : (meaning i).mem p s = .error x) :
    x = .unimplementedOperation p.addr p.instr ∨ ∃ a, x = .outOfRange a := by
  cases i
  case lw => exact .inr ⟨_, memRead_error h⟩
  case sw =>
    simp only [meaning, storeWord, memStore] at h
    split at h
    next =>
      split at h <;> cases h
      next hx => exact .inr ⟨_, memWrite_error hx⟩
    next =>
      cases h
      exact .inl rfl
  all_goals cases h

/-- Producing never raises the contract violation: only `accept` does (R115). -/
theorem produce_ne_violation (st st' : Stage) (s : State) : produce st s ≠ .fault (.stageContractViolation st') := by
  intro h
  cases st with
  | fetch =>
    obtain ⟨f, -, -, hx⟩ := produceFetch_fault h
    cases hx
  | decode =>
    obtain ⟨d, -, -, hx⟩ := produceDecode_fault h
    cases hx
  | execute =>
    cases he : s.latches.execute with
    | none => simp [produce, produceExecute, he] at h
    | some e =>
      rw [produce_execute he, exec_executing] at h
      split at h
      next x hx =>
        cases h
        rcases ex_fault_kinds hx with hx | ⟨_, _, hx⟩ <;> cases hx
      next => cases h
  | memoryAccess =>
    cases hp : s.latches.memoryAccess with
    | none => simp [produce, produceMemoryAccess, hp] at h
    | some p =>
      rw [produce_memoryAccess hp, exec_accessing] at h
      split at h
      next x hx =>
        cases h
        rcases mem_fault_kinds hx with hx | ⟨_, hx⟩ <;> cases hx
      next => cases h
  | writeBack => exact produceWriteBack_no_fault s _ h

/-- A turn leaves the latencies of the other stages. -/
theorem turn_busy_other {first : Nat} {st st' : Stage} {s t : State} (h : turn first st s = .next t) (hne : st' ≠ st) :
    t.busy st' = s.busy st' := by
  rcases turn_next h with rfl | hp | ⟨x, -, -, rfl⟩
  · rfl
  · unfold State.busy
    rw [produceAccept_lat hp, PerStage.get_set_ne _ _ hne]
  · rfl

/-- The turn of a stage that is held or idle records no contract violation. -/
theorem turn_violation {first : Nat} {st st' st'' : Stage} {s t : State} (hb : first ≤ st.index → s.busy st = false)
    (h : turn first st s = .next t) (he : t.error = some ⟨.stageContractViolation st', st''⟩) :
    s.error = some ⟨.stageContractViolation st', st''⟩ := by
  rcases turn_next h with rfl | hp | ⟨x, hf, hx, rfl⟩
  · exact he
  · exact (produceAccept_keeps hp).error ▸ he
  · cases he
    exact absurd ((produceAccept_fault (hb hf)).1 hx) (produce_ne_violation st st' s)

/-- Settles O43: a stage past the stall boundary is idle after the tick, and stays so until its own turn. -/
theorem contractViolationUnreachable : Obligations.ContractViolationUnreachable := by
  intro s t st' st'' hh h hn he
  obtain ⟨s1, s2, s3, s4, s5, h1, h2, h3, h4, h5, rfl⟩ := step_chain hh h
  obtain ⟨-, -, -, -, -, -, -, -, herror, -, hlat⟩ := passStart_fields s
  have b0 (st : Stage) (hf : (beginCycle s).firstAdvancing ≤ st.index) : (passStart s).busy st = false := by
    rw [← idle_of_firstAdvancing hf, State.busy, hlat]
    rfl
  have b1 (st : Stage) (hne : st ≠ .fetch) := turn_busy_other h1 hne
  have b2 (st : Stage) (hne : st ≠ .decode) := turn_busy_other h2 hne
  have b3 (st : Stage) (hne : st ≠ .execute) := turn_busy_other h3 hne
  have b4 (st : Stage) (hne : st ≠ .memoryAccess) := turn_busy_other h4 hne
  rw [finishCycle_error] at he
  have e4 := turn_violation (st := .writeBack) (fun hf => by simp [b4, b3, b2, b1, b0 _ hf]) h5 he
  have e3 := turn_violation (st := .memoryAccess) (fun hf => by simp [b3, b2, b1, b0 _ hf]) h4 e4
  have e2 := turn_violation (st := .execute) (fun hf => by simp [b2, b1, b0 _ hf]) h3 e3
  have e1 := turn_violation (st := .decode) (fun hf => by simp [b1, b0 _ hf]) h2 e2
  have e0 := turn_violation (b0 .fetch) h1 e1
  rw [herror, hn] at e0
  cases e0

end Sys2Proof.Machine
end

section
/-!
PROOFS. The invariant of the machine: it holds at reset, and every step keeps each of its parts.
-/

namespace Sys2Proof.Machine

open Claims

/-! ## At reset -/

/-- A bubble holds no payload, so any claim about its payload holds. -/
theorem forall_mem_none {α : Type} {C : α → Prop} : ∀ a ∈ (none : Option α), C a := fun a h => absurd h (Option.not_mem_none a)

/-- The core right after construction meets the invariant (R33). -/
theorem construct_inv (c : Config) : (State.construct c).Inv := by
  refine ⟨⟨State.construct_mem_wf c, ?memory⟩, ⟨forall_mem_none, forall_mem_none, forall_mem_none⟩,
    ⟨Nat.zero_le 1, le_rfl, le_rfl, le_rfl, le_rfl⟩, ⟨rfl, rfl⟩, fun h => absurd rfl h,
    fun _ => by simp [State.construct]⟩
  case memory => split <;> simp [State.construct]

/-- Settles O40: construction meets the invariant in every configuration. -/
theorem invariantAtReset : Obligations.InvariantAtReset := ⟨construct_inv _, fun c _ => construct_inv c⟩

/-- Settles O38: every register and every word of a constructed core is 0. -/
theorem resetState : Obligations.ResetState := by
  refine ⟨fun c s hs => ?_, rfl⟩
  subst hs
  exact ⟨readReg_construct c, rfl, fun _ => rfl, rfl, rfl, rfl, rfl, rfl, rfl⟩

/-! ## Main memory -/

theorem memoryOk_of_eq {s t : State} (hc : t.cfg = s.cfg) (hm : t.mem = s.mem) (hs : t.slots = s.slots) (h : s.MemoryOk) : t.MemoryOk := by
  rwa [State.MemoryOk, hc, hm, hs]

/-- Fetch leaves main memory as it is, or maps the fetched address, which is in range (R53, R116). -/
theorem FetchTurn.map_cases {s t : State} (h : FetchTurn s t) :
    t.slots = s.slots ∨ ∃ a, s.inRange a = true ∧ t.slots = (s.touch a).slots := by
  have hslots := h.slots
  split at hslots
  · exact .inl hslots
  next f hf => exact .inr ⟨f.addr, h.inRange f hf, hslots⟩

theorem FetchTurn.memoryOk {s t : State} (h : FetchTurn s t) (hm : s.MemoryOk) : t.MemoryOk := by
  rcases h.map_cases with hslots | ⟨a, hr, hslots⟩
  · exact memoryOk_of_eq h.cfg h.mem hslots hm
  · exact memoryOk_of_eq (s := s.touch a) (by simp [h.cfg]) (by simp [h.mem]) hslots (memoryOk_touch hm hr)

/-- Memory-access leaves main memory as it is on a bubble, and else as the access of its instruction leaves it (R119). -/
theorem AccessTurn.access_cases {s t : State} (h : AccessTurn s t) :
    (s.latches.memoryAccess = none ∧ SameMemory s t) ∨
    ∃ p u v, s.latches.memoryAccess = some p ∧ (meaning p.insn).mem p (s.inPhase .memoryAccess) = .ok (u, v) ∧ t.cfg = u.cfg ∧
      SameMemory u t := by
  have haccess := h.access
  unfold Accessed at haccess
  split at haccess
  next hp =>
    obtain ⟨hmem, hslots⟩ := haccess
    exact .inl ⟨hp, sameMemory_of_eq h.cfg hmem hslots⟩
  next p hp =>
    obtain ⟨u, v, hu, hmem, hslots⟩ := haccess
    have hcfg : t.cfg = u.cfg := by rw [mem_accessOnly hu]; exact h.cfg
    exact .inr ⟨p, u, v, hp, hu, hcfg, sameMemory_of_eq hcfg hmem hslots⟩

theorem AccessTurn.memoryOk {s t : State} (h : AccessTurn s t) (hm : s.MemoryOk) : t.MemoryOk := by
  rcases h.access_cases with ⟨-, hmem, hslots, -⟩ | ⟨p, u, v, -, hu, hcfg, hmem, hslots, -⟩
  · exact memoryOk_of_eq h.cfg hmem hslots hm
  · exact memoryOk_of_eq hcfg hmem hslots (mem_memoryOk (s := s.inPhase .memoryAccess) hm hu)

/-- The work of a stage keeps the form of main memory: fetch and memory-access make accesses in range, the others none. -/
theorem produceAccept_memoryOk {st : Stage} {s t : State} (hm : s.MemoryOk) (h : produceAccept st s = .next t) : t.MemoryOk := by
  cases st with
  | fetch => exact (produceAccept_fetch h).memoryOk hm
  | decode => exact memoryOk_of_eq (produceAccept_decode h).cfg (produceAccept_decode h).mem (produceAccept_decode h).slots hm
  | execute => exact memoryOk_of_eq (produceAccept_execute h).cfg (produceAccept_execute h).mem (produceAccept_execute h).slots hm
  | memoryAccess => exact (produceAccept_memoryAccess h).memoryOk hm
  | writeBack => exact memoryOk_of_eq (produceAccept_writeBack h).cfg (produceAccept_writeBack h).mem (produceAccept_writeBack h).slots hm

theorem passStart_memoryOk {s : State} (hm : s.MemoryOk) : (passStart s).MemoryOk := by
  obtain ⟨hcfg, -, -, -, hmem, hslots, -⟩ := passStart_fields s
  exact memoryOk_of_eq hcfg hmem hslots hm

theorem finishCycle_memoryOk {s : State} (first : Nat) (hm : s.MemoryOk) : (finishCycle first s).MemoryOk := by
  obtain ⟨hcfg, -, -, -, hmem, hslots, -⟩ := finishCycle_fields first s
  exact memoryOk_of_eq hcfg hmem hslots hm

/-- Every step keeps the form of main memory (R51, R53). -/
theorem step_memoryOk {s t : State} (hm : s.MemoryOk) (h : step s = .next t) : t.MemoryOk :=
  step_keeps (P := State.MemoryOk) passStart_memoryOk produceAccept_memoryOk (fun _ _ hu => hu) finishCycle_memoryOk hm h

/-! ## Classified payloads -/

/-- The values decode loads have the shape of the format it loads them for (R117). -/
theorem loadOperands_format (s : State) (fmt : Format) (w : Word) : (s.loadOperands fmt w).format = fmt := by
  cases fmt <;> rfl

/-- Every payload behind decode, latched or on its way, is classified as the tables say. -/
structure PayloadsClassified (s : State) : Prop where
  latches : s.LatchesClassified
  decoded : ∀ e ∈ s.outs.decoded, e.Classified
  executed : ∀ p ∈ s.outs.executed, p.Classified
  accessed : ∀ w ∈ s.outs.accessed, w.Classified

/-- A payload that a stage passes on is as classified as the one it found. -/
theorem classified_of_map {α β : Type} {f : α → β} {C : β → Prop} {o : Option α} {l : Option β} (hl : ∀ b ∈ l, C b) (ho : o.map f = l) :
    ∀ a ∈ o, C (f a) := fun _ ha => hl _ (ho ▸ Option.mem_map_of_mem f ha)

/-- Every stage keeps the payloads classified: decode reads the tables, the others pass their payload on (R29, R117). -/
theorem produceAccept_classified {st : Stage} {s t : State} (hs : PayloadsClassified s) (h : produceAccept st s = .next t) :
    PayloadsClassified t := by
  obtain ⟨⟨hexecute, haccess, hcommit⟩, hdecoded, hexecuted, haccessed⟩ := hs
  cases st with
  | fetch =>
    have f := produceAccept_fetch h
    constructor <;> simp only [State.LatchesClassified, f.latches, f.outs]
    · exact ⟨hexecute, haccess, hcommit⟩
    · exact hdecoded
    · exact hexecuted
    · exact haccessed
  | decode =>
    have f := produceAccept_decode h
    obtain ⟨o, houts, -, ho⟩ := f.outs
    constructor <;> simp only [State.LatchesClassified, f.latches, houts]
    · exact ⟨hexecute, haccess, hcommit⟩
    · intro e he
      obtain ⟨hdec, hvals⟩ := ho e he
      exact ⟨hdec, hvals ▸ loadOperands_format _ _ _⟩
    · exact hexecuted
    · exact haccessed
  | execute =>
    have f := produceAccept_execute h
    obtain ⟨o, houts, ho⟩ := f.outs
    constructor <;> simp only [State.LatchesClassified, f.latches, houts]
    · exact ⟨hdecoded, haccess, hcommit⟩
    · exact forall_mem_none
    · exact classified_of_map hexecute ho
    · exact haccessed
  | memoryAccess =>
    have f := produceAccept_memoryAccess h
    obtain ⟨o, houts, ho⟩ := f.outs
    constructor <;> simp only [State.LatchesClassified, f.latches, houts]
    · exact ⟨hexecute, hexecuted, hcommit⟩
    · exact hdecoded
    · exact forall_mem_none
    · exact classified_of_map (C := fun p : MemoryIn => p.Classified) haccess ho
  | writeBack =>
    have f := produceAccept_writeBack h
    constructor <;> simp only [State.LatchesClassified, f.latches, f.outs]
    · exact ⟨hexecute, haccess, haccessed⟩
    · exact hdecoded
    · exact hexecuted
    · exact forall_mem_none

/-- At the start of a pass nothing is on its way. -/
theorem passStart_classified {s : State} (hs : s.LatchesClassified) : PayloadsClassified (passStart s) := by
  rw [passStart_eq]
  exact ⟨hs, forall_mem_none, forall_mem_none, forall_mem_none⟩

theorem finishCycle_classified {s : State} (first : Nat) (hs : PayloadsClassified s) : PayloadsClassified (finishCycle first s) := by
  obtain ⟨-, -, -, -, -, -, hlatches, -, -, -, -, houts⟩ := finishCycle_fields first s
  constructor
  · rw [State.LatchesClassified, hlatches]
    exact hs.latches
  all_goals
    rw [houts]
    exact forall_mem_none

/-- A running core's step leaves its latches classified as the tables say (R29). -/
theorem step_latchesClassified {s t : State} (hs : s.LatchesClassified) (hh : s.halted = false) (h : step s = .next t) :
    t.LatchesClassified :=
  (step_induction (P := PayloadsClassified) produceAccept_classified (fun _ _ ⟨h1, h2, h3, h4⟩ => ⟨h1, h2, h3, h4⟩) finishCycle_classified
    hh (passStart_classified hs) h).latches

/-! ## Errors and register 0 -/

theorem passStart_errorHalts {s : State} (hs : s.ErrorHalts) : (passStart s).ErrorHalts := by
  obtain ⟨-, -, -, -, -, -, -, hhalted, herror, -⟩ := passStart_fields s
  rwa [State.ErrorHalts, hhalted, herror]

/-- A fatal error halts the core, and only one is recorded (R129). -/
theorem step_errorHalts {s t : State} (hs : s.ErrorHalts) (h : step s = .next t) : t.ErrorHalts := by
  refine step_keeps (P := State.ErrorHalts) passStart_errorHalts (fun hu hp => ?work) (fun _ _ _ _ => rfl) (fun {u} first hu => ?finish) hs h
  case work => rwa [State.ErrorHalts, (produceAccept_keeps hp).error, (produceAccept_keeps hp).halted]
  case finish =>
    intro he
    rw [finishCycle_error] at he
    rw [finishCycle_halted, hu he, Bool.true_or]

/-- A write leaves register 0 under the hard-wired reading (R22). -/
theorem regsAfterWrite_zero {c : Config} (h : c.r0Policy = .hardwired) (regs : Vector Word 32) (r : RegIdx) (v : Word) :
    (regsAfterWrite c regs r v)[0] = regs[0] := by
  unfold regsAfterWrite
  split
  · rfl
  next hr =>
    have hne : r.toNat ≠ 0 := fun he => hr ⟨h, BitVec.eq_of_toNat_eq he⟩
    simp [hne]

theorem register0Ok_of_eq {s t : State} (hc : t.cfg = s.cfg) (hr : t.regs = s.regs) (h : s.Register0Ok) : t.Register0Ok := by
  rwa [State.Register0Ok, hc, hr]

/-- Write-back leaves the register file, or writes one register (R23, R120). -/
theorem committed_regs {s : State} {regs : Vector Word 32} {pc : Word} {acc : DWord} {accWritten : Bool}
    (h : Committed s regs pc acc accWritten) : regs = s.regs ∨ ∃ r v, regs = (s.writeReg r v).regs := by
  unfold Committed at h
  split at h
  · obtain ⟨hregs, -⟩ := h
    exact .inl hregs
  · obtain ⟨u, hu, rfl, -⟩ := h
    exact (wb_regs hu).imp_right fun ⟨r, _, v, hregs⟩ => ⟨r, v, hregs⟩

/-- The work of a stage leaves register 0 under the hard-wired reading: only write-back writes a register, and not that one (R22). -/
theorem produceAccept_register0Ok {st : Stage} {s t : State} (hs : s.Register0Ok) (h : produceAccept st s = .next t) : t.Register0Ok := by
  have hcfg := (produceAccept_keeps h).cfg
  cases st with
  | fetch => exact register0Ok_of_eq hcfg (produceAccept_fetch h).regs hs
  | decode => exact register0Ok_of_eq hcfg (produceAccept_decode h).regs hs
  | execute => exact register0Ok_of_eq hcfg (produceAccept_execute h).regs hs
  | memoryAccess => exact register0Ok_of_eq hcfg (produceAccept_memoryAccess h).regs hs
  | writeBack =>
    rcases committed_regs (produceAccept_writeBack h).commit with hregs | ⟨r, v, hregs⟩
    · exact register0Ok_of_eq hcfg hregs hs
    · intro hp
      rw [hcfg] at hp
      simp only [hregs, State.writeReg_regs, regsAfterWrite_zero hp]
      exact hs hp

/-- Every step leaves register 0 at 0 under the hard-wired reading (R22). -/
theorem step_register0Ok {s t : State} (hs : s.Register0Ok) (h : step s = .next t) : t.Register0Ok := by
  refine step_keeps (P := State.Register0Ok) (fun {u} hu => ?start) produceAccept_register0Ok (fun _ _ hu => hu)
    (fun {u} first hu => ?finish) hs h
  case start =>
    obtain ⟨hcfg, hregs, -⟩ := passStart_fields u
    exact register0Ok_of_eq hcfg hregs hu
  case finish =>
    obtain ⟨hcfg, hregs, -⟩ := finishCycle_fields first u
    exact register0Ok_of_eq hcfg hregs hu

/-! ## The invariant -/

/-- A running core's step puts the fields of the pass to rest. -/
theorem step_resting {s t : State} (hh : s.halted = false) (h : step s = .next t) : t.Resting := by
  obtain ⟨_, _, _, _, s5, -, -, -, -, -, rfl⟩ := step_chain hh h
  obtain ⟨-, -, -, -, -, -, -, -, -, -, hphase, houts⟩ := finishCycle_fields (beginCycle s).firstAdvancing s5
  exact ⟨hphase, houts⟩

/-- Settles O41, part by part; a halted core does not change. -/
theorem stepKeepsInvariant : Obligations.StepKeepsInvariant := by
  rintro s t hinv h
  cases hh : s.halted
  · obtain ⟨hmemory, hlatches, hlatency, -, herror, hregister0⟩ := hinv
    exact ⟨step_memoryOk hmemory h, step_latchesClassified hlatches hh h, step_latencyOk hlatency h, step_resting hh h,
      step_errorHalts herror h, step_register0Ok hregister0 h⟩
  · rw [step_halted hh] at h
    cases h
    exact hinv

end Sys2Proof.Machine
end

section
/-!
PROOFS. What one cycle does (40_pipeline_orchestrator.md): the payloads it moves, the one register, the accumulator and the one word of memory it may
write, and what a fatal error leaves.
-/

namespace Sys2Proof.Machine

open Claims

/-! ## What the stages run -/

/-- Settles O36, stage by stage. -/
theorem bubblesDoNothing : Obligations.BubblesDoNothing := by
  refine fun s => ⟨fun h => ?_, fun h => ?_, fun h => ?_, fun h => ?_, fun h => ?_⟩
  · rw [produce, produceFetch, h]
  · rw [produce, produceDecode, h]
  · rw [produce, produceExecute, h]
  · rw [produce, produceMemoryAccess, h]
  · rw [produce, produceWriteBack, h]

/-- Settles O37, stage by stage and for the step around them. -/
theorem stepRunsDecodedInstruction : Obligations.StepRunsDecodedInstruction := by
  refine ⟨fun s d i hd hi => ?decode, fun s e he => ?execute, fun s p hp => ?memoryAccess, fun s w hw => ?writeBack, fun s hh => ?step⟩
  case decode => simp only [produce, produceDecode, hd, hi]
  case execute => rw [produce_execute he, inPhase_executing he]
  case memoryAccess => rw [produce_memoryAccess hp, inPhase_accessing hp]
  case writeBack => simp only [produce, produceWriteBack, hw]
  case step => simp [step, advance, hh]

/-! ## Payloads -/

theorem cleanStep_latencyOk {s t : State} (hl : s.LatencyOk) (h : CleanStep s t) : t.LatencyOk :=
  have ⟨_, hs, _⟩ := h
  step_latencyOk hl hs

theorem cleanStep_cfg {s t : State} (h : CleanStep s t) : t.cfg = s.cfg :=
  have ⟨_, hs, _⟩ := h
  step_cfg hs

/-- The values decode loads depend on the configuration and the registers only. -/
theorem loadOperands_of_eq {s t : State} (hc : t.cfg = s.cfg) (hr : t.regs = s.regs) (fmt : Format) (w : Word) :
    t.loadOperands fmt w = s.loadOperands fmt w := by
  cases fmt <;> simp only [State.loadOperands, readReg_of_eq hc hr]

/-- The latches after a cycle without fatal error: the snapshot, the word fetched, and each payload one stage on (R130, R132). -/
theorem clean_cycle_latches {s t : State} (hl : s.LatencyOk) (h : CleanStep s t) :
    ∃ (e : Option ExecuteIn) (p : Option MemoryIn) (w : Option WriteBackIn),
      t.latches = ⟨some ⟨s.pc⟩, s.latches.fetch.map fun f => ⟨f, s.wordAt f.addr⟩, e, p, w⟩ ∧
      e.map (·.toDecodeIn) = s.latches.decode ∧
      (∀ x, e = some x → decode x.instr = .ok x.insn ∧ x.vals = s.loadOperands x.insn.format x.instr) ∧
      p.map (·.toExecuteIn) = s.latches.execute ∧ w.map (·.toMemoryIn) = s.latches.memoryAccess := by
  obtain ⟨hh, hs, he⟩ := h
  obtain ⟨s1, s2, s3, s4, s5, f1, f2, f3, f4, f5, rfl, -⟩ := clean_cycle hl hh hs he
  obtain ⟨hcfg, hregs, -, -, hmem, hslots, hlatches, -⟩ := passStart_fields s
  obtain ⟨houts, -⟩ := passStart_clean hl
  obtain ⟨-, -, -, -, -, -, hfinish, -⟩ := finishCycle_fields 0 s5
  obtain ⟨e, o2, m2, hvals⟩ := f2.outs
  obtain ⟨p, o3, m3⟩ := f3.outs
  obtain ⟨w, o4, m4⟩ := f4.outs
  have hword (f : FetchIn) : (passStart s).wordAt f.addr = s.wordAt f.addr := wordAt_of_eq hcfg hmem hslots f.addr
  refine ⟨e, p, w, ?_, ?_, fun x hx => ?_, ?_, ?_⟩
  · simp only [hfinish, f5.latches, f4.latches, f3.latches, f2.latches, f1.latches, o4, o3, o2, f1.outs, houts, hlatches, hword]
  · simpa only [f1.latches, hlatches] using m2
  · obtain ⟨hdec, hload⟩ := hvals x hx
    exact ⟨hdec, hload.trans (loadOperands_of_eq (f1.cfg.trans hcfg) (f1.regs.trans hregs) _ _)⟩
  · simpa only [f2.latches, f1.latches, hlatches] using m3
  · simpa only [f3.latches, f2.latches, f1.latches, hlatches] using m4

/-- Settles O45, latch by latch. -/
theorem payloadsAdvanceOneStage : Obligations.PayloadsAdvanceOneStage := by
  intro s t hl h
  obtain ⟨e, p, w, hlatches, hdecode, hvals, hexecute, haccess⟩ := clean_cycle_latches hl h
  rw [hlatches]
  exact ⟨rfl, rfl, hdecode, fun x hx => (hvals x hx).1, hexecute, haccess⟩

/-- Decode loads the registers as they are at the start of its cycle (R63, R255). -/
theorem clean_cycle_operands {s t : State} (hl : s.LatencyOk) (h : CleanStep s t) :
    ∀ e ∈ t.latches.execute, e.vals = s.loadOperands e.insn.format e.instr := by
  obtain ⟨e, p, w, hlatches, -, hvals, -⟩ := clean_cycle_latches hl h
  rw [hlatches]
  exact fun x hx => (hvals x hx).2

/-- Settles O46: the first cycle loads the registers it starts with, and so does the second. -/
theorem registerHazardDistance : Obligations.RegisterHazardDistance := fun _ _ _ hl h g =>
  ⟨clean_cycle_operands hl h, clean_cycle_operands (cleanStep_latencyOk hl h) g⟩

/-- Settles O58: each address traced is that of a payload, which has moved one stage on. -/
theorem traceFollowsThePipeline : Obligations.TraceFollowsThePipeline := by
  intro s t hl h hh
  obtain ⟨hfetch, hdecode, hexecute, -, haccess, hcommit⟩ := payloadsAdvanceOneStage s t hl h
  obtain ⟨hrunning, hs, -⟩ := h
  have hdecodeAddr : t.latches.decode.map (·.addr) = s.latches.fetch.map (·.addr) := by
    rw [hdecode, Option.map_map]
    rfl
  have hexecuteAddr : t.latches.execute.map (·.addr) = s.latches.decode.map (·.addr) := by
    rw [← hexecute, Option.map_map]
    rfl
  have haccessAddr : t.latches.memoryAccess.map (·.addr) = s.latches.execute.map (·.addr) := by
    rw [← haccess, Option.map_map]
    rfl
  have hcommitAddr : t.latches.writeBack.map (·.addr) = s.latches.memoryAccess.map (·.addr) := by
    rw [← hcommit, Option.map_map]
    rfl
  simp only [State.traceOf, hh, hrunning, step_cycle hrunning hs, Bool.false_eq_true, if_false, List.map_cons, List.map_nil, hfetch, hdecodeAddr,
    hexecuteAddr, haccessAddr, hcommitAddr]
  exact ⟨rfl, rfl, trivial⟩

/-! ## What a cycle writes in registers and accumulator -/

/-- The turn of a stage before write-back changes nothing that write-back reads, whether it ends in an error or not. -/
theorem turn_sameForCommit {first : Nat} {st : Stage} {s t : State} (hne : st ≠ .writeBack) (h : turn first st s = .next t) :
    SameForCommit s t := by
  rcases turn_next h with rfl | hp | ⟨x, -, -, rfl⟩
  · exact ⟨rfl, rfl, rfl, rfl, rfl, rfl⟩
  · cases st with
    | fetch => exact (produceAccept_fetch hp).sameForCommit
    | decode => exact (produceAccept_decode hp).sameForCommit
    | execute => exact (produceAccept_execute hp).sameForCommit
    | memoryAccess => exact (produceAccept_memoryAccess hp).sameForCommit
    | writeBack => exact absurd rfl hne
  · exact ⟨rfl, rfl, rfl, rfl, rfl, rfl⟩

/-- What a running core's step does to registers and accumulator, stalled or not: what a write-back commits that finds the registers, the accumulator
and the latch of the start, or nothing. -/
theorem step_commit_cases {s t : State} (hh : s.halted = false) (h : step s = .next t) :
    (t.regs = s.regs ∧ SameAcc s t) ∨
    ∃ m pc, m.cfg = s.cfg ∧ m.regs = s.regs ∧ SameAcc s m ∧ m.latches.writeBack = s.latches.writeBack ∧
      Committed m t.regs pc t.acc t.accWritten := by
  obtain ⟨s1, s2, s3, s4, s5, h1, h2, h3, h4, h5, rfl⟩ := step_chain hh h
  obtain ⟨hcfg, hregs, hacc, hwritten, -, -, hlatches, -⟩ := passStart_fields s
  obtain ⟨-, hfregs, hfacc, hfwritten, -⟩ := finishCycle_fields (beginCycle s).firstAdvancing s5
  have hm : SameForCommit (passStart s) s4 := (turn_sameForCommit (by decide) h1).trans <| (turn_sameForCommit (by decide) h2).trans <|
    (turn_sameForCommit (by decide) h3).trans (turn_sameForCommit (by decide) h4)
  have m_regs := hm.regs.trans hregs
  have m_acc : SameAcc s s4 := ⟨hm.acc.trans hacc, hm.accWritten.trans hwritten⟩
  simp only [SameAcc, hfregs, hfacc, hfwritten]
  rcases turn_writeBack h5 with rfl | f | ⟨x, -, rfl⟩
  · exact .inl ⟨m_regs, m_acc⟩
  · exact .inr ⟨s4, s5.pc, hm.cfg.trans hcfg, m_regs, m_acc, hm.writeBack.trans (by rw [hlatches]), f.commit⟩
  · exact .inl ⟨m_regs, m_acc⟩

/-- Settles O48: a write-back writes one register or none, and no other stage writes any. -/
theorem atMostOneRegisterPerCycle : Obligations.AtMostOneRegisterPerCycle := by
  intro s t h
  have hcfg : t.cfg = s.cfg := step_cfg h
  cases hh : s.halted
  · rcases step_commit_cases hh h with ⟨hregs, -⟩ | ⟨m, pc, mcfg, mregs, -, -, hcommit⟩
    · exact ⟨0, sameRegsBut_of_eq hcfg hregs _⟩
    rcases committed_regs hcommit with hregs | ⟨r, v, hregs⟩
    · exact ⟨0, sameRegsBut_of_eq hcfg (hregs.trans mregs) _⟩
    · have hwrite : t.regs = (s.writeReg r v).regs := by rw [hregs, State.writeReg_regs, mcfg, mregs, State.writeReg_regs]
      exact ⟨r, fun r' hr' => (readReg_of_eq (s := s.writeReg r v) hcfg hwrite r').trans
        (readReg_writeReg_ne v (List.ne_of_not_mem_cons hr'))⟩
  · rw [step_halted hh] at h
    cases h
    exact ⟨0, fun _ _ => rfl⟩

/-- Write-back leaves the accumulator, or a producer in it writes its whole result (R25, R170). -/
theorem committed_acc {s : State} {regs : Vector Word 32} {pc : Word} {acc : DWord} {accWritten : Bool}
    (h : Committed s regs pc acc accWritten) : (acc = s.acc ∧ accWritten = s.accWritten) ∨
      ∃ w, s.latches.writeBack = some w ∧ isProducer w.insn = true ∧ acc = w.result ∧ accWritten = true := by
  unfold Committed at h
  split at h
  · obtain ⟨-, -, hacc, hwritten⟩ := h
    exact .inl ⟨hacc, hwritten⟩
  next w hw =>
    obtain ⟨u, hu, -, -, rfl, rfl⟩ := h
    have heffect := wb_acc hu
    split at heffect
    next hi => exact .inr ⟨w, hw, hi, heffect⟩
    next => exact .inl heffect

/-- Settles O49: a write-back leaves the accumulator or is a producer's, and no other stage writes it. -/
theorem onlyProducersWriteAccumulator : Obligations.OnlyProducersWriteAccumulator := by
  intro s t h
  cases hh : s.halted
  · rcases step_commit_cases hh h with ⟨-, hacc⟩ | ⟨m, pc, -, -, ⟨macc, mwritten⟩, mlatch, hcommit⟩
    · exact .inl hacc
    rcases committed_acc hcommit with ⟨hacc, hwritten⟩ | ⟨w, hw, hi, hacc⟩
    · exact .inl ⟨hacc.trans macc, hwritten.trans mwritten⟩
    · exact .inr ⟨w, mlatch.symm.trans hw, hi, hacc⟩
  · rw [step_halted hh] at h
    cases h
    exact .inl ⟨rfl, rfl⟩

/-! ## What a cycle writes in main memory -/

/-- Two states agree in all that the access of the latched instruction depends on, as far as words show it: the configuration, every word, and the latch
of memory-access; and the memory of the second has its form. -/
structure SameForAccess (s t : State) : Prop where
  cfg : t.cfg = s.cfg
  memoryOk : t.MemoryOk
  words : ∀ a, t.wordAt a = s.wordAt a
  latch : t.latches.memoryAccess = s.latches.memoryAccess

theorem SameForAccess.trans {s t u : State} (h : SameForAccess s t) (g : SameForAccess t u) : SameForAccess s u :=
  ⟨g.cfg.trans h.cfg, g.memoryOk, fun a => (g.words a).trans (h.words a), g.latch.trans h.latch⟩

theorem sameForAccess_of_eq {s t : State} (hm : s.MemoryOk) (hc : t.cfg = s.cfg) (hmem : t.mem = s.mem) (hs : t.slots = s.slots)
    (hl : t.latches.memoryAccess = s.latches.memoryAccess) : SameForAccess s t :=
  ⟨hc, memoryOk_of_eq hc hmem hs hm, wordAt_of_eq hc hmem hs, hl⟩

theorem passStart_sameForAccess {s : State} (hm : s.MemoryOk) : SameForAccess s (passStart s) := by
  obtain ⟨hcfg, -, -, -, hmem, hslots, hlatches, -⟩ := passStart_fields s
  exact sameForAccess_of_eq hm hcfg hmem hslots (by rw [hlatches])

theorem FetchTurn.sameForAccess {s t : State} (h : FetchTurn s t) (hm : s.MemoryOk) : SameForAccess s t := by
  refine ⟨h.cfg, h.memoryOk hm, fun b => ?_, by rw [h.latches]⟩
  rcases h.map_cases with hslots | ⟨a, -, hslots⟩
  · exact wordAt_of_eq h.cfg h.mem hslots b
  · exact (wordAt_of_eq (s := s.touch a) (by simp [h.cfg]) (by simp [h.mem]) hslots b).trans (wordAt_touch hm a b)

theorem DecodeTurn.sameForAccess {s t : State} (h : DecodeTurn s t) (hm : s.MemoryOk) : SameForAccess s t :=
  sameForAccess_of_eq hm h.cfg h.mem h.slots (by rw [h.latches])

theorem ExecuteTurn.sameForAccess {s t : State} (h : ExecuteTurn s t) (hm : s.MemoryOk) : SameForAccess s t :=
  sameForAccess_of_eq hm h.cfg h.mem h.slots (by rw [h.latches])

theorem WriteBackTurn.sameForAccess {s t : State} (h : WriteBackTurn s t) (hm : s.MemoryOk) : SameForAccess s t :=
  sameForAccess_of_eq hm h.cfg h.mem h.slots (by rw [h.latches])

/-- No turn but that of memory-access changes a word, whether it ends in an error or not. -/
theorem turn_sameForAccess {first : Nat} {st : Stage} {s t : State} (hm : s.MemoryOk) (hne : st ≠ .memoryAccess)
    (h : turn first st s = .next t) : SameForAccess s t := by
  rcases turn_next h with rfl | hp | ⟨x, -, -, rfl⟩
  · exact sameForAccess_of_eq hm rfl rfl rfl rfl
  · cases st with
    | fetch => exact (produceAccept_fetch hp).sameForAccess hm
    | decode => exact (produceAccept_decode hp).sameForAccess hm
    | execute => exact (produceAccept_execute hp).sameForAccess hm
    | memoryAccess => exact absurd rfl hne
    | writeBack => exact (produceAccept_writeBack hp).sameForAccess hm
  · exact sameForAccess_of_eq hm rfl rfl rfl rfl

theorem finishCycle_wordAt (first : Nat) (s : State) (a : Word) : (finishCycle first s).wordAt a = s.wordAt a := by
  obtain ⟨hcfg, -, -, -, hmem, hslots, -⟩ := finishCycle_fields first s
  exact wordAt_of_eq hcfg hmem hslots a

/-- A state's words are another's but for the one a payload stores (R191). -/
def Stores (s t : State) (p : MemoryIn) : Prop :=
  t.wordAt (lowWord p.result) = stored s.cfg p.vals ∧ ∀ a, a ≠ lowWord p.result → t.wordAt a = s.wordAt a

/-- Only the words before and the words after matter. -/
theorem Stores.of_words {s s' t t' : State} {p : MemoryIn} (h : Stores s t p) (hc : s.cfg = s'.cfg) (hs : ∀ a, s.wordAt a = s'.wordAt a)
    (ht : ∀ a, t'.wordAt a = t.wordAt a) : Stores s' t' p := by
  obtain ⟨hsame, hother⟩ := h
  exact ⟨(ht _).trans (hc ▸ hsame), fun a ha => (ht a).trans ((hother a ha).trans (hs a))⟩

/-- A `sw` in memory-access stores its word (R191). -/
theorem AccessTurn.stores {s t : State} {p : MemoryIn} {rt rs : RegIdx} {imm : BitVec 16} (h : AccessTurn s t) (hm : s.MemoryOk)
    (hp : s.latches.memoryAccess = some p) (hi : p.insn = .sw rt imm rs) : Stores s t p := by
  rcases h.access_cases with ⟨hnone, -⟩ | ⟨p', u, v, hp', hu, -, -, -, hwords⟩
  · cases hp.symm.trans hnone
  · cases hp.symm.trans hp'
    rw [hi] at hu
    obtain ⟨hsame, hother⟩ := mem_wordAt_sw (s := s.inPhase .memoryAccess) hm hu
    exact ⟨(hwords _).trans hsame, fun a ha => (hwords a).trans (hother a ha)⟩

/-- Without a `sw` memory-access changes no word (R55). -/
theorem AccessTurn.words {s t : State} (h : AccessTurn s t) (hm : s.MemoryOk)
    (hno : ∀ p rt imm rs, s.latches.memoryAccess = some p → p.insn ≠ .sw rt imm rs) (a : Word) : t.wordAt a = s.wordAt a := by
  rcases h.access_cases with ⟨-, -, -, hwords⟩ | ⟨p, u, v, hp, hu, -, -, -, hwords⟩
  · exact hwords a
  · exact (hwords a).trans (mem_wordAt (s := s.inPhase .memoryAccess) hm (fun rt imm rs => hno p rt imm rs hp) hu a)

/-- Settles O50: the four other turns change no word, and memory-access changes that of its `sw` or none. -/
theorem onlyStoresWriteMemory : Obligations.OnlyStoresWriteMemory := by
  intro s t hm h
  cases hh : s.halted
  case true =>
    rw [step_halted hh] at h
    cases h
    exact .inl fun _ => rfl
  obtain ⟨s1, s2, s3, s4, s5, h1, h2, h3, h4, h5, rfl⟩ := step_chain hh h
  have a0 := passStart_sameForAccess hm
  have a1 := a0.trans (turn_sameForAccess a0.memoryOk (by decide) h1)
  have a2 := a1.trans (turn_sameForAccess a1.memoryOk (by decide) h2)
  have a3 := a2.trans (turn_sameForAccess a2.memoryOk (by decide) h3)
  have hm4 : s4.MemoryOk := turn_induction produceAccept_memoryOk (fun _ _ hu => hu) a3.memoryOk h4
  have a5 := turn_sameForAccess hm4 (by decide) h5
  have hend (a : Word) : (finishCycle (beginCycle s).firstAdvancing s5).wordAt a = s4.wordAt a :=
    (finishCycle_wordAt _ s5 a).trans (a5.words a)
  rcases turn_memoryAccess h4 with rfl | f | ⟨x, -, rfl⟩
  · exact .inl fun a => (hend a).trans (a3.words a)
  · by_cases hsw : ∃ p rt imm rs, s3.latches.memoryAccess = some p ∧ p.insn = .sw rt imm rs
    · obtain ⟨p, rt, imm, rs, hp, hi⟩ := hsw
      exact .inr ⟨p, rt, imm, rs, a3.latch.symm.trans hp, hi, (f.stores a3.memoryOk hp hi).of_words a3.cfg a3.words hend⟩
    · have hno (p rt imm rs) (hp : s3.latches.memoryAccess = some p) : p.insn ≠ .sw rt imm rs := fun hi => hsw ⟨p, rt, imm, rs, hp, hi⟩
      exact .inl fun a => (hend a).trans ((f.words a3.memoryOk hno a).trans (a3.words a))
  · exact .inl fun a => (hend a).trans (a3.words a)

/-! ## A fatal error -/

/-- A cycle with a fatal error ends before write-back, in a state in which nothing is committed and no word has changed (R129, R227). -/
theorem fatal_cycle {s t : State} (hl : s.LatencyOk) (hm : s.MemoryOk) (hh : s.halted = false) (he : s.error = none)
    (h : step s = .next t) (ht : t.error ≠ none) :
    ∃ m st x, SameForCommit (passStart s) m ∧ SameForAccess s m ∧ st ≠ .writeBack ∧ t = finishCycle 0 (m.takeFatalError st x) := by
  obtain ⟨-, -, -, -, -, -, -, -, herror, -⟩ := passStart_fields s
  have c0 : SameForCommit (passStart s) (passStart s) := ⟨rfl, rfl, rfl, rfl, rfl, rfl⟩
  have a0 := passStart_sameForAccess hm
  rcases cycle_cases hl hh h with ⟨x, -, rfl⟩ | ⟨s1, f1, hrest⟩
  · exact ⟨_, .fetch, x, c0, a0, by decide, rfl⟩
  have c1 := c0.trans f1.sameForCommit
  have a1 := a0.trans (f1.sameForAccess a0.memoryOk)
  rcases hrest with ⟨x, -, rfl⟩ | ⟨s2, f2, hrest⟩
  · exact ⟨_, .decode, x, c1, a1, by decide, rfl⟩
  have c2 := c1.trans f2.sameForCommit
  have a2 := a1.trans (f2.sameForAccess a1.memoryOk)
  rcases hrest with ⟨x, -, rfl⟩ | ⟨s3, f3, -, hrest⟩
  · exact ⟨_, .execute, x, c2, a2, by decide, rfl⟩
  have c3 := c2.trans f3.sameForCommit
  have a3 := a2.trans (f3.sameForAccess a2.memoryOk)
  rcases hrest with ⟨x, -, rfl⟩ | ⟨s4, s5, f4, -, f5, rfl, -⟩
  · exact ⟨_, .memoryAccess, x, c3, a3, by decide, rfl⟩
  · exact absurd (by rw [finishCycle_error, f5.error, f4.error, f3.error, f2.error, f1.error, herror, he]) ht

/-- Settles O56: the error stops the pass where nothing but the increment before it has been written. -/
theorem fatalErrorCommitsNothing : Obligations.FatalErrorCommitsNothing := by
  intro s t x hl hm hh he h hx
  obtain ⟨m, st, y, hc, ha, hst, rfl⟩ := fatal_cycle hl hm hh he h (by simp [hx])
  obtain ⟨herror, hhalted⟩ := finishCycle_takeFatalError m st y
  obtain ⟨-, hregs, hacc, hwritten, -⟩ := passStart_fields s
  obtain ⟨-, tregs, tacc, twritten, -⟩ := finishCycle_fields 0 (m.takeFatalError st y)
  cases herror.symm.trans hx
  refine ⟨hhalted, step_cycle hh h, hst, tregs.trans (hc.regs.trans hregs),
    ⟨tacc.trans (hc.acc.trans hacc), twritten.trans (hc.accWritten.trans hwritten)⟩, ?pc, fun a => ?word⟩
  case pc =>
    rw [finishCycle_pc_of_halted (by rfl), ← (passStart_clean hl).2]
    exact hc.pc
  case word => exact (finishCycle_wordAt _ _ a).trans (ha.words a)

end Sys2Proof.Machine
end

section
/-!
PROOFS. What two consecutive cycles see of each other (70_reset_and_hazards.md): a jump's target, the accumulator, and a stored word.
-/

namespace Sys2Proof.Machine

open Claims

/-! ## A transfer and the next fetch -/

/-- Settles O52: the jump's write-back leaves its target in the pc (R195), which is the next cycle's snapshot. -/
theorem transferReachesFetchNextCycle : Obligations.TransferReachesFetchNextCycle := by
  intro s t u w rs hl hphase h g hw hi
  obtain ⟨-, hcommit⟩ := cycleCommitsWriteBack s t hl h
  obtain ⟨m, v, -, -, -, -, -, hexec, -, -, -, hpc⟩ := hcommit w hw
  rw [hi, exec_committing] at hexec
  cases hexec
  rw [hphase] at hpc
  obtain ⟨hfetch, -⟩ := payloadsAdvanceOneStage s t hl h
  obtain ⟨hfetch', hdecode', -⟩ := payloadsAdvanceOneStage t u (cleanStep_latencyOk hl h) g
  refine ⟨hfetch, hfetch'.trans (by rw [hpc]; rfl), hdecode'.trans (by rw [hfetch]; rfl)⟩

/-! ## The accumulator -/

/-- A producer's write-back puts its whole result into the accumulator (R170). -/
theorem clean_cycle_producer {s t : State} {w : WriteBackIn} (hl : s.LatencyOk) (h : CleanStep s t) (hw : s.latches.writeBack = some w)
    (hi : isProducer w.insn = true) : t.acc = w.result ∧ t.accWritten = true := by
  obtain ⟨-, hcommit⟩ := cycleCommitsWriteBack s t hl h
  obtain ⟨m, v, -, -, -, -, -, hexec, -, hacc, hwritten, -⟩ := hcommit w hw
  rw [exec_committing] at hexec
  split at hexec
  next => cases hexec
  next u hu =>
    cases hexec
    have heffect := wb_acc hu
    rw [if_pos hi] at heffect
    obtain ⟨huacc, huwritten⟩ := heffect
    exact ⟨hacc.trans huacc, hwritten.trans huwritten⟩

/-- A retrieval's write-back leaves its half of the accumulator in its register, but for register 0 under the hard-wired reading (R22, R175). -/
theorem clean_cycle_retrieval {s t : State} {w : WriteBackIn} {rd : RegIdx} {half : DWord → Word} (hl : s.LatencyOk) (h : CleanStep s t)
    (hw : s.latches.writeBack = some w) (hi : meaning w.insn = accRetrieval w.insn rd half) (hacc : s.accWritten = true) :
    t.readReg rd = if s.cfg.r0Policy = .hardwired ∧ rd = 0 then 0 else half s.acc := by
  obtain ⟨-, hcommit⟩ := cycleCommitsWriteBack s t hl h
  obtain ⟨m, v, mcfg, -, macc, mwritten, -, hexec, hregs, -⟩ := hcommit w hw
  rw [exec_committing, hi] at hexec
  cases hexec
  have hread : (m.committing w).readAcc = s.acc := (State.readAcc_of_written (mwritten.trans hacc)).trans macc
  obtain ⟨-, hwrite⟩ := registerReadAfterWrite
  calc t.readReg rd = ((m.committing w).writeReg rd (half (m.committing w).readAcc)).readReg rd :=
        readReg_of_eq (s := (m.committing w).writeReg rd _) ((cleanStep_cfg h).trans mcfg.symm) hregs rd
    _ = if s.cfg.r0Policy = .hardwired ∧ rd = 0 then 0 else half s.acc := by
        rw [hwrite, if_pos rfl, hread, ← mcfg]
        rfl

/-- Settles O53: the producer's commit is the last before the retrieval's. -/
theorem accumulatorHasNoHazard : Obligations.AccumulatorHasNoHazard := by
  intro s t u w p rd hl h g hw hi hp
  obtain ⟨hacc, hwritten⟩ := clean_cycle_producer hl h hw hi
  obtain ⟨-, -, -, -, -, hlatch⟩ := payloadsAdvanceOneStage s t hl h
  obtain ⟨w', hw', rfl⟩ := Option.map_eq_some_iff.1 (hlatch.trans hp)
  have hcfg : t.cfg = s.cfg := cleanStep_cfg h
  have hretrieval {half : DWord → Word} (hm : meaning w'.insn = accRetrieval w'.insn rd half) :
      u.readReg rd = if s.cfg.r0Policy = .hardwired ∧ rd = 0 then 0 else half w.result := by
    rw [← hcfg, ← hacc]
    exact clean_cycle_retrieval (cleanStep_latencyOk hl h) g hw' hm hwritten
  exact ⟨fun hi' => hretrieval (by rw [hi']; rfl), fun hi' => hretrieval (by rw [hi']; rfl)⟩

/-! ## A store and the next fetch -/

/-- A cycle without fatal error makes the store of the `sw` in memory-access (R191). -/
theorem clean_cycle_stores {s t : State} {p : MemoryIn} {rt rs : RegIdx} {imm : BitVec 16} (hl : s.LatencyOk) (hm : s.MemoryOk)
    (h : CleanStep s t) (hp : s.latches.memoryAccess = some p) (hi : p.insn = .sw rt imm rs) : Stores s t p := by
  obtain ⟨hh, hs, he⟩ := h
  obtain ⟨s1, s2, s3, s4, s5, f1, f2, f3, f4, f5, rfl, -⟩ := clean_cycle hl hh hs he
  have a0 := passStart_sameForAccess hm
  have a1 := a0.trans (f1.sameForAccess a0.memoryOk)
  have a2 := a1.trans (f2.sameForAccess a1.memoryOk)
  have a3 := a2.trans (f3.sameForAccess a2.memoryOk)
  have a5 := f5.sameForAccess (f4.memoryOk a3.memoryOk)
  exact (f4.stores a3.memoryOk (a3.latch.trans hp) hi).of_words a3.cfg a3.words
    fun a => (finishCycle_wordAt 0 s5 a).trans (a5.words a)

/-- Settles O54: fetch reads the words the cycle starts with, and the next cycle starts with the word stored. -/
theorem fetchSeesEarlierStores : Obligations.FetchSeesEarlierStores := by
  rintro s t u p f rt rs imm ⟨hm, -, hl, -⟩ h g hp hi hf
  obtain ⟨hfetch, hdecode, -⟩ := payloadsAdvanceOneStage s t hl h
  obtain ⟨-, hdecode', -⟩ := payloadsAdvanceOneStage t u (cleanStep_latencyOk hl h) g
  refine ⟨hdecode.trans (by rw [hf]; rfl), fun hpc => ?_⟩
  obtain ⟨hword, -⟩ := clean_cycle_stores hl hm h hp hi
  rw [hdecode', hfetch, ← hword, ← hpc]
  rfl

end Sys2Proof.Machine
end
